-- ==== Sys2Proof/Word.lean ====
section
/-! DEFINITION. The word of the port and of every descriptor field, and the byte of the system data space
(spec/00_scope.md R6: AW = FW = 32; R8: arithmetic on patterns is modulo 2^32). -/

namespace Sys2Proof

/-- A 32-bit pattern (R7, R8): a port word, an address, a signed displacement or a count. `+` on it is the
`+32` of R8. -/
abbrev Word := BitVec 32

/-- One byte of the system data space (spec/20_memory.md R60). -/
abbrev Byte := BitVec 8

end Sys2Proof
end

