-- ==== Sys2Proof/Config.lean ====
section
/-! DEFINITION. What an implementation fixes (spec/00_scope.md R6, the parameters marked OPEN) as plain data, and
the free values: the `draw`s of R11, which no definition gives a value. N_CH is the number of channel register
sets State holds (R20), so it has no field here. -/

namespace Sys2Proof

/-- The legal element sizes, `SIZES = {1, 2, 4}` (R6, spec/10_state.md R24). Code 3 is held in no register, so it
is no constructor. -/
inductive ElemSize where
  | b1
  | b2
  | b4
  deriving DecidableEq, Repr, Inhabited

/-- The kind of an element access (R6, `AccessFault`). -/
inductive AccessKind where
  | read
  | write
  deriving DecidableEq, Repr

/-- One clause of the platform's fault predicate (R6, R10; spec/60_exceptions.md R205): accesses number `since` and
later, up to number `till` where there is one, at an address `lo` to `hi`, of the given size and kind where they
are given, fail. The window over the access number is how the predicate depends on time (log 4). -/
structure FaultRule where
  since : Nat
  till : Option Nat
  lo : Nat
  hi : Nat
  size : Option Nat
  kind : Option AccessKind
  deriving DecidableEq, Repr

/-- The OPEN parameters of R6 beside N_CH: `N_EV`, `P_MLOFF_ON_LAST`, and `AccessFault` as a list of clauses, any
of which makes an access fail. No step writes them (log 3, log 4). -/
structure Config where
  /-- `N_EV − 1`, the last event number: eight bits, so `1 ≤ N_EV ≤ 256` -/
  lastEv : BitVec 8
  mloffOnLast : Bool
  faults : List FaultRule
  deriving DecidableEq, Repr

/-- `N_EV` (R6). -/
def Config.nEv (cfg : Config) : Nat := cfg.lastEv.toNat + 1

/-- The parameters of the state after reset: those spec/95_test_vectors.md works with (log 3). -/
def Config.reset : Config := { lastEv := 7, mloffOnLast := true, faults := [] }

/-- FREE VALUE: the `n`th draw of a 32-bit register or word (R11; spec/10_state.md R42; spec/40_descriptor_port.md
R131; spec/60_exceptions.md R206). Log 5. -/
opaque Config.freeWord (n : Nat) : Word

/-- FREE VALUE: the `n`th draw of a size register (spec/10_state.md R42). Log 5. -/
opaque Config.freeSize (n : Nat) : ElemSize

/-- FREE VALUE: the `n`th draw of a one-bit register (spec/10_state.md R42). Log 5. -/
opaque Config.freeFlag (n : Nat) : Bool

/-- FREE VALUE: the `n`th draw of a choice among finitely many: which bytes a racing read returns
(spec/20_memory.md R79), which pending channel the engine serves (spec/60_exceptions.md R213). Log 5. -/
opaque Config.freeNat (n : Nat) : Nat

end Sys2Proof
end

