-- ==== Sys2Proof/Syntax.lean ====
section
/-! DEFINITION. The operations of the block as syntax: one constructor per row of spec/opcode_table.json
(spec/30_encoding.md R96), the descriptor image (R93) and the results of a port operation (R11, R90). -/

namespace Sys2Proof

/-- The descriptor image: the twelve words W0 to W11 in which a TransferDescriptor crosses the port
(spec/30_encoding.md R93). -/
structure Image where
  /-- W0 `SADDR` -/
  w0 : Word
  /-- W1 `SOFF` -/
  w1 : Word
  /-- W2 `DADDR` -/
  w2 : Word
  /-- W3 `DOFF` -/
  w3 : Word
  /-- W4 `ATTR` (R94) -/
  w4 : Word
  /-- W5 `NBYTES` -/
  w5 : Word
  /-- W6 `MLOFF` -/
  w6 : Word
  /-- W7 `BITER` -/
  w7 : Word
  /-- W8 `CITER`, ignored on write -/
  w8 : Word
  /-- W9 `SLAST` -/
  w9 : Word
  /-- W10 `BUFBYTES` -/
  w10 : Word
  /-- W11 `CSR` (R95) -/
  w11 : Word
  deriving DecidableEq, Repr

/-- One operation of the block: the seven port operations, and the three steps of the other agents that R99 gives
listing words. Channel and event numbers are natural numbers; WellFormed bounds them by the 8-bit fields of
R91, the operation itself by N_CH and N_EV. -/
inductive Instr where
  /-- `WRDESC c, image` (spec/40_descriptor_port.md R120) -/
  | wrdesc (ch : Nat) (img : Image)
  /-- `ARM c` (spec/41_trigger_router.md R142) -/
  | arm (ch : Nat)
  /-- `DISARM c` (R144) -/
  | disarm (ch : Nat)
  /-- `STATUS c` (spec/40_descriptor_port.md R132) -/
  | status (ch : Nat)
  /-- `BIND e, c` (spec/41_trigger_router.md R140) -/
  | bind (ev : Nat) (ch : Nat)
  /-- `STOP c` (R146) -/
  | stop (ch : Nat)
  /-- `RDDESC c` (spec/40_descriptor_port.md R130) -/
  | rddesc (ch : Nat)
  /-- `REQ e`: a step of the peripheral environment (spec/42_transfer_engine.md R160) -/
  | req (ev : Nat)
  /-- `SERVICE c`: a step of the engine (R162) -/
  | service (ch : Nat)
  /-- `RESET`: a step of the platform (spec/70_reset_and_hazards.md R230) -/
  | reset
  deriving DecidableEq, Repr

/-- The rows of the operation map (spec/30_encoding.md R96), without operands. -/
inductive Opcode where
  | wrdesc
  | arm
  | disarm
  | status
  | bind
  | stop
  | rddesc
  | req
  | service
  | reset
  deriving DecidableEq, Repr

/-- Where a word is read: at the port, where only the seven port operations are commands, or in a listing of the
steps of all agents (R99). -/
inductive View where
  | port
  | listing
  deriving DecidableEq, Repr

/-- The causes of a `ConfigurationError` (spec/60_exceptions.md R201), in the table's order. -/
inductive ConfigCause where
  | reserved
  | zero
  | nbytesSize
  | stride
  | offset
  | align
  | extent
  deriving DecidableEq, Repr

/-- The causes of a `PreconditionViolation` (spec/60_exceptions.md R202), in the table's order. -/
inductive PreCause where
  | badCmd
  | state
  | noDesc
  deriving DecidableEq, Repr

/-- What a port operation ends in (spec/00_scope.md R11; spec/30_encoding.md R90): `OK(data)` or one of the two
error classes with its cause. The image words of an accepted `RDDESC` follow the response (R92). -/
inductive Answer where
  | ok (data : BitVec 16)
  | configurationError (cause : ConfigCause)
  | preconditionViolation (cause : PreCause)
  deriving DecidableEq, Repr

end Sys2Proof
end

