-- ==== Sys2Proof/Machine/State.lean ====
section
/-! DEFINITION. The state of the machine as plain data: the channel register sets (spec/10_state.md R20, R21, R30),
the system data space they act on (spec/20_memory.md R60), the inputs of the other agents (spec/00_scope.md R12)
and what the block has put out; the reasons a step can stop; and the state after RESET (R42). -/

namespace Sys2Proof.Machine

/-- The channel state `st` (spec/10_state.md R30, R31). -/
inductive ChState where
  | idle
  | armed
  | active
  | done
  | error
  deriving DecidableEq, Repr

/-- Which descriptor registers hold a specified value (R42; spec/40_descriptor_port.md R131): none after RESET; all
but `saddr`, `daddr`, `citer` after an entry to Error (spec/60_exceptions.md R206); all after an accepted WRDESC. -/
inductive Contents where
  | unspecified
  | workingUnspecified
  | specified
  deriving DecidableEq, Repr

/-- The descriptor registers of one channel (R21). -/
structure Descriptor where
  /-- address of the next source element access (R22) -/
  saddr : Word
  /-- source stride, two's complement bytes (R23) -/
  soff : Word
  /-- address of the next destination element access (R25) -/
  daddr : Word
  /-- destination stride, two's complement bytes (R23) -/
  doff : Word
  /-- source element size (R24) -/
  ssize : ElemSize
  /-- destination element size (R24) -/
  dsize : ElemSize
  /-- minor-loop byte count (R26) -/
  nbytes : Word
  /-- minor-loop offset, two's complement bytes (R27) -/
  mloff : Word
  /-- initial major-loop iteration count (R28) -/
  biter : Word
  /-- current major-loop iteration count (R28) -/
  citer : Word
  /-- end-of-major-loop source adjustment, two's complement bytes (R29) -/
  slast : Word
  /-- total bytes of the bound buffers (R29) -/
  bufbytes : Word
  /-- completion of a major loop clears `enable` (R36) -/
  autoDisable : Bool
  /-- completion of a major loop emits `IrqComplete` (R36) -/
  intMajor : Bool
  /-- stored and read back; SERVICE is refused while it is 1 (R36) -/
  linkEn : Bool
  /-- the minor-loop offset is enabled (R27) -/
  mloe : Bool
  deriving DecidableEq, Repr

/-- One channel register set: the descriptor registers (R21) and the channel control state (R30). `contents` is the
model's own record of which registers are unspecified. -/
structure Channel where
  desc : Descriptor
  /-- the channel state (R31) -/
  st : ChState
  /-- requests are latched and serviced (R32) -/
  enable : Bool
  /-- the one-deep request latch (R33) -/
  pend : Bool
  /-- an accepted descriptor that has not started to run (R34) -/
  valid : Bool
  /-- the channel listens to event `ev` (R35) -/
  bound : Bool
  /-- the bound event (R35) -/
  ev : BitVec 8
  contents : Contents
  deriving DecidableEq, Repr

/-- An access of the host to the system data space (spec/20_memory.md R73). -/
inductive HostAccess where
  | store (addr : Word) (bytes : List Byte)
  | load (addr : Word) (size : Nat)
  deriving DecidableEq, Repr

/-- A host access that falls inside a SERVICE step, between two of its element accesses (R69): at least `after` element
accesses of the step come before it. -/
structure InsideAccess where
  after : Nat
  access : HostAccess
  deriving DecidableEq, Repr

/-- One event of the memory history (spec/20_memory.md R72): an element access with its channel, its index within the
SERVICE step, address, size, for a write the bytes, and whether it succeeded; an ordering event (R75, R76); or an access
of the host with its bytes, which the model records too so that the one total order of R73 is the order of the history
(log 11). -/
inductive Event where
  | read (ch idx : Nat) (addr : Word) (size : Nat) (ok : Bool)
  | write (ch idx : Nat) (addr : Word) (size : Nat) (bytes : List Byte) (ok : Bool)
  | arm (ch : Nat)
  | disarm (ch : Nat)
  | stop (ch : Nat)
  | status (ch : Nat) (st : ChState)
  | hostStore (addr : Word) (bytes : List Byte)
  | hostLoad (addr : Word) (bytes : List Byte)
  deriving DecidableEq, Repr

/-- The next move of an agent (spec/00_scope.md R12): the host presents words at the port or accesses memory, an event
fires, the engine takes a turn for a channel, with the host accesses that fall inside it, the platform resets the
block. -/
inductive Input where
  | port (words : List Word)
  | host (access : HostAccess)
  | req (ev : Nat)
  | service (ch : Nat) (inside : List InsideAccess)
  | reset
  deriving DecidableEq, Repr

/-- A host store made while channel `ch` was enabled (R79): the bytes that stood before it, which a later read of the
channel may still return. -/
structure RacingStore where
  ch : Nat
  old : List Host.Cell
  deriving DecidableEq, Repr

/-- The bytes of the system data space that differ from what an unlisted address reads as, addresses strictly rising. -/
abbrev Memory := List Host.Cell

/-- The whole state of the machine. -/
structure State where
  /-- `reg[0]` to `reg[N_CH − 1]` (R20); its length is N_CH -/
  chans : List Channel
  /-- the open parameters (spec/00_scope.md R6); no step writes them -/
  cfg : Config
  /-- the system data space (spec/20_memory.md R60) -/
  mem : Memory
  /-- host stores still racing with an enabled channel, newest first (R79) -/
  races : List RacingStore
  /-- the agents' moves to come, in the order in which they happen (R12, spec/60_exceptions.md R213) -/
  inputs : List Input
  /-- the host accesses that fall inside the SERVICE step about to run, in the host's order (spec/20_memory.md R69, R73);
  none at a step boundary -/
  inside : List InsideAccess
  /-- words of a port transaction that is not yet complete (spec/30_encoding.md R92) -/
  rx : List Word
  /-- the words the block has returned at the port, oldest first (R92, R97) -/
  portOut : List Word
  /-- the channels whose `IrqComplete` has been emitted, oldest first (spec/60_exceptions.md R210) -/
  irqs : List Nat
  /-- the memory history, oldest first (spec/20_memory.md R72) -/
  history : List Event
  /-- how many element accesses the engine has made: the model's time for `AccessFault` (R6) -/
  accesses : Nat
  /-- how many free values have been drawn (R11) -/
  draws : Nat
  deriving DecidableEq, Repr

/-- The block never stops with a fault: a failed access is a transition to Error (spec/60_exceptions.md R205, R206) and
every failed port operation is an answer (R203). No constructor, raised by nobody. -/
inductive Fault where
  deriving DecidableEq, Repr

/-- Why a step has no meaning. -/
inductive Refusal where
  /-- Raised by an arm of `exec` whose instruction has no meaning yet; no arm raises it. Safe. -/
  | notModelled (mnemonic : String)
  /-- Raised by SERVICE of a channel whose `link_en` is 1: the spec gives the step no meaning
  (spec/42_transfer_engine.md R176, "the model refuses it"). Safe. -/
  | linkEnabled (ch : Nat)
  deriving DecidableEq, Repr

/-- The descriptor registers after RESET: unspecified by R42. The values stored here are the model's (log 6); `RDDESC`
does not show them, since `Channel.reset` marks them unspecified. -/
def Descriptor.reset : Descriptor :=
  { saddr := 0, soff := 0, daddr := 0, doff := 0, ssize := .b1, dsize := .b1, nbytes := 0, mloff := 0
    biter := 0, citer := 0, slast := 0, bufbytes := 0
    autoDisable := false, intMajor := false, linkEn := false, mloe := false }

/-- A channel register set after RESET (R42); the value of `ev` is the model's (log 6). -/
def Channel.reset : Channel :=
  { desc := Descriptor.reset, st := .idle, enable := false, pend := false, valid := false, bound := false
    ev := 0, contents := .unspecified }

/-- The machine right after RESET (R42), with four channels (log 3), nothing written to memory and no input waiting. -/
def State.reset : State :=
  { chans := List.replicate 4 Channel.reset, cfg := Config.reset, mem := [], races := [], inputs := [], inside := []
    rx := [], portOut := [], irqs := [], history := [], accesses := 0, draws := 0 }

end Sys2Proof.Machine
end

