-- ==== Sys2Proof/Machine/Memory.lean ====
section
/-! DEFINITION. The system data space (spec/20_memory.md R60, R62): 2^32 bytes, every one addressable, kept as a list of
the bytes that differ from what an unlisted address reads as. Bytes are moved in ascending address order (R63). -/

namespace Sys2Proof.Machine

/-- What an address nothing has written reads as (log 7). -/
def Memory.unlisted : Byte := 0

/-- The byte at an address. -/
def Memory.read : Memory → Nat → Byte
  | [], _ => Memory.unlisted
  | (b, v) :: m, a => if b = a then v else Memory.read m a

/-- The cell list with one cell put in front, unless it holds what an unlisted address reads as. -/
def Memory.cell (a : Nat) (v : Byte) (m : Memory) : Memory := if v = Memory.unlisted then m else (a, v) :: m

/-- Writes one byte and keeps the canonical form. -/
def Memory.write : Memory → Nat → Byte → Memory
  | [], a, v => Memory.cell a v []
  | (b, w) :: m, a, v =>
    if a < b then Memory.cell a v ((b, w) :: m)
    else if a = b then Memory.cell a v m
    else (b, w) :: Memory.write m a v

/-- Every cell lies at `lo` or above, inside the address space, in strictly rising order, and differs from what an
unlisted address reads as. -/
def Memory.wfFrom : Nat → Memory → Bool
  | _, [] => true
  | lo, (a, v) :: m => decide (lo ≤ a) && decide (a < 2 ^ 32) && (v != Memory.unlisted) && Memory.wfFrom (a + 1) m

/-- The canonical form of a memory. -/
def Memory.wf (m : Memory) : Bool := Memory.wfFrom 0 m

/-- The byte addresses of an access of `n` bytes at `a`: `a +32 k` for `k` below `n` (spec/00_scope.md R10). -/
def elementAddrs (a : Word) : Nat → List Nat
  | 0 => []
  | n + 1 => a.toNat :: elementAddrs (a + 1) n

/-- The bytes of an access of `n` bytes at `a` (R10, R63). -/
def Memory.readBytes (m : Memory) (a : Word) (n : Nat) : List Byte := (elementAddrs a n).map (Memory.read m)

/-- Stores `bytes[k]` at `a +32 k` (R10, R63). -/
def Memory.writeBytes (m : Memory) (a : Word) : List Byte → Memory
  | [] => m
  | b :: bs => Memory.writeBytes (Memory.write m a.toNat b) (a + 1) bs

end Sys2Proof.Machine
end

