-- ==== Sys2Proof/WellFormed.lean ====
section
/-! DEFINITION. Which instructions have a command word: channel and event numbers fit the 8-bit fields `CH` and
`EV` of format C (spec/30_encoding.md R91, R105: "Every abstract operation with c < 256 and e < 256 has exactly
one command word"). Whether the channel or event exists is the operation's own check (R96). -/

namespace Sys2Proof

/-- The channel or event number fits its 8-bit field (R91). -/
def fitsField (n : Nat) : Bool := decide (n < 256)

/-- The instruction has a command word (R105). -/
def Instr.wf : Instr → Bool
  | .wrdesc ch _ => fitsField ch
  | .arm ch => fitsField ch
  | .disarm ch => fitsField ch
  | .status ch => fitsField ch
  | .bind ev ch => fitsField ev && fitsField ch
  | .stop ch => fitsField ch
  | .rddesc ch => fitsField ch
  | .req ev => fitsField ev
  | .service ch => fitsField ch
  | .reset => true

end Sys2Proof
end

