-- ==== Sys2Proof/Decode.lean ====
section
/-! DEFINITION. The decoder, total on any list of port words (spec/30_encoding.md R92, R96, R100, R105), and the
encoder written from the same tables (R91, R93, R99). Refusals are by name: `malformed` and `short`. -/

namespace Sys2Proof

/-- `w[hi:lo]` as a number (spec/00_scope.md R7). -/
def bits (w : Word) (hi lo : Nat) : Nat := (w.toNat / 2 ^ lo) % 2 ^ (hi - lo + 1)

/-- One row of the operation map (R96): a word `w` selects it when `w & mask = pattern`. `port` says whether it is
a port operation (`OP` 0x1 to 0x7) or a listing word only (R99). -/
structure Row where
  op : Opcode
  mask : Word
  pattern : Word
  port : Bool
  deriving DecidableEq, Repr

/-- The operation map of R96. -/
def opcodeTable : List Row :=
  [ ⟨.wrdesc,  0xFFFFFF00#32, 0x10000000#32, true⟩,
    ⟨.arm,     0xFFFFFF00#32, 0x20000000#32, true⟩,
    ⟨.disarm,  0xFFFFFF00#32, 0x30000000#32, true⟩,
    ⟨.status,  0xFFFFFF00#32, 0x40000000#32, true⟩,
    ⟨.bind,    0xFFFF0000#32, 0x50000000#32, true⟩,
    ⟨.stop,    0xFFFFFF00#32, 0x60000000#32, true⟩,
    ⟨.rddesc,  0xFFFFFF00#32, 0x70000000#32, true⟩,
    ⟨.req,     0xFFFF00FF#32, 0x80000000#32, false⟩,
    ⟨.service, 0xFFFFFF00#32, 0x90000000#32, false⟩,
    ⟨.reset,   0xFFFFFFFF#32, 0xA0000000#32, false⟩ ]

/-- The row a word selects (R96, R105). At the port the listing words are reserved (R99, R100). -/
def selectRow (v : View) (w : Word) : Option Opcode :=
  (opcodeTable.find? fun r => (v == .listing || r.port) && (w &&& r.mask) == r.pattern).map Row.op

/-- How many words a transaction that opens with `w` takes from the host: 13 for `OP = 1`, else 1, "also when the
command is malformed" (R92). -/
def transactionLength (w : Word) : Nat := if bits w 31 28 = 1 then 13 else 1

/-- The image made of the first twelve words of a payload, in index order (R92, R93). -/
def Image.ofWords (ws : List Word) : Image :=
  { w0 := ws.getD 0 0, w1 := ws.getD 1 0, w2 := ws.getD 2 0, w3 := ws.getD 3 0
    w4 := ws.getD 4 0, w5 := ws.getD 5 0, w6 := ws.getD 6 0, w7 := ws.getD 7 0
    w8 := ws.getD 8 0, w9 := ws.getD 9 0, w10 := ws.getD 10 0, w11 := ws.getD 11 0 }

/-- The twelve words of an image in index order (R93). -/
def Image.words (g : Image) : List Word :=
  [g.w0, g.w1, g.w2, g.w3, g.w4, g.w5, g.w6, g.w7, g.w8, g.w9, g.w10, g.w11]

/-- The operation of a row with the operands of its command word: `CH = w[7:0]`, `EV = w[15:8]` (R91, R105), and
for `WRDESC` the payload. -/
def instrOfRow (op : Opcode) (w : Word) (payload : List Word) : Instr :=
  match op with
  | .wrdesc => .wrdesc (bits w 7 0) (Image.ofWords payload)
  | .arm => .arm (bits w 7 0)
  | .disarm => .disarm (bits w 7 0)
  | .status => .status (bits w 7 0)
  | .bind => .bind (bits w 15 8) (bits w 7 0)
  | .stop => .stop (bits w 7 0)
  | .rddesc => .rddesc (bits w 7 0)
  | .req => .req (bits w 15 8)
  | .service => .service (bits w 7 0)
  | .reset => .reset

/-- Why no operation is read. -/
inductive DecodeError where
  /-- The transaction is not complete: more words must come (R92). -/
  | short
  /-- The command word selects no row (R100): its `OP`, and the words after the transaction, whose payload words
  are consumed and discarded. -/
  | malformed (op : Nat) (rest : List Word)
  deriving DecidableEq, Repr

/-- Reads one operation from the front of a list of words and returns it with the words after it. -/
def decode (v : View) : List Word → Except DecodeError (Instr × List Word)
  | [] => .error .short
  | w :: ws =>
    if ws.length + 1 < transactionLength w then .error .short
    else
      match selectRow v w with
      | some op => .ok (instrOfRow op w ws, ws.drop (transactionLength w - 1))
      | none => .error (.malformed (bits w 31 28) (ws.drop (transactionLength w - 1)))

/-- A format C or T word with `Z = 0` (R91, R99). -/
def commandWord (op ev ch : Nat) : Word := BitVec.ofNat 32 (op * 2 ^ 28 + ev * 2 ^ 8 + ch)

/-- The words of an instruction: its command or listing word (R91, R96, R99), and for `WRDESC` the image (R92). -/
def encode : Instr → List Word
  | .wrdesc ch img => commandWord 0x1 0 ch :: img.words
  | .arm ch => [commandWord 0x2 0 ch]
  | .disarm ch => [commandWord 0x3 0 ch]
  | .status ch => [commandWord 0x4 0 ch]
  | .bind ev ch => [commandWord 0x5 ev ch]
  | .stop ch => [commandWord 0x6 0 ch]
  | .rddesc ch => [commandWord 0x7 0 ch]
  | .req ev => [commandWord 0x8 ev 0]
  | .service ch => [commandWord 0x9 0 ch]
  | .reset => [commandWord 0xA 0 0]

/-- The 32-bit words of an instruction given as one number of `nbits` bits, bit 0 the least significant bit of the
first word; every bit above `nbits` is 0. Thirteen words, the longest transaction (R92). -/
def tableWords (nbits w : Nat) : List Word :=
  (List.range 13).map fun k => BitVec.ofNat 32 (w % 2 ^ nbits / 2 ^ (32 * k))

/-- The instruction the decoder reads from the listing word (R99) numbered as spec/opcode_table.json numbers it. -/
def decodeTableWord (nbits w : Nat) : Option Instr :=
  match decode .listing (tableWords nbits w) with
  | .ok (i, _) => some i
  | .error _ => none

end Sys2Proof
end

