-- ==== Sys2Proof/Machine/Flags.lean ====
section
/-! DEFINITION. Every status bit and status word the spec gives: the views of `st` (spec/10_state.md R37), `DATA` of
STATUS (spec/30_encoding.md R98; spec/40_descriptor_port.md R132), W11 `CSR` (R95, R130) and the response word (R97). -/

namespace Sys2Proof.Machine

/-- `b << i` in a word (R7). -/
def flagAt (b : Bool) (i : Nat) : Word := if b then BitVec.ofNat 32 (2 ^ i) else 0

/-- `code(st)` (spec/40_descriptor_port.md R132). -/
def ChState.code : ChState → Nat
  | .idle => 0
  | .armed => 1
  | .active => 2
  | .done => 3
  | .error => 4

/-- The view `active` (R37). -/
def Channel.activeView (r : Channel) : Bool := r.st == .active

/-- The view `done` (R37). -/
def Channel.doneView (r : Channel) : Bool := r.st == .done

/-- The view `error` (R37). -/
def Channel.errorView (r : Channel) : Bool := r.st == .error

/-- `DATA` of an accepted STATUS (R98, R132). -/
def Channel.statusData (r : Channel) : BitVec 16 :=
  (BitVec.ofNat 32 r.st.code ||| flagAt r.enable 4 ||| flagAt r.pend 5 ||| flagAt r.valid 6 ||| flagAt r.bound 7
    ||| (if r.bound then r.ev.setWidth 32 <<< 8 else 0)).setWidth 16

/-- The control flags of W11, bits 3:0 (R95, R130). -/
def Descriptor.controlFlags (d : Descriptor) : Word :=
  flagAt d.autoDisable 0 ||| flagAt d.intMajor 1 ||| flagAt d.linkEn 2 ||| flagAt d.mloe 3

/-- The status views of W11, bits 13:8 (R95, R130). -/
def Channel.statusViews (r : Channel) : Word :=
  flagAt r.activeView 8 ||| flagAt r.doneView 9 ||| flagAt r.errorView 10 ||| flagAt r.enable 11
    ||| flagAt r.valid 12 ||| flagAt r.pend 13

end Sys2Proof.Machine

namespace Sys2Proof

/-- `CAUSE` of a `ConfigurationError` (spec/60_exceptions.md R201). -/
def ConfigCause.code : ConfigCause → Nat
  | .reserved => 1
  | .zero => 2
  | .nbytesSize => 3
  | .stride => 4
  | .offset => 5
  | .align => 6
  | .extent => 7

/-- `CAUSE` of a `PreconditionViolation` (spec/60_exceptions.md R202). -/
def PreCause.code : PreCause → Nat
  | .badCmd => 1
  | .state => 2
  | .noDesc => 3

/-- The response word of format R: `RC` 31:28, `CAUSE` 27:20, `DATA` 15:0 (spec/30_encoding.md R97). -/
def Answer.word : Answer → Word
  | .ok data => data.setWidth 32
  | .configurationError c => BitVec.ofNat 32 (1 * 2 ^ 28 + c.code * 2 ^ 20)
  | .preconditionViolation c => BitVec.ofNat 32 (2 * 2 ^ 28 + c.code * 2 ^ 20)

end Sys2Proof
end

