-- ==== Sys2Proof/Machine/Operands.lean ====
section
/-! DEFINITION. The operand forms: element sizes (spec/30_encoding.md R94, R101), the way from an image to the
descriptor registers and back (R93 to R95; spec/40_descriptor_port.md R120, R130), and the configuration checks of
WRDESC in their fixed order (R122 to R128). -/

namespace Sys2Proof

/-- The size in bytes: `2^code` (spec/10_state.md R24). -/
def ElemSize.bytes : ElemSize → Nat
  | .b1 => 1
  | .b2 => 2
  | .b4 => 4

/-- The size code (R24). -/
def ElemSize.code : ElemSize → Nat
  | .b1 => 0
  | .b2 => 1
  | .b4 => 2

/-- The size a code stands for. Code 3 is reserved; `chkReserved` refuses it before the value here is used (R24). -/
def ElemSize.ofCode (n : Nat) : ElemSize :=
  match n with
  | 0 => .b1
  | 1 => .b2
  | _ => .b4

/-- `mult(v, e)` (spec/00_scope.md R8). -/
def mult (v : Word) (e : Nat) : Bool := v.toNat % e == 0

/-- `SSIZE`, W4[1:0] (R94). -/
def Image.ssizeCode (g : Image) : Nat := bits g.w4 1 0

/-- `DSIZE`, W4[9:8] (R94). -/
def Image.dsizeCode (g : Image) : Nat := bits g.w4 9 8

/-- `es = 2^W4[1:0]` (R120). -/
def Image.es (g : Image) : Nat := 2 ^ g.ssizeCode

/-- `ed = 2^W4[9:8]` (R120). -/
def Image.ed (g : Image) : Nat := 2 ^ g.dsizeCode

/-- `chk_reserved` (spec/40_descriptor_port.md R123). -/
def Image.chkReserved (g : Image) : Bool :=
  bits g.w4 7 2 == 0 && bits g.w4 31 10 == 0 && g.ssizeCode != 3 && g.dsizeCode != 3
    && bits g.w11 7 4 == 0 && bits g.w11 31 16 == 0

/-- `chk_zero` (R124). -/
def Image.chkZero (g : Image) : Bool := g.w5 != 0 && g.w7 != 0

/-- `chk_nbytes` (R124). -/
def Image.chkNbytes (g : Image) : Bool := mult g.w5 g.es && mult g.w5 g.ed

/-- `chk_stride` (R125). -/
def Image.chkStride (g : Image) : Bool := mult g.w1 g.es && mult g.w3 g.ed

/-- `chk_offset` (R126). -/
def Image.chkOffset (g : Image) : Bool := mult g.w9 g.es && (bits g.w11 3 3 == 0 || mult g.w6 g.es)

/-- `chk_align` (R127). -/
def Image.chkAlign (g : Image) : Bool := mult g.w0 g.es && mult g.w2 g.ed

/-- `chk_extent` (R128): the product is taken in the unbounded naturals. -/
def Image.chkExtent (g : Image) : Bool := g.w5.toNat * g.w7.toNat == g.w10.toNat

/-- The first configuration check that fails, in the order of R120, R122. -/
def Image.firstError (g : Image) : Option ConfigCause :=
  if !g.chkReserved then some .reserved
  else if !g.chkZero then some .zero
  else if !g.chkNbytes then some .nbytesSize
  else if !g.chkStride then some .stride
  else if !g.chkOffset then some .offset
  else if !g.chkAlign then some .align
  else if !g.chkExtent then some .extent
  else none

end Sys2Proof

namespace Sys2Proof.Machine

/-- The descriptor registers an accepted WRDESC writes (R120): W8 and W11[15:8] are ignored, `citer` is loaded from W7. -/
def Descriptor.ofImage (g : Image) : Descriptor :=
  { saddr := g.w0, soff := g.w1, daddr := g.w2, doff := g.w3
    ssize := ElemSize.ofCode g.ssizeCode, dsize := ElemSize.ofCode g.dsizeCode
    nbytes := g.w5, mloff := g.w6, biter := g.w7, citer := g.w7, slast := g.w9, bufbytes := g.w10
    autoDisable := bits g.w11 0 0 == 1, intMajor := bits g.w11 1 1 == 1
    linkEn := bits g.w11 2 2 == 1, mloe := bits g.w11 3 3 == 1 }

/-- W4 as RDDESC shows it (R130). -/
def Descriptor.attrWord (d : Descriptor) : Word := BitVec.ofNat 32 (d.dsize.code * 2 ^ 8 + d.ssize.code)

/-- The image of a channel all of whose registers are specified (R130). -/
def Channel.image (r : Channel) : Image :=
  { w0 := r.desc.saddr, w1 := r.desc.soff, w2 := r.desc.daddr, w3 := r.desc.doff, w4 := r.desc.attrWord
    w5 := r.desc.nbytes, w6 := r.desc.mloff, w7 := r.desc.biter, w8 := r.desc.citer, w9 := r.desc.slast
    w10 := r.desc.bufbytes, w11 := r.desc.controlFlags ||| r.statusViews }

/-- The image RDDESC returns (R130, R131): a register that holds no specified value shows a draw, those of one read at
the draws `d` to `d + 11`; reserved bits read 0 and the views are always specified. -/
def Channel.shownImage (r : Channel) (d : Nat) : Image :=
  match r.contents with
  | .specified => r.image
  | .workingUnspecified =>
    { r.image with w0 := Config.freeWord d, w2 := Config.freeWord (d + 2), w8 := Config.freeWord (d + 8) }
  | .unspecified =>
    { w0 := Config.freeWord d, w1 := Config.freeWord (d + 1), w2 := Config.freeWord (d + 2)
      w3 := Config.freeWord (d + 3), w4 := Config.freeWord (d + 4) &&& 0x00000303#32, w5 := Config.freeWord (d + 5)
      w6 := Config.freeWord (d + 6), w7 := Config.freeWord (d + 7), w8 := Config.freeWord (d + 8)
      w9 := Config.freeWord (d + 9), w10 := Config.freeWord (d + 10)
      w11 := (Config.freeWord (d + 11) &&& 0x0000000F#32) ||| r.statusViews }

/-- How many draws such a read takes: none when every register is specified. -/
def Channel.shownDraws (r : Channel) : Nat := if r.contents = .specified then 0 else 12

end Sys2Proof.Machine
end

