-- ==== Sys2Proof/Machine/Ops.lean ====
section
/-! DEFINITION. The named operations over the state: channel register sets, answers at the port and the one way a port
operation raises an error (spec/60_exceptions.md R203, R204), element accesses (spec/00_scope.md R10;
spec/20_memory.md R72, R73, R79), host accesses (R69), and the entry to Error and the way back (R206, R208). -/

namespace Sys2Proof.Machine

/-- `reg[c]`, if the block has channel `c` (spec/10_state.md R20). -/
def State.chan? (s : State) (c : Nat) : Option Channel := s.chans[c]?

/-- `reg[c] <- r`. -/
def State.setChan (s : State) (c : Nat) (r : Channel) : State := { s with chans := s.chans.set c r }

/-- The block returns words at the port (spec/30_encoding.md R92). -/
def State.putWords (s : State) (ws : List Word) : State := { s with portOut := s.portOut ++ ws }

/-- The response word of a port operation (R97). -/
def State.answer (s : State) (a : Answer) : State := s.putWords [a.word]

/-- An event of the memory history (spec/20_memory.md R72). -/
def State.record (s : State) (e : Event) : State := { s with history := s.history ++ [e] }

/-- The next draws are those after the first `n` (spec/00_scope.md R11). -/
def State.drew (s : State) (n : Nat) : State := { s with draws := s.draws + n }

/-- `emit IrqComplete(c)` (spec/60_exceptions.md R210). -/
def State.emitIrq (s : State) (c : Nat) : State := { s with irqs := s.irqs ++ [c] }

/-- A port operation raises an error: the response word is the only trace (spec/60_exceptions.md R203). -/
def raise (a : Answer) (s : State) : Host.Outcome State Fault Refusal := .next (s.answer a)

/-- The range check that opens every port operation (R204 step 1), then the operation on `reg[c]`. -/
def onChannel (c : Nat) (s : State) (op : Channel → Host.Outcome State Fault Refusal) :
    Host.Outcome State Fault Refusal :=
  match s.chan? c with
  | none => raise (.preconditionViolation .badCmd) s
  | some r => op r

/-- Whether a clause of the fault predicate covers access number `t`. -/
def FaultRule.covers (f : FaultRule) (t : Nat) (a : Word) (n : Nat) (k : AccessKind) : Bool :=
  decide (f.since ≤ t) && (f.till.all fun u => decide (t ≤ u)) && decide (f.lo ≤ a.toNat) && decide (a.toNat ≤ f.hi)
    && (f.size.all fun m => m == n) && (f.kind.all fun j => j == k)

/-- `AccessFault(addr, n, kind)` for access number `t` (spec/00_scope.md R6, R10). -/
def faultAt (cfg : Config) (t : Nat) (a : Word) (n : Nat) (k : AccessKind) : Bool :=
  cfg.faults.any fun f => FaultRule.covers f t a n k

/-- `AccessFault(addr, n, kind)` at this moment (R10). -/
def State.accessFault (s : State) (a : Word) (n : Nat) (k : AccessKind) : Bool := faultAt s.cfg s.accesses a n k

/-- The store wrote a byte among the addresses. -/
def RacingStore.touches (r : RacingStore) (as : List Nat) : Bool := as.any fun a => (r.old.lookup a).isSome

/-- The byte at an address as it stood before the stores of a list, newest first, where it is `v` now. -/
def byteBefore (rs : List RacingStore) (a : Nat) (v : Byte) : Byte := rs.foldl (fun b r => (r.old.lookup a).getD b) v

/-- The stores that race with channel `c`'s read of `n` bytes at `a`, newest first (spec/20_memory.md R79). -/
def State.racing (s : State) (c : Nat) (a : Word) (n : Nat) : List RacingStore :=
  s.races.filter fun r => r.ch == c && r.touches (elementAddrs a n)

/-- The bytes an element read of channel `c` returns. With no racing store they are memory's (R73); with racing stores
they are memory's as it stands or as it stood before the newest `k` of them, `k` a draw: old or new, element by
element (R79, R69). -/
def State.readElement (s : State) (c : Nat) (a : Word) (n : Nat) : List Byte :=
  match s.racing c a n with
  | [] => s.mem.readBytes a n
  | r :: rs =>
    (elementAddrs a n).map fun x =>
      byteBefore ((r :: rs).take (Config.freeNat s.draws % (rs.length + 2))) x (s.mem.read x)

/-- How many draws such a read takes. -/
def State.readDraws (s : State) (c : Nat) (a : Word) (n : Nat) : Nat := if s.racing c a n = [] then 0 else 1

/-- The engine has made an access: it is counted and is an event of the history (R72). -/
def State.accessed (s : State) (e : Event) : State := { s.record e with accesses := s.accesses + 1 }

/-- The numbers of the channels with a property, in rising order; the first of the list has number `k`. -/
def channelsFrom (p : Channel → Bool) : Nat → List Channel → List Nat
  | _, [] => []
  | k, r :: rs => if p r then k :: channelsFrom p (k + 1) rs else channelsFrom p (k + 1) rs

/-- The bytes of a host store are in memory, and toward every channel that is enabled at that moment the store is a race
(spec/20_memory.md R79), whichever channel reads the bytes later. -/
def State.hostStore (s : State) (a : Word) (bs : List Byte) : State :=
  let old := (elementAddrs a bs.length).map fun x => (x, s.mem.read x)
  { s with
    mem := s.mem.writeBytes a bs
    races := (channelsFrom (fun r => r.enable) 0 s.chans).map (fun c => RacingStore.mk c old) ++ s.races
    history := s.history ++ [.hostStore a bs] }

/-- An access of the host takes effect at one instant (R73); a load returns the bytes that stand in memory. -/
def State.hostAccess (s : State) : HostAccess → State
  | .store a bs => s.hostStore a bs
  | .load a n => s.record (.hostLoad a (s.mem.readBytes a n))

/-- The host accesses of a list take effect in order, up to the first that is not due; that one and those after it go on
waiting inside the step. -/
def landInside (due : InsideAccess → Bool) : List InsideAccess → State → State
  | [], s => { s with inside := [] }
  | x :: xs, s => if due x then landInside due xs (s.hostAccess x.access) else { s with inside := x :: xs }

/-- What the host does inside the SERVICE step before element access `i` of it (R69). -/
def State.hostBefore (s : State) (i : Nat) : State := landInside (fun x => decide (x.after ≤ i)) s.inside s

/-- What the host does inside the SERVICE step after its last element access. -/
def State.hostRest (s : State) : State := landInside (fun _ => true) s.inside s

/-- An element read of channel `c`, access `i` of its step, at its instant: the bytes, or `none` for `fault`. -/
def State.readNow (s : State) (c i : Nat) (a : Word) (n : Nat) : State × Option (List Byte) :=
  if s.accessFault a n .read then (s.accessed (.read c i a n false), none)
  else ((s.drew (s.readDraws c a n)).accessed (.read c i a n true), some (s.readElement c a n))

/-- `MemRead(a, n)` of channel `c`, access `i` of its step (spec/00_scope.md R10), after the host accesses that fall before
it. -/
def State.memRead (s : State) (c i : Nat) (a : Word) (n : Nat) : State × Option (List Byte) :=
  (s.hostBefore i).readNow c i a n

/-- A byte the engine has overwritten can no longer return to what stood before a host store (R73). -/
def RacingStore.forget (as : List Nat) (r : RacingStore) : RacingStore :=
  { r with old := r.old.filter fun cell => !as.contains cell.1 }

/-- The engine's bytes land in memory. -/
def State.engineStore (s : State) (a : Word) (bs : List Byte) : State :=
  { s with mem := s.mem.writeBytes a bs, races := s.races.map (RacingStore.forget (elementAddrs a bs.length)) }

/-- An element write of channel `c`, access `i` of its step, at its instant: the state, and whether it is `ok`. -/
def State.writeNow (s : State) (c i : Nat) (a : Word) (n : Nat) (bs : List Byte) : State × Bool :=
  if s.accessFault a n .write then (s.accessed (.write c i a n bs false), false)
  else ((s.engineStore a bs).accessed (.write c i a n bs true), true)

/-- `MemWrite(a, n, bytes)` of channel `c`, access `i` of its step (R10), after the host accesses that fall before it. -/
def State.memWrite (s : State) (c i : Nat) (a : Word) (n : Nat) (bs : List Byte) : State × Bool :=
  (s.hostBefore i).writeNow c i a n bs

/-- `ARM(c)` publishes: no earlier host store races with channel `c` any more (R75). -/
def State.publish (s : State) (c : Nat) : State := { s with races := s.races.filter fun r => r.ch != c }

/-- The register set of a channel that enters Error (spec/60_exceptions.md R206): `saddr`, `daddr` and `citer` take the
draws `d`, `d + 1`, `d + 2` and are unspecified until the next accepted WRDESC. -/
def Channel.failed (r : Channel) (d : Nat) : Channel :=
  { r with
    desc := { r.desc with saddr := Config.freeWord d, daddr := Config.freeWord (d + 1), citer := Config.freeWord (d + 2) }
    st := .error, enable := false, pend := false, valid := false, contents := .workingUnspecified }

/-- `enter Error(c)` (R206), where `r` is `reg[c]`: nothing is recorded about the fault and no interrupt is emitted. -/
def State.enterError (s : State) (c : Nat) (r : Channel) : State := (s.setChan c (r.failed s.draws)).drew 3

/-- The register set of a channel that goes back to Idle by DISARM (spec/41_trigger_router.md R144), the way out of Error
among others (spec/60_exceptions.md R208). -/
def Channel.disarmed (r : Channel) : Channel := { r with st := .idle, enable := false, pend := false }

/-- The register set of a channel that goes back to Idle by STOP (R146). -/
def Channel.stopped (r : Channel) : Channel := { r with st := .idle, enable := false, pend := false, valid := false }

/-- The register set of a channel after a RESET that comes when `d` values have been drawn (spec/10_state.md R42): what
the rule leaves unspecified takes the draws `d` to `d + 16`. -/
def Channel.afterReset (d : Nat) : Channel :=
  { desc :=
      { saddr := Config.freeWord d, soff := Config.freeWord (d + 1), daddr := Config.freeWord (d + 2)
        doff := Config.freeWord (d + 3), nbytes := Config.freeWord (d + 4), mloff := Config.freeWord (d + 5)
        biter := Config.freeWord (d + 6), citer := Config.freeWord (d + 7), slast := Config.freeWord (d + 8)
        bufbytes := Config.freeWord (d + 9), ssize := Config.freeSize (d + 10), dsize := Config.freeSize (d + 11)
        autoDisable := Config.freeFlag (d + 12), intMajor := Config.freeFlag (d + 13)
        linkEn := Config.freeFlag (d + 14), mloe := Config.freeFlag (d + 15) }
    st := .idle, enable := false, pend := false, valid := false, bound := false
    ev := (Config.freeWord (d + 16)).setWidth 8, contents := .unspecified }

/-- Every register set after a RESET, the first one from draw `d` on. -/
def resetChans : Nat → List Channel → List Channel
  | _, [] => []
  | d, _ :: rs => Channel.afterReset d :: resetChans (d + 17) rs

end Sys2Proof.Machine
end

