-- ==== Sys2Proof/Machine/DescriptorPort.lean ====
section
/-! DEFINITION. The descriptor port operations WRDESC, RDDESC and STATUS (spec/40_descriptor_port.md). -/

namespace Sys2Proof.Machine

/-- The register set after an accepted WRDESC (R120): all sixteen descriptor registers and `valid`. -/
def Channel.programmed (r : Channel) (g : Image) : Channel :=
  { r with desc := Descriptor.ofImage g, valid := true, contents := .specified }

/-- `WRDESC(c, img)` (R120): the state check (R121), the configuration checks in order (R122), the registers. -/
def execWrdesc (ch : Nat) (img : Image) (s : State) : Host.Outcome State Fault Refusal :=
  onChannel ch s fun r =>
    if r.st ≠ .idle then raise (.preconditionViolation .state) s
    else
      match img.firstError with
      | some e => raise (.configurationError e) s
      | none => .next ((s.setChan ch (r.programmed img)).answer (.ok 0))

/-- `RDDESC(c)` (R130, R131): the response word, then the twelve image words. -/
def execRddesc (ch : Nat) (s : State) : Host.Outcome State Fault Refusal :=
  onChannel ch s fun r =>
    .next (((s.answer (.ok 0)).putWords (r.shownImage s.draws).words).drew r.shownDraws)

/-- A STATUS that returns Done or Idle is an ordering event of the memory history (spec/20_memory.md R72). -/
def State.recordStatus (s : State) (ch : Nat) (st : ChState) : State :=
  if st = .done ∨ st = .idle then s.record (.status ch st) else s

/-- `STATUS(c)` (R132). -/
def execStatus (ch : Nat) (s : State) : Host.Outcome State Fault Refusal :=
  onChannel ch s fun r => .next ((s.recordStatus ch r.st).answer (.ok r.statusData))

end Sys2Proof.Machine
end

