-- ==== Sys2Proof/Machine/Platform.lean ====
section
/-! DEFINITION. The step RESET of the platform (spec/70_reset_and_hazards.md R230). -/

namespace Sys2Proof.Machine

/-- `RESET` (R230): every register set takes the values of spec/10_state.md R42. Memory and everything the block has put
out stay as they are. `State.nextTurn` runs it between steps and between transactions only. -/
def execReset (s : State) : Host.Outcome State Fault Refusal :=
  .next ({ s with chans := resetChans s.draws s.chans }.drew (17 * s.chans.length))

end Sys2Proof.Machine
end

