-- ==== Sys2Proof/Machine/TransferEngine.lean ====
section
/-! DEFINITION. The steps REQ and SERVICE (spec/42_transfer_engine.md): the request latch, the stride-address
generator, the loop counters and the end-of-major-loop restoration. -/

namespace Sys2Proof.Machine

/-- The request reaches this channel: it is bound to the event and enabled (R160). -/
def Channel.hears (r : Channel) (ev : Nat) : Bool := r.bound && (r.ev.toNat == ev) && r.enable

/-- `REQ(e)` (R160, R161): every channel it reaches latches it. -/
def execReq (ev : Nat) (s : State) : Host.Outcome State Fault Refusal :=
  .next { s with chans := s.chans.map fun r => if r.hears ev then { r with pend := true } else r }

/-- What an iteration carries between its accesses (R162): the state, the source and destination addresses, the byte
queue, and the index of the next access within the step. -/
structure Transfer where
  s : State
  src : Word
  dst : Word
  queue : List Byte
  idx : Nat
  deriving DecidableEq, Repr

/-- An access of the iteration went through, or it failed and left this state. -/
inductive Moved where
  | ok (x : Transfer)
  | failed (s : State)
  deriving DecidableEq, Repr

/-- What follows an access that went through. -/
def Moved.andThen (m : Moved) (k : Transfer → Moved) : Moved :=
  match m with
  | .ok x => k x
  | .failed s => .failed s

/-- One source read (R166): the bytes join the queue and `soff` is added. -/
def readSource (c : Nat) (d : Descriptor) (x : Transfer) : Moved :=
  match x.s.memRead c x.idx x.src d.ssize.bytes with
  | (s, none) => .failed s
  | (s, some bs) => .ok { s := s, src := x.src + d.soff, dst := x.dst, queue := x.queue ++ bs, idx := x.idx + 1 }

/-- One destination write (R167) of the first `ed` bytes of the queue; `doff` is added. -/
def writeDest (c : Nat) (d : Descriptor) (x : Transfer) : Moved :=
  match x.s.memWrite c x.idx x.dst d.dsize.bytes (x.queue.take d.dsize.bytes) with
  | (s, false) => .failed s
  | (s, true) =>
    .ok { s := s, src := x.src, dst := x.dst + d.doff, queue := x.queue.drop d.dsize.bytes, idx := x.idx + 1 }

/-- Reads until the queue holds `ed` bytes (R165). Every read brings at least one byte, so `ed` rounds are enough. -/
def fillQueue (c : Nat) (d : Descriptor) : Nat → Transfer → Moved
  | 0, x => .ok x
  | k + 1, x => if d.dsize.bytes ≤ x.queue.length then .ok x else (readSource c d x).andThen (fillQueue c d k)

/-- The number of writes still to make, each after the reads it needs (R162, R165). -/
def moveElements (c : Nat) (d : Descriptor) : Nat → Transfer → Moved
  | 0, x => .ok x
  | k + 1, x => ((fillQueue c d d.dsize.bytes x).andThen (writeDest c d)).andThen (moveElements c d k)

/-- `nd = nbytes div ed` (R164). -/
def Descriptor.writes (d : Descriptor) : Nat := d.nbytes.toNat / d.dsize.bytes

/-- All accesses of one iteration. -/
def moveMinorLoop (c : Nat) (d : Descriptor) (s : State) : Moved :=
  moveElements c d d.writes { s := s, src := d.saddr, dst := d.daddr, queue := [], idx := 0 }

/-- This iteration is the last of the major loop (R162, R171). -/
def Descriptor.lastIteration (d : Descriptor) : Bool := d.citer == 1

/-- The minor-loop offset is applied after this iteration (R170). -/
def Descriptor.offsetDue (d : Descriptor) (cfg : Config) : Bool := d.mloe && (!d.lastIteration || cfg.mloffOnLast)

/-- The source address after the iteration's accesses left it at `src`: minor-loop offset (R170), then on the last
iteration the end-of-major-loop adjustment (R172). -/
def Descriptor.nextSaddr (d : Descriptor) (cfg : Config) (src : Word) : Word :=
  (src + (if d.offsetDue cfg then d.mloff else 0)) + (if d.lastIteration then d.slast else 0)

/-- The current count after the iteration: one less (R171), reloaded on the last one (R172). -/
def Descriptor.nextCiter (d : Descriptor) : Word := if d.lastIteration then d.biter else d.citer - 1

/-- The register set after an iteration whose accesses all went through and left the addresses at `src` and `dst`
(R162, R169 to R173). -/
def Channel.iterated (r : Channel) (cfg : Config) (src dst : Word) : Channel :=
  { r with
    desc := { r.desc with saddr := r.desc.nextSaddr cfg src, daddr := dst, citer := r.desc.nextCiter }
    st := if r.desc.lastIteration then .done else .active
    enable := if r.desc.lastIteration then !r.desc.autoDisable else r.enable
    pend := false, valid := false }

/-- The step emits `IrqComplete(c)` (R174). -/
def Descriptor.completes (d : Descriptor) : Bool := d.lastIteration && d.intMajor

/-- One minor-loop iteration of channel `c` whose register set is `r` (R162): its accesses, then either the register
writes or the entry to Error (R175). -/
def iterate (c : Nat) (r : Channel) (s : State) : State :=
  match moveMinorLoop c r.desc s with
  | .failed t => t.enterError c r
  | .ok x =>
    let t := x.s.setChan c (r.iterated s.cfg x.src x.dst)
    if r.desc.completes then t.emitIrq c else t

/-- `SERVICE(c)` (R162), with what the host does inside the step after its last access (spec/20_memory.md R69). With no
latched request the engine has no step for the channel and nothing of the block changes (R163; log 8); with `link_en = 1`
the step has no meaning and is refused (R176). -/
def execService (ch : Nat) (s : State) : Host.Outcome State Fault Refusal :=
  match s.chan? ch with
  | none => .next s.hostRest
  | some r =>
    if r.pend = false then .next s.hostRest
    else if r.desc.linkEn then .refused (.linkEnabled ch)
    else .next (iterate ch r s).hostRest

end Sys2Proof.Machine
end

