-- ==== Sys2Proof/Machine/TriggerRouter.lean ====
section
/-! DEFINITION. The request gating operations BIND, ARM, DISARM and STOP (spec/41_trigger_router.md). -/

namespace Sys2Proof.Machine

/-- `BIND(e, c)` (R140). -/
def execBind (ev ch : Nat) (s : State) : Host.Outcome State Fault Refusal :=
  onChannel ch s fun r =>
    if s.cfg.nEv ≤ ev then raise (.preconditionViolation .badCmd) s
    else if r.st ≠ .idle then raise (.preconditionViolation .state) s
    else .next ((s.setChan ch { r with bound := true, ev := BitVec.ofNat 8 ev }).answer (.ok 0))

/-- `ARM(c)` (R142, R143), which publishes the host's earlier stores (spec/20_memory.md R75). -/
def execArm (ch : Nat) (s : State) : Host.Outcome State Fault Refusal :=
  onChannel ch s fun r =>
    if r.st ≠ .idle then raise (.preconditionViolation .state) s
    else if r.valid = false then raise (.preconditionViolation .noDesc) s
    else
      .next ((((s.setChan ch { r with st := .armed, enable := true }).publish ch).record (.arm ch)).answer (.ok 0))

/-- `DISARM(c)` (R144, R145). -/
def execDisarm (ch : Nat) (s : State) : Host.Outcome State Fault Refusal :=
  onChannel ch s fun r =>
    if r.st = .active then raise (.preconditionViolation .state) s
    else .next (((s.setChan ch r.disarmed).record (.disarm ch)).answer (.ok 0))

/-- `STOP(c)` (R146), legal in every state. -/
def execStop (ch : Nat) (s : State) : Host.Outcome State Fault Refusal :=
  onChannel ch s fun r => .next (((s.setChan ch r.stopped).record (.stop ch)).answer (.ok 0))

end Sys2Proof.Machine
end

