-- ==== Sys2Proof/Machine/Dispatch.lean ====
section
/-! DEFINITION. The dispatch: one arm per constructor of Instr, each a direct call of its meaning. -/

namespace Sys2Proof.Machine

def exec (i : Instr) (s : State) : Host.Outcome State Fault Refusal :=
  match i with
  | .wrdesc ch img => Sys2Proof.Machine.execWrdesc ch img s
  | .arm ch => Sys2Proof.Machine.execArm ch s
  | .disarm ch => Sys2Proof.Machine.execDisarm ch s
  | .status ch => Sys2Proof.Machine.execStatus ch s
  | .bind ev ch => Sys2Proof.Machine.execBind ev ch s
  | .stop ch => Sys2Proof.Machine.execStop ch s
  | .rddesc ch => Sys2Proof.Machine.execRddesc ch s
  | .req ev => Sys2Proof.Machine.execReq ev s
  | .service ch => Sys2Proof.Machine.execService ch s
  | .reset => Sys2Proof.Machine.execReset s

end Sys2Proof.Machine
end

