-- ==== Sys2Proof/Machine/Fetch.lean ====
section
/-! DEFINITION. What happens next (spec/00_scope.md R12; spec/60_exceptions.md R213): the next move of the inputs, with
the port's transactions gathered until they are complete (spec/30_encoding.md R92), and, when no input is
ready, the engine's own turn. -/

namespace Sys2Proof.Machine

/-- The next thing to happen, with the state from which it happens. -/
inductive Turn where
  /-- an operation of some agent -/
  | run (i : Instr) (s : State)
  /-- a malformed command at the port (R100) -/
  | malformed (s : State)
  /-- an access of the host to memory -/
  | host (x : HostAccess) (s : State)
  /-- the port waits for the rest of a transaction (R92) -/
  | waiting (s : State)
  /-- no input is ready -/
  | quiet

/-- The host's words that a transaction did not take stay in front. -/
def putBack (left : List Word) (rest : List Input) : List Input :=
  match left with
  | [] => rest
  | w :: ws => .port (w :: ws) :: rest

/-- The move is a RESET of the platform. -/
def Input.isReset : Input → Bool
  | .reset => true
  | .port _ => false
  | .host _ => false
  | .req _ => false
  | .service _ _ => false

/-- The RESETs that wait: RESET falls "never inside … a port transaction" (spec/70_reset_and_hazards.md R230), so while one
is half received a RESET stays in front of the moves until it is complete (log 13). -/
def State.heldResets (s : State) : List Input := if s.rx = [] then [] else s.inputs.takeWhile Input.isReset

/-- The moves of which the first may happen now. -/
def State.readyMoves (s : State) : List Input := if s.rx = [] then s.inputs else s.inputs.dropWhile Input.isReset

/-- The next turn. -/
def State.nextTurn (s : State) : Turn :=
  match s.readyMoves with
  | [] => .quiet
  | .port ws :: rest =>
    match decode .port (s.rx ++ ws) with
    | .ok (i, left) => .run i { s with rx := [], inputs := s.heldResets ++ putBack left rest }
    | .error (.malformed _ left) => .malformed { s with rx := [], inputs := s.heldResets ++ putBack left rest }
    | .error .short => .waiting { s with rx := s.rx ++ ws, inputs := s.heldResets ++ rest }
  | .host x :: rest => .host x { s with inputs := s.heldResets ++ rest }
  | .req e :: rest => .run (.req e) { s with inputs := s.heldResets ++ rest }
  | .service c xs :: rest => .run (.service c) { s with inputs := s.heldResets ++ rest, inside := s.inside ++ xs }
  | .reset :: rest => .run .reset { s with inputs := rest }

/-- The channels with a latched request, in rising order (spec/42_transfer_engine.md R163). -/
def State.pending (s : State) : List Nat := channelsFrom (fun r => r.pend) 0 s.chans

/-- The engine's own turn: a channel with a latched request, if there is one. Which of several it is, is a draw (R213). -/
def State.engineTurn (s : State) : Option (Nat × State) :=
  match s.pending with
  | [] => none
  | [c] => some (c, s)
  | c :: cs => some ((c :: cs).getD (Config.freeNat s.draws % (cs.length + 1)) c, s.drew 1)

/-- The move a listed operation stands for (spec/30_encoding.md R99), `ws` being its words. -/
def Input.ofListed (i : Option Instr) (ws : List Word) : Input :=
  match i with
  | some (.req e) => .req e
  | some (.service c) => .service c []
  | some .reset => .reset
  | _ => .port ws

/-- The moves of a listing (R99), read word by word: `need` words of the transaction `got` are still to come. A word with
an `OP` of the listing alone that selects no row is a reserved command shown at the port. -/
def listingMoves : Nat → List Word → List Word → List Input
  | _, [], [] => []
  | _, got, [] => [.port got]
  | 0, _, w :: ws =>
    if transactionLength w = 1 then
      Input.ofListed ((selectRow .listing w).map fun op => instrOfRow op w []) [w] :: listingMoves 0 [] ws
    else listingMoves (transactionLength w - 1) [w] ws
  | k + 1, got, w :: ws =>
    if k = 0 then .port (got ++ [w]) :: listingMoves 0 [] ws else listingMoves k (got ++ [w]) ws

/-- The moves of a listing's words. -/
def Input.ofListing (ws : List Word) : List Input := listingMoves 0 [] ws

end Sys2Proof.Machine
end

