-- ==== Sys2Proof/Machine/Step.lean ====
section
/-! DEFINITION. One step of the machine, and the placing of one instruction as the next step. -/

namespace Sys2Proof.Machine

/-- One step (spec/00_scope.md R12): the next move of an agent. With no input ready the engine takes its own turn for a
channel that has a latched request, and with none pending nothing happens. -/
def step (s : State) : Host.Outcome State Fault Refusal :=
  match s.nextTurn with
  | .run i t => exec i t
  | .malformed t => raise (.preconditionViolation .badCmd) t
  | .host x t => .next (t.hostAccess x)
  | .waiting t => .next t
  | .quiet =>
    match s.engineTurn with
    | some (c, t) => exec (.service c) t
    | none => .next s

/-- The state with an instruction, given by its words as spec/opcode_table.json numbers their bits, as the next move: a
port operation as words the host presents, with no transaction half received, a listing word as the move it stands for
(log 9). -/
def State.withFetchWord (s : State) (nbits w : Nat) : State :=
  let ws := tableWords nbits w
  let own := ws.take (transactionLength (ws.getD 0 0))
  { s with rx := [], inputs := Input.ofListed (decodeTableWord nbits w) own :: s.inputs }

end Sys2Proof.Machine
end

