-- ==== Sys2Proof/Machine/Derivation.lean ====
section
/-! DEFINITION. The pure functions over descriptor values of spec/43_descriptor_derivation.md: none is a step of the
block and none reads the state. -/

namespace Sys2Proof.Machine

/-- `ns = nbytes div es`, the source reads of one iteration (spec/42_transfer_engine.md R164). -/
def Descriptor.reads (d : Descriptor) : Nat := d.nbytes.toNat / d.ssize.bytes

/-- How often the minor-loop offset is applied in a major loop: the `k` of R190. -/
def Descriptor.offsetCount (d : Descriptor) (mloffOnLast : Bool) : Nat :=
  if d.mloe then (if mloffOnLast then d.biter.toNat else d.biter.toNat - 1) else 0

/-- `NetDisplacement(d)` (R190): what a major loop adds to `saddr` before `slast`. -/
def Descriptor.netDisplacement (d : Descriptor) (mloffOnLast : Bool) : Word :=
  BitVec.ofNat 32 (d.biter.toNat * d.reads * d.soff.toNat + d.offsetCount mloffOnLast * d.mloff.toNat)

/-- `RestoreAdjust(d)` (R191). -/
def Descriptor.restoreAdjust (d : Descriptor) (mloffOnLast : Bool) : Word := - d.netDisplacement mloffOnLast

/-- `frameGeometry` and `bufferLayout` of `deriveDescriptor` (R194, R196): `count` buffers of `words` elements of `size`
bytes, the first at `base`, `pitch` bytes apart, feeding the address `fifo`. -/
structure Layout where
  count : Nat
  size : ElemSize
  base : Word
  pitch : Nat
  words : Nat
  fifo : Word
  deriving DecidableEq, Repr

/-- `deriveDescriptor` for the channel-multiplex layout: the table of R194. The control flags the table does not name are
0. -/
def deriveDescriptor (mloffOnLast : Bool) (y : Layout) : Descriptor :=
  { saddr := y.base, soff := BitVec.ofNat 32 y.pitch, ssize := y.size, dsize := y.size, daddr := y.fifo, doff := 0
    nbytes := BitVec.ofNat 32 (y.count * y.size.bytes), mloe := true
    mloff := BitVec.ofInt 32 ((y.size.bytes : Int) - y.count * y.pitch)
    biter := BitVec.ofNat 32 y.words, citer := BitVec.ofNat 32 y.words
    bufbytes := BitVec.ofNat 32 (y.count * y.words * y.size.bytes)
    slast :=
      if mloffOnLast then BitVec.ofInt 32 (-((y.words : Int) * y.size.bytes))
      else BitVec.ofInt 32 (-((y.count : Int) * y.pitch + ((y.words : Int) - 1) * y.size.bytes))
    autoDisable := false, intMajor := false, linkEn := false }

end Sys2Proof.Machine
end

