-- ==== Sys2Proof/Safety.lean ====
section
/-! DEFINITION. What counts as a safe state, in the terms the statements use: the invariants of spec/10_state.md R41, the
canonical form of memory, and the vocabulary of the frames. -/

namespace Sys2Proof.Machine

/-- The descriptor registers satisfy every check of spec/40_descriptor_port.md R123 to R127 with the present `saddr` and
`daddr` (R41 clause 7). A reserved bit or size code 3 cannot be held. -/
abbrev Descriptor.Checked (d : Descriptor) : Prop :=
  d.nbytes ≠ 0 ∧ d.biter ≠ 0
    ∧ d.ssize.bytes ∣ d.nbytes.toNat ∧ d.dsize.bytes ∣ d.nbytes.toNat
    ∧ d.ssize.bytes ∣ d.soff.toNat ∧ d.dsize.bytes ∣ d.doff.toNat
    ∧ d.ssize.bytes ∣ d.slast.toNat ∧ (d.mloe = true → d.ssize.bytes ∣ d.mloff.toNat)
    ∧ d.ssize.bytes ∣ d.saddr.toNat ∧ d.dsize.bytes ∣ d.daddr.toNat

/-- The eight clauses of R41 for one channel, `nEv` being N_EV. -/
abbrev Channel.Legal (nEv : Nat) (r : Channel) : Prop :=
  (r.st = .idle → r.enable = false ∧ r.pend = false)
    ∧ (r.st = .armed → r.enable = true ∧ r.valid = true ∧ r.desc.citer = r.desc.biter)
    ∧ (r.st = .active → r.enable = true ∧ r.valid = false ∧ 1 ≤ r.desc.citer.toNat
        ∧ r.desc.citer.toNat < r.desc.biter.toNat)
    ∧ (r.st = .done → r.valid = false ∧ r.desc.citer = r.desc.biter)
    ∧ (r.st = .error → r.enable = false ∧ r.pend = false ∧ r.valid = false)
    ∧ (r.pend = true → r.enable = true)
    ∧ (r.valid = true ∨ r.st = .armed ∨ r.st = .active ∨ r.st = .done → r.desc.Checked)
    ∧ (r.bound = true → r.ev.toNat < nEv)

/-- What makes R41 inductive, beside its own clauses: a valid descriptor has not started, so its count is the initial one
(spec/10_state.md R28, R34), and a descriptor that is valid or running is specified (R42). -/
abbrev Channel.Fresh (r : Channel) : Prop :=
  (r.valid = true → r.desc.citer = r.desc.biter)
    ∧ (r.valid = true ∨ r.st = .armed ∨ r.st = .active ∨ r.st = .done → r.contents = .specified)

/-- The range of N_CH (spec/00_scope.md R6). That of N_EV holds by the width of `Config.lastEv`. -/
abbrev State.InRange (s : State) : Prop := 1 ≤ s.chans.length ∧ s.chans.length ≤ 256

/-- N_CH is in its range, and at a step boundary R41 holds for every channel, with what makes it inductive. -/
abbrev State.Legal (s : State) : Prop := s.InRange ∧ ∀ r ∈ s.chans, r.Legal s.cfg.nEv ∧ r.Fresh

/-- A transaction waiting at the port is not complete: it has fewer words than its command word calls for
(spec/30_encoding.md R92). -/
abbrev State.PortWaits (s : State) : Prop := s.rx = [] ∨ s.rx.length < transactionLength (s.rx.getD 0 0)

/-- The block has channel `c` and its register set is `r`. -/
abbrev State.Has (s : State) (c : Nat) (r : Channel) : Prop := s.chan? c = some r

/-- Every channel register set but that of `c` is the same in both states, and there are as many of them. -/
abbrev SameChannelsBut (c : Nat) (s t : State) : Prop :=
  t.chans.length = s.chans.length ∧ ∀ k, k ≠ c → t.chan? k = s.chan? k

/-- Every byte of memory reads the same. -/
abbrev SameMemory (s t : State) : Prop := ∀ a, Memory.read t.mem a = Memory.read s.mem a

/-- What no instruction changes: the parameters, the waiting inputs and the words half received at the port. -/
abbrev SameInputs (s t : State) : Prop := t.cfg = s.cfg ∧ t.inputs = s.inputs ∧ t.rx = s.rx

/-- What no instruction but SERVICE changes: that, and the host accesses that wait to fall inside a SERVICE step. -/
abbrev SameEnvironment (s t : State) : Prop := SameInputs s t ∧ t.inside = s.inside

/-- What only the engine changes: memory, the racing stores, the count of accesses, the interrupts. -/
abbrev EngineAtRest (s t : State) : Prop :=
  t.mem = s.mem ∧ t.races = s.races ∧ t.accesses = s.accesses ∧ t.irqs = s.irqs

/-- The step answers the word `w` at the port and changes nothing else (spec/60_exceptions.md R203). -/
def State.says (s : State) (w : Word) : Host.Outcome State Fault Refusal :=
  .next { s with portOut := s.portOut ++ [w] }

/-- The channel a port operation names. -/
def portChannel : Instr → Option Nat
  | .wrdesc ch _ => some ch
  | .arm ch => some ch
  | .disarm ch => some ch
  | .status ch => some ch
  | .bind _ ch => some ch
  | .stop ch => some ch
  | .rddesc ch => some ch
  | .req _ => none
  | .service _ => none
  | .reset => none

/-- The one channel an operation acts on, if it is one. -/
def targetChannel : Instr → Option Nat
  | .service ch => some ch
  | i => portChannel i

/-- The address of source read `j` of an iteration that starts with the registers `d` (spec/42_transfer_engine.md
R166). -/
def Descriptor.srcAt (d : Descriptor) (j : Nat) : Word := d.saddr + BitVec.ofNat 32 (j * d.soff.toNat)

/-- The address of destination write `k` (R167). -/
def Descriptor.dstAt (d : Descriptor) (k : Nat) : Word := d.daddr + BitVec.ofNat 32 (k * d.doff.toNat)

/-- The byte address that byte `i` of an iteration is read from (R168). -/
def Descriptor.srcByte (d : Descriptor) (i : Nat) : Nat :=
  (d.srcAt (i / d.ssize.bytes) + BitVec.ofNat 32 (i % d.ssize.bytes)).toNat

/-- The byte address that byte `i` of an iteration is written to (R168). -/
def Descriptor.dstByte (d : Descriptor) (i : Nat) : Nat :=
  (d.dstAt (i / d.dsize.bytes) + BitVec.ofNat 32 (i % d.dsize.bytes)).toNat

/-- The index of source read `j` among the accesses of an iteration: the reads before it, and the writes `k` that do not
come after it, those with `(k + 1) × ed ≤ j × es` (spec/42_transfer_engine.md R165). -/
def Descriptor.readIndex (d : Descriptor) (j : Nat) : Nat := j + j * d.ssize.bytes / d.dsize.bytes

/-- The index of destination write `k`: the writes before it, and the reads `j` with `j × es < (k + 1) × ed` (R165). -/
def Descriptor.writeIndex (d : Descriptor) (k : Nat) : Nat :=
  k + ((k + 1) * d.dsize.bytes + d.ssize.bytes - 1) / d.ssize.bytes

/-- The platform fails no access of the iteration that starts now with the registers `d`, each asked at its own time
(R175). -/
abbrev State.NoAccessFails (s : State) (d : Descriptor) : Prop :=
  (∀ j, j < d.reads → faultAt s.cfg (s.accesses + d.readIndex j) (d.srcAt j) d.ssize.bytes .read = false)
    ∧ (∀ k, k < d.writes → faultAt s.cfg (s.accesses + d.writeIndex k) (d.dstAt k) d.dsize.bytes .write = false)

/-- No source byte of the iteration is one of its destination bytes (R168). -/
abbrev Descriptor.Apart (d : Descriptor) : Prop :=
  ∀ i j, i < d.nbytes.toNat → j < d.nbytes.toNat → d.srcByte i ≠ d.dstByte j

/-- The byte addresses an access of the host stores to. -/
def HostAccess.storeAddrs : HostAccess → List Nat
  | .store a bs => elementAddrs a bs.length
  | .load _ _ => []

/-- The host stores to no byte of the iteration while it runs. -/
abbrev State.HostKeepsOff (s : State) (d : Descriptor) : Prop :=
  ∀ x ∈ s.inside, ∀ a ∈ x.access.storeAddrs, ∀ i, i < d.nbytes.toNat → a ≠ d.srcByte i ∧ a ≠ d.dstByte i

/-- The channel answers its next request: it is pending and its SERVICE step has a meaning (R163, R176). -/
abbrev State.Due (s : State) (c : Nat) (r : Channel) : Prop := s.Has c r ∧ r.pend = true ∧ r.desc.linkEn = false

/-- A request is latched for channel `c`. -/
def State.latch (s : State) (c : Nat) : State :=
  match s.chan? c with
  | none => s
  | some r => s.setChan c { r with pend := true }

/-- The state after `n` consecutive SERVICE steps of channel `c`, a request being latched before each (the run of
spec/43_descriptor_derivation.md R192); none if one of them has no next state. -/
def serviceRun (c : Nat) : Nat → State → Option State
  | 0, s => some s
  | n + 1, s =>
    match execService c (s.latch c) with
    | .next t => serviceRun c n t
    | .fault _ => none
    | .refused _ => none

/-- The event is an element access of channel `c` (spec/20_memory.md R72). -/
def Event.accessOf (c : Nat) : Event → Bool
  | .read k _ _ _ _ => k == c
  | .write k _ _ _ _ _ => k == c
  | .arm _ => false
  | .disarm _ => false
  | .stop _ => false
  | .status _ _ => false
  | .hostStore _ _ => false
  | .hostLoad _ _ => false

/-- The event is an element access of the engine. -/
def Event.isAccess (e : Event) : Bool :=
  match e with
  | .read _ _ _ _ _ => true
  | .write _ _ _ _ _ _ => true
  | _ => false

/-- The event is an access of the host. -/
def Event.isHost (e : Event) : Bool :=
  match e with
  | .hostStore _ _ => true
  | .hostLoad _ _ => true
  | _ => false

/-- The event is an element access that failed. -/
def Event.failed (e : Event) : Bool :=
  match e with
  | .read _ _ _ _ ok => !ok
  | .write _ _ _ _ _ ok => !ok
  | _ => false

/-- Memory after an event: the bytes of a write that succeeded and of a host store are in it, nothing else changes it
(spec/20_memory.md R73; spec/42_transfer_engine.md R175). -/
def Event.after (e : Event) (m : Memory) : Memory :=
  match e with
  | .write _ _ a _ bs true => m.writeBytes a bs
  | .hostStore a bs => m.writeBytes a bs
  | _ => m

/-- Memory after a list of events, each taking effect on what those before it left: the one total order of R73. -/
def replay : List Event → Memory → Memory
  | [], m => m
  | e :: es, m => replay es (e.after m)

/-- The state of memory, of the racing stores and of the draws after an event of an iteration: what later element reads of
the same iteration find (spec/20_memory.md R73, R79). -/
def Event.applied (e : Event) (s : State) : State :=
  match e with
  | .read c _ a n true => s.drew (s.readDraws c a n)
  | .write _ _ a _ bs true => s.engineStore a bs
  | .hostStore a bs => s.hostStore a bs
  | _ => s

/-- The bytes an event brings into the byte queue of an iteration, when it happens in the state `s`. -/
def Event.bytesRead (e : Event) (s : State) : List Byte :=
  match e with
  | .read c _ a n true => s.readElement c a n
  | _ => []

/-- The bytes an event takes out of the byte queue: those of a write, whether or not it goes through. -/
def Event.bytesWritten (e : Event) : List Byte :=
  match e with
  | .write _ _ _ _ bs _ => bs
  | _ => []

/-- All bytes that the reads among a list of events bring, each read finding what the events before it left. -/
def bytesBrought : List Event → State → List Byte
  | [], _ => []
  | e :: es, s => e.bytesRead s ++ bytesBrought es (e.applied s)

/-- The state after the stores of a list, one after the other. -/
def hostStores (stores : List (Word × List Byte)) (s : State) : State := stores.foldl (fun t p => t.hostStore p.1 p.2) s

/-- The event that an access of the host is when memory holds `m`. -/
def HostAccess.event (x : HostAccess) (m : Memory) : Event :=
  match x with
  | .store a bs => .hostStore a bs
  | .load a n => .hostLoad a (m.readBytes a n)

/-- The edges of the transition relation of `st` (spec/10_state.md R44) between different states. -/
def stEdge : ChState → ChState → Bool
  | .idle, .armed => true
  | .armed, .idle => true
  | .armed, .active => true
  | .armed, .done => true
  | .armed, .error => true
  | .active, .idle => true
  | .active, .done => true
  | .active, .error => true
  | .done, .idle => true
  | .done, .active => true
  | .done, .error => true
  | .error, .idle => true
  | _, _ => false

end Sys2Proof.Machine

namespace Sys2Proof

/-- `chk_reserved` (spec/40_descriptor_port.md R123). -/
abbrev Image.FormOk (g : Image) : Prop :=
  bits g.w4 7 2 = 0 ∧ bits g.w4 31 10 = 0 ∧ bits g.w4 1 0 ≠ 3 ∧ bits g.w4 9 8 ≠ 3 ∧ bits g.w11 7 4 = 0
    ∧ bits g.w11 31 16 = 0

/-- `chk_zero` (R124). -/
abbrev Image.CountsOk (g : Image) : Prop := g.w5 ≠ 0 ∧ g.w7 ≠ 0

/-- `chk_nbytes` (R124). -/
abbrev Image.SizesOk (g : Image) : Prop := 2 ^ bits g.w4 1 0 ∣ g.w5.toNat ∧ 2 ^ bits g.w4 9 8 ∣ g.w5.toNat

/-- `chk_stride` (R125). -/
abbrev Image.StridesOk (g : Image) : Prop := 2 ^ bits g.w4 1 0 ∣ g.w1.toNat ∧ 2 ^ bits g.w4 9 8 ∣ g.w3.toNat

/-- `chk_offset` (R126). -/
abbrev Image.OffsetsOk (g : Image) : Prop :=
  2 ^ bits g.w4 1 0 ∣ g.w9.toNat ∧ (bits g.w11 3 3 = 0 ∨ 2 ^ bits g.w4 1 0 ∣ g.w6.toNat)

/-- `chk_align` (R127). -/
abbrev Image.AlignOk (g : Image) : Prop := 2 ^ bits g.w4 1 0 ∣ g.w0.toNat ∧ 2 ^ bits g.w4 9 8 ∣ g.w2.toNat

/-- `chk_extent` (R128). -/
abbrev Image.ExtentOk (g : Image) : Prop := g.w5.toNat * g.w7.toNat = g.w10.toNat

/-- The image passes every configuration check (R120). -/
abbrev Image.Acceptable (g : Image) : Prop :=
  g.FormOk ∧ g.CountsOk ∧ g.SizesOk ∧ g.StridesOk ∧ g.OffsetsOk ∧ g.AlignOk ∧ g.ExtentOk

/-- The command word is malformed (spec/30_encoding.md R100). -/
abbrev Malformed (w : Word) : Prop :=
  bits w 31 28 = 0 ∨ 8 ≤ bits w 31 28 ∨ bits w 27 16 ≠ 0 ∨ (bits w 15 8 ≠ 0 ∧ bits w 31 28 ≠ 5)

/-- The instruction is one of the seven port operations (spec/30_encoding.md R90). -/
def Instr.isPortOp (i : Instr) : Bool :=
  match i with
  | .req _ => false
  | .service _ => false
  | .reset => false
  | _ => true

end Sys2Proof
end

