-- ==== Sys2Proof/Certificates/Slice0/Obligations.lean ====
section
/-! DEFINITION. The statements of this row. Each docstring names the rule or section of spec/ it formalises. Where a
clause rests on a choice of the model, the docstring names the log entry. -/

open Sys2Proof Sys2Proof.Machine

/-! Encoding. -/

/-- spec/30_encoding.md R105: decoding the word of an operation gives the operation back, at the port for the port
operations and in a listing (R99) for all ten, whatever words follow. -/
def Obligations.DecodeInvertsEncode : Prop :=
  ∀ (i : Instr) (rest : List Word), i.wf = true →
    decode .listing (encode i ++ rest) = .ok (i, rest)
      ∧ (i.isPortOp = true → decode .port (encode i ++ rest) = .ok (i, rest))

/-- spec/30_encoding.md R105, "exactly one command word": what the decoder reads is well-formed, and the words it took
are the encoding of it and no others; at the port it is a port operation. -/
def Obligations.EncodeInvertsDecode : Prop :=
  ∀ (v : View) (ws rest : List Word) (i : Instr), decode v ws = .ok (i, rest) →
    i.wf = true ∧ encode i ++ rest = ws ∧ (v = .port → i.isPortOp = true)

/-- spec/30_encoding.md R96: no word selects two rows of the operation map. -/
def Obligations.OpcodeRowsDoNotOverlap : Prop :=
  opcodeTable.Pairwise fun a b => ∀ w : Word, ¬ (w &&& a.mask = a.pattern ∧ w &&& b.mask = b.pattern)

/-- spec/30_encoding.md section 4: a complete transaction is refused by the decoder exactly when its command word is
malformed, and then all its words are consumed (R92). -/
def Obligations.MalformedWordsAreRefused : Prop :=
  ∀ (w : Word) (ws : List Word), transactionLength w ≤ ws.length + 1 →
    ((∃ op rest, decode .port (w :: ws) = .error (.malformed op rest)) ↔ Malformed w)
      ∧ ∀ op rest, decode .port (w :: ws) = .error (.malformed op rest) →
          op = bits w 31 28 ∧ rest = ws.drop (if bits w 31 28 = 1 then 12 else 0)

/-- spec/30_encoding.md section 7, the worked encodings, with one word of every other operation and the transaction that
carries the base image of spec/95_test_vectors.md group W. -/
def Obligations.WorkedEncodings : Prop :=
  decode .port [0x10000003#32, 0x20000000#32, 0x00000020#32, 0x40000020#32, 0x00000000#32, 0x00000202#32, 0x00000008#32,
      0xFFFFFFC4#32, 0x00000008#32, 0x00000000#32, 0xFFFFFFE0#32, 0x00000040#32, 0x00000008#32]
    = .ok (.wrdesc 3 { w0 := 0x20000000, w1 := 32, w2 := 0x40000020, w3 := 0, w4 := 0x202, w5 := 8, w6 := 0xFFFFFFC4
                       w7 := 8, w8 := 0, w9 := 0xFFFFFFE0, w10 := 64, w11 := 8 }, []) ∧
  decode .port [0x20000000#32] = .ok (.arm 0, [])
    ∧ decode .port [0x40000003#32] = .ok (.status 3, [])
    ∧ decode .port [0x50000502#32] = .ok (.bind 5 2, [])
    ∧ decode .port [0x60000001#32] = .ok (.stop 1, [])
    ∧ decode .port [0x30000002#32] = .ok (.disarm 2, [])
    ∧ decode .port [0x70000000#32] = .ok (.rddesc 0, [])
    ∧ decode .listing [0x80000500#32] = .ok (.req 5, [])
    ∧ decode .listing [0x90000003#32] = .ok (.service 3, [])
    ∧ decode .listing [0xA0000000#32] = .ok (.reset, [])
    ∧ (Answer.ok 0).word = 0x00000000#32
    ∧ (Answer.ok 0x0592#16).word = 0x00000592#32
    ∧ (Answer.configurationError .extent).word = 0x10700000#32
    ∧ (Answer.preconditionViolation .state).word = 0x20200000#32

/-- spec/30_encoding.md R97 and spec/60_exceptions.md R201, R202: the fields of every response word; classes and causes
outside the tables are never produced. -/
def Obligations.ResponseWordFields : Prop :=
  (∀ d : BitVec 16, bits (Answer.ok d).word 31 16 = 0 ∧ bits (Answer.ok d).word 15 0 = d.toNat)
    ∧ (∀ c : ConfigCause, bits (Answer.configurationError c).word 31 28 = 1
        ∧ bits (Answer.configurationError c).word 27 20 = c.code
        ∧ bits (Answer.configurationError c).word 19 0 = 0 ∧ 1 ≤ c.code ∧ c.code ≤ 7)
    ∧ (∀ c : PreCause, bits (Answer.preconditionViolation c).word 31 28 = 2
        ∧ bits (Answer.preconditionViolation c).word 27 20 = c.code
        ∧ bits (Answer.preconditionViolation c).word 19 0 = 0 ∧ 1 ≤ c.code ∧ c.code ≤ 3)

/-! One step. -/

/-- spec/30_encoding.md section 2: when the words at the port, with those half received before, open with the words of a
well-formed port operation, step is exec of it; the words after it stay in front, and the receive buffer is
empty. -/
def Obligations.StepRunsPortOperation : Prop :=
  ∀ (s : State) (ws left : List Word) (rest : List Input) (i : Instr),
    s.inputs = .port ws :: rest → decode .port (s.rx ++ ws) = .ok (i, left) →
      step s = exec i { s with rx := [], inputs := if left = [] then rest else .port left :: rest }

/-- spec/00_scope.md section 6, agents: a step of another agent runs as it stands, SERVICE with the host accesses that fall
inside it (spec/20_memory.md R69), RESET when no transaction is half received (ResetWaitsForTransaction says what happens
when one is). -/
def Obligations.StepRunsAgentMove : Prop :=
  ∀ (s : State) (rest : List Input),
    (∀ e, s.inputs = .req e :: rest → step s = exec (.req e) { s with inputs := rest })
      ∧ (∀ c xs, s.inputs = .service c xs :: rest →
          step s = exec (.service c) { s with inputs := rest, inside := s.inside ++ xs })
      ∧ (s.rx = [] → s.inputs = .reset :: rest → step s = exec .reset { s with inputs := rest })

/-- spec/70_reset_and_hazards.md section 1, RESET "never inside … a port transaction": while a transaction is half received
the RESETs in front of the moves wait there, and the first other move is the next step: words at the port, which may
complete the transaction, an access of the host, REQ or SERVICE; with no other move and no latched request nothing
happens, and with one latched the engine takes its turn (EngineTakesItsTurn). That a RESET waits, and is not lost, is the model's reading (log 13). -/
def Obligations.ResetWaitsForTransaction : Prop :=
  ∀ (s : State) (held rest : List Input), s.rx ≠ [] → (∀ m ∈ held, m = .reset) →
    (∀ ws i left, s.inputs = held ++ .port ws :: rest → decode .port (s.rx ++ ws) = .ok (i, left) →
        step s = exec i { s with rx := [], inputs := held ++ (if left = [] then rest else .port left :: rest) })
      ∧ (∀ ws op left, s.inputs = held ++ .port ws :: rest → decode .port (s.rx ++ ws) = .error (.malformed op left) →
        step s = State.says
          { s with rx := [], inputs := held ++ (if left = [] then rest else .port left :: rest) } 0x20100000#32)
      ∧ (∀ ws, s.inputs = held ++ .port ws :: rest → decode .port (s.rx ++ ws) = .error .short →
        step s = .next { s with rx := s.rx ++ ws, inputs := held ++ rest })
      ∧ (∀ x, s.inputs = held ++ .host x :: rest → step s = .next (State.hostAccess { s with inputs := held ++ rest } x))
      ∧ (∀ e, s.inputs = held ++ .req e :: rest → step s = exec (.req e) { s with inputs := held ++ rest })
      ∧ (∀ c xs, s.inputs = held ++ .service c xs :: rest →
        step s = exec (.service c) { s with inputs := held ++ rest, inside := s.inside ++ xs })
      ∧ (s.inputs = held → (∀ c r, s.Has c r → r.pend = false) → step s = .next s)

/-- Log 9: an instruction placed by `withFetchWord` is what the next step runs, in every state. -/
def Obligations.PlacedInstructionRuns : Prop :=
  ∀ (s : State) (nbits w : Nat) (i : Instr), decodeTableWord nbits w = some i →
    step (s.withFetchWord nbits w) = exec i { s with rx := [] }

/-- spec/30_encoding.md section 4: a malformed command raises PV_BADCMD and changes nothing; its payload is consumed. -/
def Obligations.MalformedCommandRaises : Prop :=
  ∀ (s : State) (w : Word) (ws : List Word) (rest : List Input),
    s.rx = [] → s.inputs = .port (w :: ws) :: rest → transactionLength w ≤ ws.length + 1 → Malformed w →
      ∃ inputs', step s = State.says { s with inputs := inputs' } 0x20100000#32
        ∧ (ws.drop (transactionLength w - 1) = [] → inputs' = rest)
        ∧ (ws.drop (transactionLength w - 1) ≠ [] → inputs' = .port (ws.drop (transactionLength w - 1)) :: rest)

/-- spec/30_encoding.md R92, cut short: the words of an incomplete transaction are kept and have no other effect and no
response, whatever moves come after them or none, and it makes no difference in how many pieces a transaction comes. -/
def Obligations.TransactionMayComeInPieces : Prop :=
  ∀ (s : State) (a : List Word) (rest : List Input),
    decode .port (s.rx ++ a) = .error .short → s.inputs = .port a :: rest →
      step s = .next { s with rx := s.rx ++ a, inputs := rest }
        ∧ ∀ b rest', rest = .port b :: rest' →
            step { s with rx := s.rx ++ a, inputs := rest } = step { s with inputs := .port (a ++ b) :: rest' }

/-- The model's choice among the steps that spec/42_transfer_engine.md R163 and spec/60_exceptions.md R213 enable: with no
input ready, that is none at all, or only RESETs that wait for a half-received transaction (log 13), step is SERVICE of
some channel with a latched request (log 2); with none latched nothing happens, and step stays where it is (log 8). -/
def Obligations.EngineTakesItsTurn : Prop :=
  ∀ s : State, s.inputs = [] ∨ (s.rx ≠ [] ∧ ∀ m ∈ s.inputs, m = .reset) →
    ((∃ c r, s.Has c r ∧ r.pend = true) →
        ∃ c r n, s.Has c r ∧ r.pend = true ∧ step s = exec (.service c) { s with draws := n })
      ∧ ((∀ c r, s.Has c r → r.pend = false) → step s = .next s)

/-- spec/20_memory.md section 7: a store of the host writes its bytes, each at its address, and nothing else in memory; no
register of the block changes (memory in its canonical form, StepKeepsMemoryCanonical). That the store stands in the
history is log 11. -/
def Obligations.HostStoreWritesItsBytes : Prop :=
  ∀ (s : State) (a : Word) (bs : List Byte) (rest : List Input),
    Memory.wf s.mem = true → s.inputs = .host (.store a bs) :: rest → bs.length ≤ 2 ^ 32 → ∃ t, step s = .next t
      ∧ (∀ k, k < bs.length → Memory.read t.mem (a + BitVec.ofNat 32 k).toNat = bs.getD k 0)
      ∧ (∀ x, x ∉ elementAddrs a bs.length → Memory.read t.mem x = Memory.read s.mem x)
      ∧ t.chans = s.chans ∧ t.cfg = s.cfg ∧ t.inputs = rest ∧ t.inside = s.inside ∧ t.rx = s.rx
      ∧ t.portOut = s.portOut ∧ t.irqs = s.irqs ∧ t.history = s.history ++ [.hostStore a bs] ∧ t.accesses = s.accesses
      ∧ t.draws = s.draws

/-- spec/20_memory.md section 7: a load of the host returns the bytes that stand in memory, each of its address, and changes
nothing. That what it returns stands in the history is log 11. -/
def Obligations.HostLoadReturnsMemory : Prop :=
  ∀ (s : State) (a : Word) (n : Nat) (rest : List Input), s.inputs = .host (.load a n) :: rest →
    ∃ bs : List Byte, step s = .next { s with inputs := rest, history := s.history ++ [.hostLoad a bs] }
      ∧ bs.length = n ∧ ∀ k, k < n → bs.getD k 0 = Memory.read s.mem (a + BitVec.ofNat 32 k).toNat

/-- spec/20_memory.md R79: after one host store to an element of an enabled channel, a read of that element by the channel
returns the old bytes or the new bytes; and after any number of host stores, wherever they are, a read of any element
returns the bytes that stood there together after some of them (spec/20_memory.md R69, log 10). What a SERVICE step does
with the bytes its reads return is ServiceWritesWhatItReads. -/
def Obligations.RacingReadIsOldOrNew : Prop :=
  ∀ (s : State) (c : Nat) (r : Channel) (a : Word), s.Has c r → r.enable = true → (∀ x ∈ s.races, x.ch ≠ c) →
    (∀ bs : List Byte, Memory.wf s.mem = true → bs.length ≤ 4 →
        (s.hostStore a bs).readElement c a bs.length = bs
          ∨ (s.hostStore a bs).readElement c a bs.length = s.mem.readBytes a bs.length)
      ∧ ∀ (stores : List (Word × List Byte)) (n : Nat), ∃ i, i ≤ stores.length
          ∧ (hostStores stores s).readElement c a n = (hostStores (stores.take i) s).mem.readBytes a n

/-- spec/20_memory.md R75: after an accepted ARM of a channel, its reads return what is in memory, whatever the host stored
before. -/
def Obligations.ArmPublishesHostStores : Prop :=
  ∀ (s : State) (ch : Nat) (r : Channel), s.Has ch r → r.st = .idle → r.valid = true →
    ∃ t, exec (.arm ch) s = .next t ∧ t.mem = s.mem
      ∧ ∀ a n, t.readElement ch a n = s.mem.readBytes a n

/-! Port operations. -/

/-- spec/60_exceptions.md section 2, step 1: a port operation on a channel the block does not have answers PV_BADCMD and
changes nothing else. -/
def Obligations.ChannelRangeComesFirst : Prop :=
  ∀ (s : State) (i : Instr) (ch : Nat), portChannel i = some ch → s.chan? ch = none → exec i s = s.says 0x20100000#32

/-- spec/40_descriptor_port.md R121 to R128 with spec/60_exceptions.md R204: WRDESC reports the first failing check in the
fixed order, and changes nothing but the answer at the port. -/
def Obligations.WrdescReportsFirstFailure : Prop :=
  ∀ (s : State) (ch : Nat) (r : Channel) (g : Image), s.Has ch r →
    (r.st ≠ .idle → exec (.wrdesc ch g) s = s.says 0x20200000#32)
      ∧ (r.st = .idle → ¬ g.FormOk → exec (.wrdesc ch g) s = s.says 0x10100000#32)
      ∧ (r.st = .idle → g.FormOk → ¬ g.CountsOk → exec (.wrdesc ch g) s = s.says 0x10200000#32)
      ∧ (r.st = .idle → g.FormOk → g.CountsOk → ¬ g.SizesOk → exec (.wrdesc ch g) s = s.says 0x10300000#32)
      ∧ (r.st = .idle → g.FormOk → g.CountsOk → g.SizesOk → ¬ g.StridesOk →
          exec (.wrdesc ch g) s = s.says 0x10400000#32)
      ∧ (r.st = .idle → g.FormOk → g.CountsOk → g.SizesOk → g.StridesOk → ¬ g.OffsetsOk →
          exec (.wrdesc ch g) s = s.says 0x10500000#32)
      ∧ (r.st = .idle → g.FormOk → g.CountsOk → g.SizesOk → g.StridesOk → g.OffsetsOk → ¬ g.AlignOk →
          exec (.wrdesc ch g) s = s.says 0x10600000#32)
      ∧ (r.st = .idle → g.FormOk → g.CountsOk → g.SizesOk → g.StridesOk → g.OffsetsOk → g.AlignOk → ¬ g.ExtentOk →
          exec (.wrdesc ch g) s = s.says 0x10700000#32)

/-- spec/40_descriptor_port.md R120: an accepted WRDESC writes all sixteen descriptor registers, `citer` from W7, and
`valid`, and nothing else; every register is specified from then on (R42). -/
def Obligations.WrdescInstallsDescriptor : Prop :=
  ∀ (s : State) (ch : Nat) (r : Channel) (g : Image), s.Has ch r → r.st = .idle → g.Acceptable →
    ∃ t d, exec (.wrdesc ch g) s = .next t
      ∧ t.Has ch { r with desc := d, valid := true, contents := .specified }
      ∧ d.saddr = g.w0 ∧ d.soff = g.w1 ∧ d.daddr = g.w2 ∧ d.doff = g.w3
      ∧ d.ssize.bytes = 2 ^ bits g.w4 1 0 ∧ d.dsize.bytes = 2 ^ bits g.w4 9 8
      ∧ d.nbytes = g.w5 ∧ d.mloff = g.w6 ∧ d.biter = g.w7 ∧ d.citer = g.w7 ∧ d.slast = g.w9 ∧ d.bufbytes = g.w10
      ∧ d.autoDisable = g.w11.getLsbD 0 ∧ d.intMajor = g.w11.getLsbD 1 ∧ d.linkEn = g.w11.getLsbD 2
      ∧ d.mloe = g.w11.getLsbD 3
      ∧ SameChannelsBut ch s t ∧ SameEnvironment s t ∧ EngineAtRest s t ∧ t.history = s.history ∧ t.draws = s.draws
      ∧ t.portOut = s.portOut ++ [0x00000000#32]

/-- spec/30_encoding.md R95, R105: two images that differ only in W8 or in W11 bits 15:8 denote the same WRDESC. -/
def Obligations.IgnoredImageBitsDoNotMatter : Prop :=
  ∀ (s : State) (ch : Nat) (g : Image) (c8 csr : Word),
    csr &&& 0xFFFF00FF#32 = g.w11 &&& 0xFFFF00FF#32 →
      exec (.wrdesc ch { g with w8 := c8, w11 := csr }) s = exec (.wrdesc ch g) s

/-- spec/30_encoding.md R95: an image read by RDDESC can be written back by WRDESC unchanged, and restores every register
but `citer`, which is loaded again from `biter`. -/
def Obligations.ReadImageWritesBack : Prop :=
  ∀ (s : State) (ch : Nat) (r : Channel), s.Has ch r → r.st = .idle → r.contents = .specified → r.desc.Checked →
    r.desc.nbytes.toNat * r.desc.biter.toNat = r.desc.bufbytes.toNat →
      ∃ t u g, exec (.rddesc ch) s = .next t ∧ t.portOut = s.portOut ++ 0x00000000#32 :: Image.words g
        ∧ exec (.wrdesc ch g) t = .next u
        ∧ u.Has ch { r with desc := { r.desc with citer := r.desc.biter }, valid := true }

/-- spec/40_descriptor_port.md R130: RDDESC of a channel whose registers are specified answers OK and the twelve image
words, and changes nothing else. -/
def Obligations.RddescReturnsImage : Prop :=
  ∀ (s : State) (ch : Nat) (r : Channel), s.Has ch r → r.contents = .specified →
    ∃ attr csr : Word,
      exec (.rddesc ch) s = .next { s with portOut := s.portOut ++
        [0x00000000#32, r.desc.saddr, r.desc.soff, r.desc.daddr, r.desc.doff, attr, r.desc.nbytes, r.desc.mloff,
          r.desc.biter, r.desc.citer, r.desc.slast, r.desc.bufbytes, csr] }
      ∧ 2 ^ bits attr 1 0 = r.desc.ssize.bytes ∧ bits attr 7 2 = 0 ∧ 2 ^ bits attr 9 8 = r.desc.dsize.bytes
      ∧ bits attr 31 10 = 0
      ∧ csr.getLsbD 0 = r.desc.autoDisable ∧ csr.getLsbD 1 = r.desc.intMajor ∧ csr.getLsbD 2 = r.desc.linkEn
      ∧ csr.getLsbD 3 = r.desc.mloe ∧ bits csr 7 4 = 0
      ∧ csr.getLsbD 8 = (r.st == .active) ∧ csr.getLsbD 9 = (r.st == .done) ∧ csr.getLsbD 10 = (r.st == .error)
      ∧ csr.getLsbD 11 = r.enable ∧ csr.getLsbD 12 = r.valid ∧ csr.getLsbD 13 = r.pend ∧ bits csr 31 14 = 0

/-- spec/40_descriptor_port.md section 2: RDDESC of a channel with unspecified registers answers OK; the registers that are
specified (after an entry to Error all but `saddr`, `daddr` and `citer`, spec/60_exceptions.md R206), the reserved bits
and the views read as the rules say, and no register of the block changes. Which words show a free value is log 5; that a free value may differ at two reads is the draw counter moving on. -/
def Obligations.RddescShowsWhatIsSpecified : Prop :=
  ∀ (s : State) (ch : Nat) (r : Channel), s.Has ch r → r.contents ≠ .specified →
    ∃ (t : State) (g : Image), exec (.rddesc ch) s = .next t
      ∧ t.portOut = s.portOut ++ 0x00000000#32 :: g.words
      ∧ bits g.w4 7 2 = 0 ∧ bits g.w4 31 10 = 0 ∧ bits g.w11 7 4 = 0 ∧ bits g.w11 31 14 = 0
      ∧ g.w11.getLsbD 8 = (r.st == .active) ∧ g.w11.getLsbD 9 = (r.st == .done) ∧ g.w11.getLsbD 10 = (r.st == .error)
      ∧ g.w11.getLsbD 11 = r.enable ∧ g.w11.getLsbD 12 = r.valid ∧ g.w11.getLsbD 13 = r.pend
      ∧ (r.contents = .workingUnspecified →
          g.w1 = r.desc.soff ∧ g.w3 = r.desc.doff ∧ g.w5 = r.desc.nbytes ∧ g.w6 = r.desc.mloff ∧ g.w7 = r.desc.biter
            ∧ g.w9 = r.desc.slast ∧ g.w10 = r.desc.bufbytes
            ∧ 2 ^ bits g.w4 1 0 = r.desc.ssize.bytes ∧ 2 ^ bits g.w4 9 8 = r.desc.dsize.bytes
            ∧ g.w11.getLsbD 0 = r.desc.autoDisable ∧ g.w11.getLsbD 1 = r.desc.intMajor
            ∧ g.w11.getLsbD 2 = r.desc.linkEn ∧ g.w11.getLsbD 3 = r.desc.mloe)
      ∧ t.chans = s.chans ∧ SameEnvironment s t ∧ EngineAtRest s t ∧ t.history = s.history ∧ s.draws < t.draws

/-- spec/40_descriptor_port.md R132, R133 with spec/30_encoding.md R98: STATUS answers OK with the fields of its data word
and has no effect but the answer and, when it returns Done or Idle, the ordering event of spec/20_memory.md R72. -/
def Obligations.StatusReturnsChannelState : Prop :=
  ∀ (s : State) (ch : Nat) (r : Channel), s.Has ch r →
    ∃ w : Word,
      exec (.status ch) s = .next { s with
        portOut := s.portOut ++ [w]
        history := if r.st = .done ∨ r.st = .idle then s.history ++ [.status ch r.st] else s.history }
      ∧ bits w 31 16 = 0
      ∧ (r.st = .idle → bits w 2 0 = 0) ∧ (r.st = .armed → bits w 2 0 = 1) ∧ (r.st = .active → bits w 2 0 = 2)
      ∧ (r.st = .done → bits w 2 0 = 3) ∧ (r.st = .error → bits w 2 0 = 4) ∧ w.getLsbD 3 = false
      ∧ w.getLsbD 4 = r.enable ∧ w.getLsbD 5 = r.pend ∧ w.getLsbD 6 = r.valid ∧ w.getLsbD 7 = r.bound
      ∧ bits w 15 8 = if r.bound then r.ev.toNat else 0

/-- spec/41_trigger_router.md R140: BIND checks the event, then the state; accepted, it writes `bound` and `ev` of the
channel and nothing else. -/
def Obligations.BindFollowsItsRule : Prop :=
  ∀ (s : State) (ev ch : Nat) (r : Channel), s.Has ch r →
    (s.cfg.nEv ≤ ev → exec (.bind ev ch) s = s.says 0x20100000#32)
      ∧ (ev < s.cfg.nEv → r.st ≠ .idle → exec (.bind ev ch) s = s.says 0x20200000#32)
      ∧ (ev < s.cfg.nEv → r.st = .idle →
          ∃ t r', exec (.bind ev ch) s = .next t ∧ t.Has ch r' ∧ r'.ev.toNat = ev
            ∧ r' = { r with bound := true, ev := r'.ev }
            ∧ SameChannelsBut ch s t ∧ SameEnvironment s t ∧ EngineAtRest s t ∧ t.history = s.history
            ∧ t.draws = s.draws ∧ t.portOut = s.portOut ++ [0x00000000#32])

/-- spec/41_trigger_router.md R142, R143: ARM in any state but Idle answers PV_STATE, in Idle with `valid = 0` PV_NODESC;
accepted, it writes `st` and `enable` of the channel and no other register, and is an ordering event
(spec/20_memory.md R72) and the publication point: the channel's reads return what is in memory (R75). -/
def Obligations.ArmFollowsItsRule : Prop :=
  ∀ (s : State) (ch : Nat) (r : Channel), s.Has ch r →
    (r.st ≠ .idle → exec (.arm ch) s = s.says 0x20200000#32)
      ∧ (r.st = .idle → r.valid = false → exec (.arm ch) s = s.says 0x20300000#32)
      ∧ (r.st = .idle → r.valid = true →
          ∃ t, exec (.arm ch) s = .next t ∧ t.Has ch { r with st := .armed, enable := true }
            ∧ SameChannelsBut ch s t ∧ SameEnvironment s t ∧ t.mem = s.mem ∧ t.accesses = s.accesses ∧ t.irqs = s.irqs
            ∧ t.history = s.history ++ [.arm ch] ∧ t.draws = s.draws ∧ t.portOut = s.portOut ++ [0x00000000#32]
            ∧ ∀ a n, t.readElement ch a n = s.mem.readBytes a n)

/-- spec/41_trigger_router.md R144, R145: DISARM in Active answers PV_STATE and changes nothing else; in every other state
it writes `st`, `enable` and `pend` of the channel and no other register, and is an ordering event. -/
def Obligations.DisarmFollowsItsRule : Prop :=
  ∀ (s : State) (ch : Nat) (r : Channel), s.Has ch r →
    (r.st = .active → exec (.disarm ch) s = s.says 0x20200000#32)
      ∧ (r.st ≠ .active →
          ∃ t, exec (.disarm ch) s = .next t ∧ t.Has ch { r with st := .idle, enable := false, pend := false }
            ∧ SameChannelsBut ch s t ∧ SameEnvironment s t ∧ EngineAtRest s t
            ∧ t.history = s.history ++ [.disarm ch] ∧ t.draws = s.draws ∧ t.portOut = s.portOut ++ [0x00000000#32])

/-- spec/41_trigger_router.md R146: STOP, in every state, writes `st`, `enable`, `pend` and `valid` of the channel and no
other register, and is an ordering event. -/
def Obligations.StopForcesIdle : Prop :=
  ∀ (s : State) (ch : Nat) (r : Channel), s.Has ch r →
    ∃ t, exec (.stop ch) s = .next t
      ∧ t.Has ch { r with st := .idle, enable := false, pend := false, valid := false }
      ∧ SameChannelsBut ch s t ∧ SameEnvironment s t ∧ EngineAtRest s t
      ∧ t.history = s.history ++ [.stop ch] ∧ t.draws = s.draws ∧ t.portOut = s.portOut ++ [0x00000000#32]

/-- spec/60_exceptions.md R203: whatever the port operation, if its answer is an error class then the answer is all that
changed. -/
def Obligations.ErrorsChangeNothing : Prop :=
  ∀ (s t : State) (i : Instr) (w : Word) (more : List Word), i.isPortOp = true → exec i s = .next t →
    t.portOut = s.portOut ++ w :: more → bits w 31 28 ≠ 0 →
      more = [] ∧ t = { s with portOut := s.portOut ++ [w] }

/-- spec/41_trigger_router.md R149: a channel armed and disarmed without being serviced may be armed again without a new
WRDESC, its descriptor registers being as they were. -/
def Obligations.RearmWithoutServiceSucceeds : Prop :=
  ∀ (s : State) (ch : Nat) (r : Channel), s.Has ch r → r.st = .idle → r.valid = true →
    ∃ t u v r', exec (.arm ch) s = .next t ∧ exec (.disarm ch) t = .next u ∧ exec (.arm ch) u = .next v
      ∧ v.Has ch r' ∧ r'.st = .armed ∧ r'.enable = true ∧ r'.valid = true ∧ r'.desc = r.desc
      ∧ v.portOut = s.portOut ++ [0x00000000#32, 0x00000000#32, 0x00000000#32]

/-- spec/41_trigger_router.md section 5: after Done or Error, WRDESC before DISARM answers PV_STATE, and ARM after DISARM
without a WRDESC between answers PV_NODESC (in the states of R41). -/
def Obligations.RearmNeedsDisarmAndReprogram : Prop :=
  ∀ (s : State) (ch : Nat) (r : Channel) (g : Image), s.Legal → s.Has ch r → r.st = .done ∨ r.st = .error →
    exec (.wrdesc ch g) s = s.says 0x20200000#32
      ∧ exec (.arm ch) s = s.says 0x20200000#32
      ∧ ∃ t, exec (.disarm ch) s = .next t ∧ exec (.arm ch) t = t.says 0x20300000#32

/-! The engine. -/

/-- spec/42_transfer_engine.md R160, R161: REQ sets `pend` of every channel bound to the event and enabled; every other
register and everything else is unchanged. -/
def Obligations.ReqLatchesRequests : Prop :=
  ∀ (s : State) (e : Nat), ∃ t, exec (.req e) s = .next t
    ∧ t = { s with chans := t.chans } ∧ t.chans.length = s.chans.length
    ∧ ∀ c r, s.Has c r →
        t.Has c (if r.bound = true ∧ r.ev.toNat = e ∧ r.enable = true then { r with pend := true } else r)

/-- spec/42_transfer_engine.md R163: with no latched request, or no such channel, SERVICE has no step. That the machine
then stays where it is, but for what the host does inside (log 18), is the model's (log 8). -/
def Obligations.ServiceNeedsRequest : Prop :=
  ∀ (s : State) (c : Nat), (∀ r, s.Has c r → r.pend = false) →
    ∃ t es, exec (.service c) s = .next t ∧ t = { s with mem := t.mem, races := t.races, history := s.history ++ es, inside := [] }
      ∧ (∀ e ∈ es, Event.isHost e = true) ∧ t.mem = replay es s.mem ∧ (s.inside = [] → t = s)

/-- spec/42_transfer_engine.md R176: SERVICE of a channel with a latched request and `link_en = 1` is refused. -/
def Obligations.LinkedServiceIsRefused : Prop :=
  ∀ (s : State) (c : Nat) (r : Channel), s.Has c r → r.pend = true → r.desc.linkEn = true →
    exec (.service c) s = .refused (.linkEnabled c)

/-- spec/42_transfer_engine.md section 2, closed form of one iteration (R164, R166, R167, R169 to R174, R179): when no access
fails, the addresses, the count, the state, `enable`, `pend`, `valid` and the interrupt are as the rules say, the accesses
are `ns` reads and `nd` writes, which move exactly `nbytes` bytes, and no other register of any channel changes. -/
def Obligations.ServiceRunsOneIteration : Prop :=
  ∀ (s : State) (c : Nat) (r : Channel), s.Due c r → r.desc.Checked → s.NoAccessFails r.desc →
    ∃ t, exec (.service c) s = .next t
      ∧ t.Has c { r with
          desc := { r.desc with
            saddr := r.desc.srcAt r.desc.reads
              + (if r.desc.mloe = true ∧ (r.desc.citer ≠ 1 ∨ s.cfg.mloffOnLast = true) then r.desc.mloff else 0)
              + (if r.desc.citer = 1 then r.desc.slast else 0)
            daddr := r.desc.dstAt r.desc.writes
            citer := if r.desc.citer = 1 then r.desc.biter else r.desc.citer - 1 }
          st := if r.desc.citer = 1 then .done else .active
          enable := if r.desc.citer = 1 then !r.desc.autoDisable else r.enable
          pend := false, valid := false }
      ∧ t.irqs = (if r.desc.citer = 1 ∧ r.desc.intMajor = true then s.irqs ++ [c] else s.irqs)
      ∧ r.desc.reads * r.desc.ssize.bytes = r.desc.nbytes.toNat ∧ r.desc.writes * r.desc.dsize.bytes = r.desc.nbytes.toNat
      ∧ 1 ≤ r.desc.reads ∧ 1 ≤ r.desc.writes ∧ t.accesses = s.accesses + r.desc.reads + r.desc.writes
      ∧ SameChannelsBut c s t ∧ SameInputs s t ∧ t.inside = [] ∧ t.portOut = s.portOut

/-- spec/42_transfer_engine.md R165 to R168 and spec/20_memory.md R72: the engine's accesses of an iteration, each with its
index: read `j` at `S + j × soff` comes before write `k` at `T + k × doff` exactly when `j × es < (k + 1) × ed`, and there
are no others. With source and destination apart, no racing store and no host store to them inside the step, write `k`
carries the bytes that stood at the source addresses of its bytes, also when a later write overwrites them, as with a
FIFO (every address is plain memory, log 14). -/
def Obligations.ServiceAccessOrder : Prop :=
  ∀ (s : State) (c : Nat) (r : Channel), s.Due c r → r.desc.Checked → s.NoAccessFails r.desc →
    ∃ t es, exec (.service c) s = .next t ∧ t.history = s.history ++ es
      ∧ (es.filter Event.isAccess).length = r.desc.reads + r.desc.writes
      ∧ (∀ j k, j < r.desc.reads → k < r.desc.writes →
          (r.desc.readIndex j < r.desc.writeIndex k ↔ j * r.desc.ssize.bytes < (k + 1) * r.desc.dsize.bytes))
      ∧ (∀ j, j < r.desc.reads →
          (es.filter Event.isAccess)[r.desc.readIndex j]? =
            some (.read c (r.desc.readIndex j) (r.desc.srcAt j) r.desc.ssize.bytes true))
      ∧ (∀ k, k < r.desc.writes → ∃ bs : List Byte, bs.length = r.desc.dsize.bytes
          ∧ (es.filter Event.isAccess)[r.desc.writeIndex k]? =
              some (.write c (r.desc.writeIndex k) (r.desc.dstAt k) r.desc.dsize.bytes bs true)
          ∧ ((∀ x ∈ s.races, x.ch ≠ c) → r.desc.Apart → s.HostKeepsOff r.desc →
              ∀ m, m < r.desc.dsize.bytes →
                bs.getD m 0 = Memory.read s.mem (r.desc.srcByte (k * r.desc.dsize.bytes + m))))

/-- spec/42_transfer_engine.md, closed form of the data movement: with no racing store, source and destination apart, and
no host store to them inside the step, a destination byte that no later byte of the iteration overwrites holds what stood
at its source address (every address is plain memory, log 14). -/
def Obligations.ServiceMovesBytes : Prop :=
  ∀ (s : State) (c : Nat) (r : Channel), s.Due c r → r.desc.Checked → s.NoAccessFails r.desc →
    Memory.wf s.mem = true → (∀ x ∈ s.races, x.ch ≠ c) → r.desc.Apart → s.HostKeepsOff r.desc →
      ∃ t, exec (.service c) s = .next t
        ∧ ∀ i, i < r.desc.nbytes.toNat →
            (∀ j, i < j → j < r.desc.nbytes.toNat → r.desc.dstByte j ≠ r.desc.dstByte i) →
              Memory.read t.mem (r.desc.dstByte i) = Memory.read s.mem (r.desc.srcByte i)

/-- The frame of SERVICE (spec/42_transfer_engine.md R162, R175; spec/60_exceptions.md R206): for any descriptor and
whether or not an access fails, the step answers a next state in which only `saddr`, `daddr`, `citer` and the control
state of its channel may differ, no other channel's registers change, and memory changes at most in the bytes of the
`nd` destination elements and in those the host stores to inside the step. -/
def Obligations.ServiceFrame : Prop :=
  ∀ (s : State) (c : Nat) (r : Channel), s.Due c r →
    ∃ t r', exec (.service c) s = .next t ∧ t.Has c r'
      ∧ r'.desc = { r.desc with saddr := r'.desc.saddr, daddr := r'.desc.daddr, citer := r'.desc.citer }
      ∧ r'.bound = r.bound ∧ r'.ev = r.ev
      ∧ SameChannelsBut c s t ∧ SameInputs s t ∧ t.inside = [] ∧ t.portOut = s.portOut
      ∧ ∀ a, (∀ k, k < r.desc.writes → a ∉ elementAddrs (r.desc.dstAt k) r.desc.dsize.bytes) →
          (∀ x ∈ s.inside, a ∉ x.access.storeAddrs) → Memory.read t.mem a = Memory.read s.mem a

/-- spec/42_transfer_engine.md R175 and spec/60_exceptions.md R206: when the first access of an iteration fails, nothing is
moved, the failing access is the only one, and the channel enters Error: `enable`, `pend` and `valid` are 0, `saddr`,
`daddr` and `citer` take draws (those of the model's counter, log 5) and are unspecified, every other descriptor register
keeps its value, and no interrupt is emitted. That the failing access is an event of the history (spec/00_scope.md R10,
spec/20_memory.md R72) is the model's reading, log 11. -/
def Obligations.FirstAccessFaultEntersError : Prop :=
  ∀ (s : State) (c : Nat) (r : Channel), s.Due c r → r.desc.Checked →
    s.accessFault r.desc.saddr r.desc.ssize.bytes .read = true →
      ∃ t es, exec (.service c) s = .next t
        ∧ t.Has c { r with
            desc := { r.desc with
              saddr := Config.freeWord s.draws, daddr := Config.freeWord (s.draws + 1)
              citer := Config.freeWord (s.draws + 2) }
            st := .error, enable := false, pend := false, valid := false, contents := .workingUnspecified }
        ∧ t.irqs = s.irqs ∧ t.portOut = s.portOut ∧ SameChannelsBut c s t ∧ SameInputs s t ∧ t.inside = []
        ∧ t.accesses = s.accesses + 1 ∧ t.history = s.history ++ es
        ∧ es.filter Event.isAccess = [.read c 0 r.desc.saddr r.desc.ssize.bytes false]
        ∧ (∀ a, (∀ x ∈ s.inside, a ∉ x.access.storeAddrs) → Memory.read t.mem a = Memory.read s.mem a)
        ∧ (s.inside = [] → t.mem = s.mem)

/-- spec/42_transfer_engine.md R175 and spec/60_exceptions.md R205, R206, R212 (b): whichever access of an iteration fails,
the channel ends in Error, and it ends there only if one fails. Then the control state is as the entry to Error writes it,
three working registers take draws (log 5), the others keep their values, no interrupt was emitted, the last iteration of
a major loop included, and the failing access is the last of the engine. Memory holds what the events of the step left, one
after the other: the writes before the failing access have landed, its own bytes have not. Every access of the step, up to
the one that fails, is the read or the write that belongs at its place (R165 to R167), and it fails exactly when the
platform's `AccessFault` holds for it at its time (spec/00_scope.md R10; the time is the count of accesses, log 4). That a
failing access is an event of the history is log 11. -/
def Obligations.FaultLeavesErrorState : Prop :=
  ∀ (s : State) (c : Nat) (r : Channel), s.Due c r →
    ∃ t r' es, exec (.service c) s = .next t ∧ t.Has c r' ∧ t.history = s.history ++ es ∧ t.mem = replay es s.mem
      ∧ ((∃ e ∈ es, Event.failed e = true) ↔ r'.st = .error)
      ∧ (∀ i e, (es.filter Event.isAccess)[i]? = some e →
          (∃ j, i = r.desc.readIndex j
              ∧ e = .read c i (r.desc.srcAt j) r.desc.ssize.bytes
                  (!faultAt s.cfg (s.accesses + i) (r.desc.srcAt j) r.desc.ssize.bytes .read))
            ∨ ∃ k bs, k < r.desc.writes ∧ i = r.desc.writeIndex k ∧ bs.length = r.desc.dsize.bytes
              ∧ e = .write c i (r.desc.dstAt k) r.desc.dsize.bytes bs
                  (!faultAt s.cfg (s.accesses + i) (r.desc.dstAt k) r.desc.dsize.bytes .write))
      ∧ t.accesses = s.accesses + (es.filter Event.isAccess).length
      ∧ (r.desc.Checked → (es.filter Event.isAccess).length ≤ r.desc.reads + r.desc.writes
          ∧ (r'.st ≠ .error → (es.filter Event.isAccess).length = r.desc.reads + r.desc.writes))
      ∧ (r'.st = .error →
          (∃ n, r' = { r with
              desc := { r.desc with
                saddr := Config.freeWord n, daddr := Config.freeWord (n + 1), citer := Config.freeWord (n + 2) }
              st := .error, enable := false, pend := false, valid := false, contents := .workingUnspecified })
            ∧ t.irqs = s.irqs ∧ SameChannelsBut c s t
            ∧ ∃ done e, es.filter Event.isAccess = done ++ [e] ∧ Event.failed e = true
                ∧ ∀ x ∈ done, Event.failed x = false)

/-- spec/42_transfer_engine.md section 2 (the byte queue, the closed form of the data movement) with spec/20_memory.md section 7
(what a read returns, racing or not): for any descriptor, whatever races, falls inside the step or fails, the bytes the
writes carry, in order, are the first of those the reads brought, each read bringing what an element read returns at its
instant; and when a checked iteration went through, the writes carried all of them and the queue is empty. What a racing
read returns is log 10, that every address is plain memory log 14. -/
def Obligations.ServiceWritesWhatItReads : Prop :=
  ∀ (s : State) (c : Nat) (r : Channel), s.Due c r →
    ∃ t r' es, exec (.service c) s = .next t ∧ t.Has c r' ∧ t.history = s.history ++ es
      ∧ es.flatMap Event.bytesWritten <+: bytesBrought es s
      ∧ (r.desc.Checked → r'.st ≠ .error →
          es.flatMap Event.bytesWritten = bytesBrought es s ∧ (bytesBrought es s).length = r.desc.nbytes.toNat)

/-- spec/20_memory.md section 4 (single-copy atomic; an iteration is not atomic toward other agents) and section 7 (one
total order): every access the host makes inside a SERVICE step is one event of the history, in the host's order; if those
before it do not make it wait, it falls after exactly as many element accesses as it names, or after the last one; a load
returns the bytes that memory holds at that point. How the model places them is log 18, that they stand in the history
log 11. -/
def Obligations.HostAccessesFallInsideIteration : Prop :=
  ∀ (s : State) (c : Nat) (r : Channel), s.Due c r →
    ∃ t es, exec (.service c) s = .next t ∧ t.history = s.history ++ es
      ∧ (∀ e ∈ es, Event.isAccess e = true ∨ Event.isHost e = true)
      ∧ (es.filter Event.isHost).length = s.inside.length
      ∧ ∀ i x, s.inside[i]? = some x →
          ∃ before later, es = before ++ x.access.event (replay before s.mem) :: later
            ∧ (before.filter Event.isHost).length = i
            ∧ ((∀ j y, j < i → s.inside[j]? = some y → y.after ≤ x.after) →
                (before.filter Event.isAccess).length = min x.after (es.filter Event.isAccess).length)

/-- spec/43_descriptor_derivation.md, the round-trip law: a major loop run to its end with no fault leaves the source
address at its start plus the net displacement plus `slast`, the count reloaded and the channel Done; the address is the
start again exactly when `slast` is the restoring adjustment, for both values of `P_MLOFF_ON_LAST`; the destination address
has moved by the strides alone (spec/42_transfer_engine.md R177). -/
def Obligations.RoundTripLaw : Prop :=
  ∀ (s : State) (c : Nat) (r : Channel), s.Has c r → r.st = .armed ∨ (r.st = .done ∧ r.enable = true) →
    r.desc.Checked → r.desc.linkEn = false → r.desc.citer = r.desc.biter →
    (∀ n t r', n ≤ r.desc.biter.toNat → serviceRun c n s = some t → t.Has c r' → r'.st ≠ .error) →
      ∃ t r', serviceRun c r.desc.biter.toNat s = some t ∧ t.Has c r'
        ∧ r'.desc.saddr = r.desc.saddr + r.desc.netDisplacement s.cfg.mloffOnLast + r.desc.slast
        ∧ r'.desc.daddr = r.desc.daddr + BitVec.ofNat 32 (r.desc.biter.toNat * r.desc.writes * r.desc.doff.toNat)
        ∧ r'.desc.citer = r.desc.biter ∧ r'.st = .done
        ∧ (r'.desc.saddr = r.desc.saddr ↔ r.desc.slast = r.desc.restoreAdjust s.cfg.mloffOnLast)

/-- spec/43_descriptor_derivation.md, the channel-multiplex layout: the derived descriptor passes the checks, its
`slast` is the restoring adjustment, and its first iteration reads the first word of each of the `C` buffers in
turn. -/
def Obligations.MultiplexLayoutRestores : Prop :=
  ∀ (y : Layout) (last : Bool), 1 ≤ y.count → 1 ≤ y.words → y.size.bytes ∣ y.pitch → y.words * y.size.bytes ≤ y.pitch →
    y.count * y.pitch < 2 ^ 32 → y.size.bytes ∣ y.base.toNat → y.size.bytes ∣ y.fifo.toNat →
      (deriveDescriptor last y).Checked
        ∧ (deriveDescriptor last y).nbytes.toNat * (deriveDescriptor last y).biter.toNat
            = (deriveDescriptor last y).bufbytes.toNat
        ∧ (deriveDescriptor last y).slast = (deriveDescriptor last y).restoreAdjust last
        ∧ (deriveDescriptor last y).reads = y.count
        ∧ ∀ m, m < y.count → (deriveDescriptor last y).srcAt m = y.base + BitVec.ofNat 32 (m * y.pitch)

/-! Reset. -/

/-- spec/70_reset_and_hazards.md section 1 with spec/10_state.md section 8: RESET leaves every channel Idle, disabled, with no
request, no valid descriptor and no binding, every descriptor register unspecified; memory is not touched, the accesses
made before stay made, and no interrupt is emitted. That answers are kept in the state is log 12; that RESET runs only
while no transaction is half received is ResetWaitsForTransaction. -/
def Obligations.ResetQuietensEveryChannel : Prop :=
  ∀ s : State, ∃ t, exec .reset s = .next t ∧ t.chans.length = s.chans.length
    ∧ (∀ c r, t.Has c r → r.st = .idle ∧ r.enable = false ∧ r.pend = false ∧ r.valid = false ∧ r.bound = false
        ∧ r.contents = .unspecified)
    ∧ t.cfg = s.cfg ∧ t.inputs = s.inputs ∧ EngineAtRest s t ∧ t.portOut = s.portOut ∧ t.history = s.history

/-- spec/10_state.md R42 and the invariants at the state after reset: every channel has the control state R42 gives, and
R41, the canonical form of memory, the port's invariant and the history's hold. The number of channels and the parameters are the
model's (log 3) and are not stated. -/
def Obligations.ResetStateIsLegal : Prop :=
  (∀ r ∈ State.reset.chans, r.st = .idle ∧ r.enable = false ∧ r.pend = false ∧ r.valid = false ∧ r.bound = false
      ∧ r.contents = .unspecified)
    ∧ State.reset.Legal ∧ Memory.wf State.reset.mem = true ∧ State.reset.PortWaits ∧ State.reset.inside = []
    ∧ State.reset.mem = replay State.reset.history []

/-! Whole-machine rules. -/

/-- spec/10_state.md section 7: every step from a state in which the invariants of R41 hold for every channel leaves them
holding, and the number of channels in the range of spec/00_scope.md R6. -/
def Obligations.StepKeepsLegal : Prop := ∀ s t : State, s.Legal → step s = .next t → t.Legal

/-- Every step keeps the canonical form of memory (log 7). -/
def Obligations.StepKeepsMemoryCanonical : Prop :=
  ∀ s t : State, Memory.wf s.mem = true → step s = .next t → Memory.wf t.mem = true

/-- spec/20_memory.md section 7, one total order: if memory is what the events of the history made of some first memory, one
after the other, then it is so after every step. That the host's accesses stand in the history is log 11. -/
def Obligations.StepKeepsMemoryHistory : Prop :=
  ∀ (s t : State) (m : Memory), s.mem = replay s.history m → step s = .next t → t.mem = replay t.history m

/-- spec/30_encoding.md section 2: what is half received at the port is never a complete transaction; and no host access
waits inside a step that is over (the model's own field, log 18). -/
def Obligations.StepKeepsPortWaiting : Prop :=
  ∀ s t : State, step s = .next t → (s.PortWaits → t.PortWaits) ∧ (s.inside = [] → t.inside = [])

/-- spec/00_scope.md section 5 and spec/10_state.md section 1: no step changes the parameters or the number of channels. That
memory history, answers and interrupts are kept in the state, and only grow, RESET included, is the model's choice
(log 12). -/
def Obligations.StepKeepsParameters : Prop :=
  ∀ s t : State, step s = .next t → t.cfg = s.cfg ∧ t.chans.length = s.chans.length
    ∧ s.history <+: t.history ∧ s.portOut <+: t.portOut ∧ s.irqs <+: t.irqs

/-- spec/10_state.md section 9: from a state in which R41 holds, a step changes the state of a channel only along an edge
of the transition relation. -/
def Obligations.StateMovesAlongEdges : Prop :=
  ∀ (s t : State) (c : Nat) (r r' : Channel), s.Legal → step s = .next t → s.Has c r → t.Has c r' →
    r'.st = r.st ∨ stEdge r.st r'.st = true

/-- spec/60_exceptions.md section 7: an operation on one channel leaves every other channel's registers unchanged. -/
def Obligations.ChannelsAreIndependent : Prop :=
  ∀ (s t : State) (i : Instr) (c : Nat), targetChannel i = some c → exec i s = .next t → SameChannelsBut c s t

/-- spec/20_memory.md R68: SERVICE is the only instruction that accesses memory. -/
def Obligations.OnlyServiceAccessesMemory : Prop :=
  ∀ (s t : State) (i : Instr), (∀ c, i ≠ .service c) → exec i s = .next t → t.mem = s.mem ∧ t.accesses = s.accesses

/-- spec/10_state.md R21, R30 with spec/70_reset_and_hazards.md R230: which instructions write which registers: the
descriptor registers WRDESC, and SERVICE the three working ones; `st` and `enable` ARM, DISARM, STOP, SERVICE; `pend`
REQ, SERVICE, DISARM, STOP; `valid` WRDESC, SERVICE, STOP; `bound` and `ev` BIND; and RESET all of them. -/
def Obligations.RegisterWriters : Prop :=
  ∀ (s t : State) (i : Instr) (c : Nat) (r r' : Channel), exec i s = .next t → s.Has c r → t.Has c r' → i ≠ .reset →
    (r'.desc ≠ r.desc → (∃ g, i = .wrdesc c g) ∨ i = .service c)
      ∧ (r'.st ≠ r.st ∨ r'.enable ≠ r.enable → i = .arm c ∨ i = .disarm c ∨ i = .stop c ∨ i = .service c)
      ∧ (r'.pend ≠ r.pend → (∃ e, i = .req e) ∨ i = .service c ∨ i = .disarm c ∨ i = .stop c)
      ∧ (r'.valid ≠ r.valid → (∃ g, i = .wrdesc c g) ∨ i = .service c ∨ i = .stop c)
      ∧ (r'.bound ≠ r.bound ∨ r'.ev ≠ r.ev → ∃ e, i = .bind e c)

/-- spec/60_exceptions.md R210 with spec/42_transfer_engine.md R174: an interrupt is emitted only by the SERVICE step that
completes a major loop of a channel whose `int_major` is 1, one per such step. -/
def Obligations.InterruptOnlyOnCompletion : Prop :=
  ∀ (s t : State) (i : Instr), exec i s = .next t → t.irqs ≠ s.irqs →
    ∃ c r r', i = .service c ∧ s.Has c r ∧ t.Has c r' ∧ r.desc.intMajor = true ∧ r.desc.citer = 1 ∧ r.pend = true
      ∧ r'.st = .done ∧ t.irqs = s.irqs ++ [c]

/-- spec/20_memory.md R76: while a channel is not enabled (after an accepted DISARM or STOP, until its next ARM) no access
of it is added to the memory history, in the states of R41. -/
def Obligations.DisabledChannelMakesNoAccess : Prop :=
  ∀ (s t : State) (c : Nat) (r : Channel), s.Legal → s.Has c r → r.enable = false → step s = .next t →
    ∃ es, t.history = s.history ++ es ∧ ∀ e ∈ es, Event.accessOf c e = false

/-- spec/20_memory.md R66: every element access a step adds to the memory history is aligned to its size, in the states of
R41. -/
def Obligations.EveryAccessIsAligned : Prop :=
  ∀ (s t : State), s.Legal → step s = .next t →
    ∃ es, t.history = s.history ++ es ∧
      (∀ c k a n ok, Event.read c k a n ok ∈ es → n ∣ a.toNat)
      ∧ (∀ c k a n bs ok, Event.write c k a n bs ok ∈ es → n ∣ a.toNat)
end

