-- ==== Sys2Proof/Laws/Decode.lean ====
section
/-! SUPPORT. The masks of the operation map as arithmetic, and the fields of a command word. -/

namespace Sys2Proof

theorem toNat_and_mask_ch (w : Word) : (w &&& 0xFFFFFF00#32).toNat = w.toNat / 2 ^ 8 * 2 ^ 8 := by
  have h : w &&& 0xFFFFFF00#32 = (w >>> 8) <<< 8 := by
    ext i hi
    interval_cases i <;> simp
  rw [h, BitVec.toNat_shiftLeft, BitVec.toNat_ushiftRight, Nat.shiftLeft_eq, Nat.shiftRight_eq_div_pow]
  have := w.isLt
  omega

theorem toNat_and_mask_evch (w : Word) : (w &&& 0xFFFF0000#32).toNat = w.toNat / 2 ^ 16 * 2 ^ 16 := by
  have h : w &&& 0xFFFF0000#32 = (w >>> 16) <<< 16 := by
    ext i hi
    interval_cases i <;> simp
  rw [h, BitVec.toNat_shiftLeft, BitVec.toNat_ushiftRight, Nat.shiftLeft_eq, Nat.shiftRight_eq_div_pow]
  have := w.isLt
  omega

theorem toNat_and_mask_low (w : Word) : (w &&& 0x000000FF#32).toNat = w.toNat % 2 ^ 8 := by
  rw [BitVec.toNat_and, show (0x000000FF#32).toNat = 2 ^ 8 - 1 from rfl, Nat.and_two_pow_sub_one_eq_mod]

theorem and_mask_ch_eq (w : Word) (p : Nat) (hp : p < 2 ^ 24) :
    (w &&& 0xFFFFFF00#32 = BitVec.ofNat 32 (p * 2 ^ 8)) ↔ w.toNat / 2 ^ 8 = p := by
  rw [← BitVec.toNat_inj, toNat_and_mask_ch, BitVec.toNat_ofNat]
  omega

theorem and_mask_evch_eq (w : Word) (p : Nat) (hp : p < 2 ^ 16) :
    (w &&& 0xFFFF0000#32 = BitVec.ofNat 32 (p * 2 ^ 16)) ↔ w.toNat / 2 ^ 16 = p := by
  rw [← BitVec.toNat_inj, toNat_and_mask_evch, BitVec.toNat_ofNat]
  omega

/-- The mask of REQ keeps all but the event: the word without `EV` is the pattern exactly when both parts are. -/
theorem and_mask_ev_eq (w : Word) :
    w &&& 0xFFFF00FF#32 = 0x80000000#32 ↔ w.toNat / 2 ^ 16 = 0x8000 ∧ w.toNat % 2 ^ 8 = 0 := by
  have hi := and_mask_evch_eq w 0x8000 (by norm_num)
  have hlo : w &&& 0x000000FF#32 = 0#32 ↔ w.toNat % 2 ^ 8 = 0 := by
    rw [← BitVec.toNat_inj, toNat_and_mask_low]; rfl
  rw [← hi, ← hlo]
  constructor
  · intro h
    constructor
    · have := congrArg (· &&& 0xFFFF0000#32) h
      simpa [BitVec.and_assoc] using this
    · have := congrArg (· &&& 0x000000FF#32) h
      simpa [BitVec.and_assoc] using this
  · rintro ⟨h1, h2⟩
    rw [show (0xFFFF00FF#32) = 0xFFFF0000#32 ||| 0x000000FF#32 from rfl, BitVec.and_or_distrib_left, h1, h2]
    rfl

theorem find?_cons_if {α : Type} (p : α → Bool) (a : α) (l : List α) :
    (a :: l).find? p = if p a = true then some a else l.find? p := by
  rw [List.find?_cons]; cases p a <;> rfl

/-- The operation map as arithmetic on the word's value (spec/30_encoding.md R96): each row's fields other than its
operands, and the listing words only in a listing. -/
theorem selectRow_eq (v : View) (w : Word) :
    selectRow v w =
      if w.toNat / 2 ^ 8 = 0x100000 then some .wrdesc
      else if w.toNat / 2 ^ 8 = 0x200000 then some .arm
      else if w.toNat / 2 ^ 8 = 0x300000 then some .disarm
      else if w.toNat / 2 ^ 8 = 0x400000 then some .status
      else if w.toNat / 2 ^ 16 = 0x5000 then some .bind
      else if w.toNat / 2 ^ 8 = 0x600000 then some .stop
      else if w.toNat / 2 ^ 8 = 0x700000 then some .rddesc
      else if v = .listing ∧ w.toNat / 2 ^ 16 = 0x8000 ∧ w.toNat % 2 ^ 8 = 0 then some .req
      else if v = .listing ∧ w.toNat / 2 ^ 8 = 0x900000 then some .service
      else if v = .listing ∧ w.toNat = 0xA0000000 then some .reset
      else none := by
  have e10 : w &&& 0xFFFFFFFF#32 = 0xA0000000#32 ↔ w.toNat = 0xA0000000 := by
    rw [show (0xFFFFFFFF#32) = BitVec.allOnes 32 from rfl, BitVec.and_allOnes, ← BitVec.toNat_inj]
    rfl
  have q1 : (w &&& 0xFFFFFF00#32 = 0x10000000#32) ↔ w.toNat / 2 ^ 8 = 0x100000 :=
    and_mask_ch_eq w 0x100000 (by norm_num)
  have q2 : (w &&& 0xFFFFFF00#32 = 0x20000000#32) ↔ w.toNat / 2 ^ 8 = 0x200000 :=
    and_mask_ch_eq w 0x200000 (by norm_num)
  have q3 : (w &&& 0xFFFFFF00#32 = 0x30000000#32) ↔ w.toNat / 2 ^ 8 = 0x300000 :=
    and_mask_ch_eq w 0x300000 (by norm_num)
  have q4 : (w &&& 0xFFFFFF00#32 = 0x40000000#32) ↔ w.toNat / 2 ^ 8 = 0x400000 :=
    and_mask_ch_eq w 0x400000 (by norm_num)
  have q6 : (w &&& 0xFFFFFF00#32 = 0x60000000#32) ↔ w.toNat / 2 ^ 8 = 0x600000 :=
    and_mask_ch_eq w 0x600000 (by norm_num)
  have q7 : (w &&& 0xFFFFFF00#32 = 0x70000000#32) ↔ w.toNat / 2 ^ 8 = 0x700000 :=
    and_mask_ch_eq w 0x700000 (by norm_num)
  have q9 : (w &&& 0xFFFFFF00#32 = 0x90000000#32) ↔ w.toNat / 2 ^ 8 = 0x900000 :=
    and_mask_ch_eq w 0x900000 (by norm_num)
  have q5 : (w &&& 0xFFFF0000#32 = 0x50000000#32) ↔ w.toNat / 2 ^ 16 = 0x5000 :=
    and_mask_evch_eq w 0x5000 (by norm_num)
  cases v <;>
    simp only [selectRow, opcodeTable, find?_cons_if, List.find?_nil, apply_ite (Option.map Row.op), Option.map_some,
      Option.map_none, Bool.and_eq_true, Bool.or_eq_true, beq_iff_eq, reduceCtorEq, or_true, or_false, true_and,
      false_and, if_false, q1, q2, q3, q4, q5, q6, q7, and_mask_ev_eq, q9, e10]

/-- The fields of a command word whose operands fit (R91, R99). -/
theorem commandWord_toNat {op ev ch : Nat} (hop : op < 16) (hev : ev < 256) (hch : ch < 256) :
    (commandWord op ev ch).toNat = op * 2 ^ 28 + ev * 2 ^ 8 + ch := by
  unfold commandWord
  rw [BitVec.toNat_ofNat]
  omega

theorem bits_commandWord_ch {op ev ch : Nat} (hop : op < 16) (hev : ev < 256) (hch : ch < 256) :
    bits (commandWord op ev ch) 7 0 = ch := by
  simp only [bits, commandWord_toNat hop hev hch]; omega

theorem bits_commandWord_ev {op ev ch : Nat} (hop : op < 16) (hev : ev < 256) (hch : ch < 256) :
    bits (commandWord op ev ch) 15 8 = ev := by
  simp only [bits, commandWord_toNat hop hev hch]; omega

theorem bits_commandWord_op {op ev ch : Nat} (hop : op < 16) (hev : ev < 256) (hch : ch < 256) :
    bits (commandWord op ev ch) 31 28 = op := by
  simp only [bits, commandWord_toNat hop hev hch]; omega

/-- `OP` of a row (R96, R99). -/
def Opcode.number : Opcode → Nat
  | .wrdesc => 1
  | .arm => 2
  | .disarm => 3
  | .status => 4
  | .bind => 5
  | .stop => 6
  | .rddesc => 7
  | .req => 8
  | .service => 9
  | .reset => 10

/-- The row has an event field (R91, R99). -/
def Opcode.hasEvent (o : Opcode) : Bool := o == .bind || o == .req

/-- The row has a channel field. -/
def Opcode.hasChannel (o : Opcode) : Bool := o != .req && o != .reset

/-- The command word of a row, with 0 in the fields the row does not have, selects it in a listing. -/
theorem selectRow_commandWord (o : Opcode) {ev ch : Nat} (hev : ev < 256) (hch : ch < 256)
    (ze : o.hasEvent = false → ev = 0) (zc : o.hasChannel = false → ch = 0) :
    selectRow .listing (commandWord o.number ev ch) = some o := by
  by_cases h : o = .reset
  · subst h
    obtain rfl := ze rfl
    obtain rfl := zc rfl
    decide
  have q : (o.number * 2 ^ 28 + ev * 2 ^ 8 + ch) / 2 ^ 8 = o.number * 2 ^ 20 + ev := by omega
  have q' : (o.number * 2 ^ 28 + ev * 2 ^ 8 + ch) / 2 ^ 16 = o.number * 2 ^ 12 := by omega
  rw [selectRow_eq, commandWord_toNat (by cases o <;> decide) hev hch, q, q']
  simp only [true_and]
  cases o <;> (try obtain rfl := ze rfl) <;> (try obtain rfl := zc rfl) <;>
    first
    | exact absurd rfl h
    | (repeat rw [if_neg (by simp only [Opcode.number]; omega)])
      rw [if_pos (by simp only [Opcode.number]; omega)]

/-- The image of its words. -/
@[simp] theorem Image.ofWords_words (g : Image) : Image.ofWords g.words = g := rfl

@[simp] theorem Image.words_length (g : Image) : g.words.length = 12 := rfl

end Sys2Proof
end

