-- ==== Sys2Proof/Laws/Memory.lean ====
section
/-! SUPPORT. The laws of memory: a read after a write, the frame of a write, and that every operation keeps the canonical
form. -/

namespace Sys2Proof.Machine

theorem elementAddrs_length (a : Word) (n : Nat) : (elementAddrs a n).length = n := by
  induction n generalizing a with
  | zero => rfl
  | succ n ih => simp [elementAddrs, ih]

@[simp] theorem readBytes_length (m : Memory) (a : Word) (n : Nat) : (Memory.readBytes m a n).length = n := by
  simp [Memory.readBytes, elementAddrs_length]

/-- The addresses of an access are `a +32 k` for `k` below its size (spec/00_scope.md R10). -/
theorem mem_elementAddrs {x n : Nat} {a : Word} :
    x ∈ elementAddrs a n ↔ ∃ k, k < n ∧ x = (a + BitVec.ofNat 32 k).toNat := by
  induction n generalizing a with
  | zero => simp [elementAddrs]
  | succ n ih =>
    simp only [elementAddrs, List.mem_cons, ih]
    constructor
    · rintro (rfl | ⟨k, hk, rfl⟩)
      · exact ⟨0, by omega, by simp⟩
      · refine ⟨k + 1, by omega, ?_⟩
        congr 1
        rw [BitVec.ofNat_add, BitVec.add_assoc, BitVec.add_comm 1]
        rfl
    · rintro ⟨k, hk, rfl⟩
      cases k with
      | zero => left; simp
      | succ k =>
        refine Or.inr ⟨k, by omega, ?_⟩
        congr 1
        rw [BitVec.ofNat_add, BitVec.add_assoc, BitVec.add_comm 1]
        rfl

theorem read_cell (a x : Nat) (v : Byte) (m : Memory) (h : x ≠ a) :
    Memory.read (Memory.cell a v m) x = Memory.read m x := by
  unfold Memory.cell
  split
  · rfl
  · simp [Memory.read, Ne.symm h]

/-- A write leaves every other address alone, whatever the memory. -/
theorem read_write_other (m : Memory) (a x : Nat) (v : Byte) (h : x ≠ a) :
    Memory.read (Memory.write m a v) x = Memory.read m x := by
  induction m with
  | nil => simpa [Memory.write] using read_cell a x v [] h
  | cons hd m ih =>
    obtain ⟨b, w⟩ := hd
    simp only [Memory.write]
    split
    · exact read_cell a x v _ h
    · split
      · rename_i hb
        subst hb
        simp [read_cell a x v m h, Memory.read, Ne.symm h]
      · simp only [Memory.read, ih]

/-- A cell list that starts above an address does not list it. -/
theorem read_below {lo a : Nat} {m : Memory} (h : Memory.wfFrom lo m = true) (ha : a < lo) :
    Memory.read m a = Memory.unlisted := by
  induction m generalizing lo with
  | nil => rfl
  | cons hd m ih =>
    obtain ⟨b, w⟩ := hd
    simp only [Memory.wfFrom, Bool.and_eq_true, decide_eq_true_eq] at h
    simp only [Memory.read]
    rw [if_neg (by omega)]
    exact ih h.2 (by omega)

theorem read_cell_same {lo a : Nat} (v : Byte) {m : Memory} (h : Memory.wfFrom lo m = true) (ha : a < lo) :
    Memory.read (Memory.cell a v m) a = v := by
  unfold Memory.cell
  split
  · rename_i hv; rw [hv]; exact read_below h ha
  · simp [Memory.read]

theorem read_write_same_from {lo : Nat} {m : Memory} (h : Memory.wfFrom lo m = true) (a : Nat) (v : Byte) :
    Memory.read (Memory.write m a v) a = v := by
  induction m generalizing lo with
  | nil => simpa [Memory.write] using read_cell_same (lo := a + 1) v (m := []) rfl (by omega)
  | cons hd m ih =>
    obtain ⟨b, w⟩ := hd
    have h' := h
    simp only [Memory.wfFrom, Bool.and_eq_true, decide_eq_true_eq] at h'
    simp only [Memory.write]
    split
    · refine read_cell_same (lo := b) v ?_ (by omega)
      simp only [Memory.wfFrom, Bool.and_eq_true, decide_eq_true_eq]
      exact ⟨⟨⟨le_refl _, h'.1.1.2⟩, h'.1.2⟩, h'.2⟩
    · split
      · rename_i hb; subst hb
        exact read_cell_same (lo := a + 1) v h'.2 (by omega)
      · rename_i hab hne
        simp only [Memory.read]
        rw [if_neg (by omega)]
        exact ih h'.2

/-- A read after a write to the same address gives the byte written, in a canonical memory. -/
theorem read_write_same {m : Memory} (h : Memory.wf m = true) (a : Nat) (v : Byte) :
    Memory.read (Memory.write m a v) a = v := read_write_same_from h a v

theorem wfFrom_mono {lo lo' : Nat} {m : Memory} (h : Memory.wfFrom lo m = true) (hl : lo' ≤ lo) :
    Memory.wfFrom lo' m = true := by
  cases m with
  | nil => rfl
  | cons hd m =>
    obtain ⟨b, w⟩ := hd
    simp only [Memory.wfFrom, Bool.and_eq_true, decide_eq_true_eq] at h ⊢
    exact ⟨⟨⟨by omega, h.1.1.2⟩, h.1.2⟩, h.2⟩

theorem wfFrom_cell {lo a : Nat} {v : Byte} {m : Memory} (h : Memory.wfFrom (a + 1) m = true) (hlo : lo ≤ a)
    (ha : a < 2 ^ 32) : Memory.wfFrom lo (Memory.cell a v m) = true := by
  unfold Memory.cell
  split
  · exact wfFrom_mono h (by omega)
  · rename_i hv
    simp only [Memory.wfFrom, Bool.and_eq_true, decide_eq_true_eq, bne_iff_ne, ne_eq]
    exact ⟨⟨⟨hlo, ha⟩, hv⟩, h⟩

theorem wfFrom_write {lo : Nat} {m : Memory} (h : Memory.wfFrom lo m = true) {a : Nat} (v : Byte) (hlo : lo ≤ a)
    (ha : a < 2 ^ 32) : Memory.wfFrom lo (Memory.write m a v) = true := by
  induction m generalizing lo with
  | nil => exact wfFrom_cell rfl hlo ha
  | cons hd m ih =>
    obtain ⟨b, w⟩ := hd
    have h' := h
    simp only [Memory.wfFrom, Bool.and_eq_true, decide_eq_true_eq] at h'
    simp only [Memory.write]
    split
    · rename_i hab
      refine wfFrom_cell ?_ hlo ha
      simp only [Memory.wfFrom, Bool.and_eq_true, decide_eq_true_eq]
      exact ⟨⟨⟨by omega, h'.1.1.2⟩, h'.1.2⟩, h'.2⟩
    · split
      · rename_i hb; subst hb
        exact wfFrom_cell h'.2 hlo ha
      · rename_i hab hne
        simp only [Memory.wfFrom, Bool.and_eq_true, decide_eq_true_eq]
        exact ⟨⟨⟨h'.1.1.1, h'.1.1.2⟩, h'.1.2⟩, ih h'.2 (by omega)⟩

/-- A write of a byte of the address space keeps the canonical form. -/
theorem write_wf {m : Memory} (h : Memory.wf m = true) {a : Nat} (v : Byte) (ha : a < 2 ^ 32) :
    Memory.wf (Memory.write m a v) = true := wfFrom_write h v (Nat.zero_le a) ha

/-- A store keeps the canonical form. -/
theorem writeBytes_wf {m : Memory} (h : Memory.wf m = true) (a : Word) (bs : List Byte) :
    Memory.wf (Memory.writeBytes m a bs) = true := by
  induction bs generalizing m a with
  | nil => exact h
  | cons b bs ih => exact ih (write_wf h b a.isLt) (a + 1)

/-- A store leaves every byte outside its addresses alone, whatever the memory. -/
theorem read_writeBytes_other (m : Memory) (a : Word) (bs : List Byte) (x : Nat) (h : x ∉ elementAddrs a bs.length) :
    Memory.read (Memory.writeBytes m a bs) x = Memory.read m x := by
  induction bs generalizing m a with
  | nil => rfl
  | cons b bs ih =>
    simp only [List.length_cons, elementAddrs, List.mem_cons, not_or] at h
    simp only [Memory.writeBytes]
    rw [ih _ _ h.2, read_write_other _ _ _ _ h.1]

/-- In a canonical memory a store puts each byte at its address, when it is no longer than the address space. -/
theorem read_writeBytes_at {m : Memory} (h : Memory.wf m = true) (a : Word) (bs : List Byte) (hl : bs.length ≤ 2 ^ 32)
    (k : Nat) (hk : k < bs.length) :
    Memory.read (Memory.writeBytes m a bs) (a + BitVec.ofNat 32 k).toNat = bs[k] := by
  induction bs generalizing m a k with
  | nil => simp at hk
  | cons b bs ih =>
    simp only [Memory.writeBytes]
    simp only [List.length_cons] at hl hk
    cases k with
    | zero =>
      rw [read_writeBytes_other]
      · simpa using read_write_same h a.toNat b
      · rw [mem_elementAddrs]
        rintro ⟨j, hj, he⟩
        simp only [BitVec.toNat_add, BitVec.toNat_ofNat] at he
        have := a.isLt
        have h1 : BitVec.toNat (1 : Word) = 1 := rfl
        omega
    | succ k =>
      have := ih (write_wf h b a.isLt) (a + 1) (by omega) k (by omega)
      rw [BitVec.ofNat_add, BitVec.add_comm (BitVec.ofNat 32 k), ← BitVec.add_assoc]
      simpa using this

end Sys2Proof.Machine
end

