-- ==== Sys2Proof/Laws/State.lean ====
section
/-! SUPPORT. One lemma per field per update of the state, true by unfolding it once. -/

namespace Sys2Proof.Machine

@[simp] theorem State.setChan_chans (s : State) (c : Nat) (r : Channel) : (s.setChan c r).chans = s.chans.set c r := rfl
@[simp] theorem State.setChan_cfg (s : State) (c : Nat) (r : Channel) : (s.setChan c r).cfg = s.cfg := rfl
@[simp] theorem State.setChan_mem (s : State) (c : Nat) (r : Channel) : (s.setChan c r).mem = s.mem := rfl
@[simp] theorem State.setChan_races (s : State) (c : Nat) (r : Channel) : (s.setChan c r).races = s.races := rfl
@[simp] theorem State.setChan_inputs (s : State) (c : Nat) (r : Channel) : (s.setChan c r).inputs = s.inputs := rfl
@[simp] theorem State.setChan_inside (s : State) (c : Nat) (r : Channel) : (s.setChan c r).inside = s.inside := rfl
@[simp] theorem State.setChan_rx (s : State) (c : Nat) (r : Channel) : (s.setChan c r).rx = s.rx := rfl
@[simp] theorem State.setChan_portOut (s : State) (c : Nat) (r : Channel) : (s.setChan c r).portOut = s.portOut := rfl
@[simp] theorem State.setChan_irqs (s : State) (c : Nat) (r : Channel) : (s.setChan c r).irqs = s.irqs := rfl
@[simp] theorem State.setChan_history (s : State) (c : Nat) (r : Channel) : (s.setChan c r).history = s.history := rfl
@[simp] theorem State.setChan_accesses (s : State) (c : Nat) (r : Channel) : (s.setChan c r).accesses = s.accesses := rfl
@[simp] theorem State.setChan_draws (s : State) (c : Nat) (r : Channel) : (s.setChan c r).draws = s.draws := rfl

@[simp] theorem State.putWords_chans (s : State) (ws : List Word) : (s.putWords ws).chans = s.chans := rfl
@[simp] theorem State.putWords_cfg (s : State) (ws : List Word) : (s.putWords ws).cfg = s.cfg := rfl
@[simp] theorem State.putWords_mem (s : State) (ws : List Word) : (s.putWords ws).mem = s.mem := rfl
@[simp] theorem State.putWords_races (s : State) (ws : List Word) : (s.putWords ws).races = s.races := rfl
@[simp] theorem State.putWords_inputs (s : State) (ws : List Word) : (s.putWords ws).inputs = s.inputs := rfl
@[simp] theorem State.putWords_inside (s : State) (ws : List Word) : (s.putWords ws).inside = s.inside := rfl
@[simp] theorem State.putWords_rx (s : State) (ws : List Word) : (s.putWords ws).rx = s.rx := rfl
@[simp] theorem State.putWords_portOut (s : State) (ws : List Word) : (s.putWords ws).portOut = s.portOut ++ ws := rfl
@[simp] theorem State.putWords_irqs (s : State) (ws : List Word) : (s.putWords ws).irqs = s.irqs := rfl
@[simp] theorem State.putWords_history (s : State) (ws : List Word) : (s.putWords ws).history = s.history := rfl
@[simp] theorem State.putWords_accesses (s : State) (ws : List Word) : (s.putWords ws).accesses = s.accesses := rfl
@[simp] theorem State.putWords_draws (s : State) (ws : List Word) : (s.putWords ws).draws = s.draws := rfl

@[simp] theorem State.answer_chans (s : State) (a : Answer) : (s.answer a).chans = s.chans := rfl
@[simp] theorem State.answer_cfg (s : State) (a : Answer) : (s.answer a).cfg = s.cfg := rfl
@[simp] theorem State.answer_mem (s : State) (a : Answer) : (s.answer a).mem = s.mem := rfl
@[simp] theorem State.answer_races (s : State) (a : Answer) : (s.answer a).races = s.races := rfl
@[simp] theorem State.answer_inputs (s : State) (a : Answer) : (s.answer a).inputs = s.inputs := rfl
@[simp] theorem State.answer_inside (s : State) (a : Answer) : (s.answer a).inside = s.inside := rfl
@[simp] theorem State.answer_rx (s : State) (a : Answer) : (s.answer a).rx = s.rx := rfl
@[simp] theorem State.answer_portOut (s : State) (a : Answer) : (s.answer a).portOut = s.portOut ++ [a.word] := rfl
@[simp] theorem State.answer_irqs (s : State) (a : Answer) : (s.answer a).irqs = s.irqs := rfl
@[simp] theorem State.answer_history (s : State) (a : Answer) : (s.answer a).history = s.history := rfl
@[simp] theorem State.answer_accesses (s : State) (a : Answer) : (s.answer a).accesses = s.accesses := rfl
@[simp] theorem State.answer_draws (s : State) (a : Answer) : (s.answer a).draws = s.draws := rfl

@[simp] theorem State.record_chans (s : State) (e : Event) : (s.record e).chans = s.chans := rfl
@[simp] theorem State.record_cfg (s : State) (e : Event) : (s.record e).cfg = s.cfg := rfl
@[simp] theorem State.record_mem (s : State) (e : Event) : (s.record e).mem = s.mem := rfl
@[simp] theorem State.record_races (s : State) (e : Event) : (s.record e).races = s.races := rfl
@[simp] theorem State.record_inputs (s : State) (e : Event) : (s.record e).inputs = s.inputs := rfl
@[simp] theorem State.record_inside (s : State) (e : Event) : (s.record e).inside = s.inside := rfl
@[simp] theorem State.record_rx (s : State) (e : Event) : (s.record e).rx = s.rx := rfl
@[simp] theorem State.record_portOut (s : State) (e : Event) : (s.record e).portOut = s.portOut := rfl
@[simp] theorem State.record_irqs (s : State) (e : Event) : (s.record e).irqs = s.irqs := rfl
@[simp] theorem State.record_history (s : State) (e : Event) : (s.record e).history = s.history ++ [e] := rfl
@[simp] theorem State.record_accesses (s : State) (e : Event) : (s.record e).accesses = s.accesses := rfl
@[simp] theorem State.record_draws (s : State) (e : Event) : (s.record e).draws = s.draws := rfl

@[simp] theorem State.drew_chans (s : State) (n : Nat) : (s.drew n).chans = s.chans := rfl
@[simp] theorem State.drew_cfg (s : State) (n : Nat) : (s.drew n).cfg = s.cfg := rfl
@[simp] theorem State.drew_mem (s : State) (n : Nat) : (s.drew n).mem = s.mem := rfl
@[simp] theorem State.drew_races (s : State) (n : Nat) : (s.drew n).races = s.races := rfl
@[simp] theorem State.drew_inputs (s : State) (n : Nat) : (s.drew n).inputs = s.inputs := rfl
@[simp] theorem State.drew_inside (s : State) (n : Nat) : (s.drew n).inside = s.inside := rfl
@[simp] theorem State.drew_rx (s : State) (n : Nat) : (s.drew n).rx = s.rx := rfl
@[simp] theorem State.drew_portOut (s : State) (n : Nat) : (s.drew n).portOut = s.portOut := rfl
@[simp] theorem State.drew_irqs (s : State) (n : Nat) : (s.drew n).irqs = s.irqs := rfl
@[simp] theorem State.drew_history (s : State) (n : Nat) : (s.drew n).history = s.history := rfl
@[simp] theorem State.drew_accesses (s : State) (n : Nat) : (s.drew n).accesses = s.accesses := rfl
@[simp] theorem State.drew_draws (s : State) (n : Nat) : (s.drew n).draws = s.draws + n := rfl

@[simp] theorem State.emitIrq_chans (s : State) (c : Nat) : (s.emitIrq c).chans = s.chans := rfl
@[simp] theorem State.emitIrq_cfg (s : State) (c : Nat) : (s.emitIrq c).cfg = s.cfg := rfl
@[simp] theorem State.emitIrq_mem (s : State) (c : Nat) : (s.emitIrq c).mem = s.mem := rfl
@[simp] theorem State.emitIrq_races (s : State) (c : Nat) : (s.emitIrq c).races = s.races := rfl
@[simp] theorem State.emitIrq_inputs (s : State) (c : Nat) : (s.emitIrq c).inputs = s.inputs := rfl
@[simp] theorem State.emitIrq_inside (s : State) (c : Nat) : (s.emitIrq c).inside = s.inside := rfl
@[simp] theorem State.emitIrq_rx (s : State) (c : Nat) : (s.emitIrq c).rx = s.rx := rfl
@[simp] theorem State.emitIrq_portOut (s : State) (c : Nat) : (s.emitIrq c).portOut = s.portOut := rfl
@[simp] theorem State.emitIrq_irqs (s : State) (c : Nat) : (s.emitIrq c).irqs = s.irqs ++ [c] := rfl
@[simp] theorem State.emitIrq_history (s : State) (c : Nat) : (s.emitIrq c).history = s.history := rfl
@[simp] theorem State.emitIrq_accesses (s : State) (c : Nat) : (s.emitIrq c).accesses = s.accesses := rfl
@[simp] theorem State.emitIrq_draws (s : State) (c : Nat) : (s.emitIrq c).draws = s.draws := rfl

@[simp] theorem State.accessed_chans (s : State) (e : Event) : (s.accessed e).chans = s.chans := rfl
@[simp] theorem State.accessed_cfg (s : State) (e : Event) : (s.accessed e).cfg = s.cfg := rfl
@[simp] theorem State.accessed_mem (s : State) (e : Event) : (s.accessed e).mem = s.mem := rfl
@[simp] theorem State.accessed_races (s : State) (e : Event) : (s.accessed e).races = s.races := rfl
@[simp] theorem State.accessed_inputs (s : State) (e : Event) : (s.accessed e).inputs = s.inputs := rfl
@[simp] theorem State.accessed_inside (s : State) (e : Event) : (s.accessed e).inside = s.inside := rfl
@[simp] theorem State.accessed_rx (s : State) (e : Event) : (s.accessed e).rx = s.rx := rfl
@[simp] theorem State.accessed_portOut (s : State) (e : Event) : (s.accessed e).portOut = s.portOut := rfl
@[simp] theorem State.accessed_irqs (s : State) (e : Event) : (s.accessed e).irqs = s.irqs := rfl
@[simp] theorem State.accessed_history (s : State) (e : Event) : (s.accessed e).history = s.history ++ [e] := rfl
@[simp] theorem State.accessed_accesses (s : State) (e : Event) : (s.accessed e).accesses = s.accesses + 1 := rfl
@[simp] theorem State.accessed_draws (s : State) (e : Event) : (s.accessed e).draws = s.draws := rfl

@[simp] theorem State.engineStore_chans (s : State) (a : Word) (bs : List Byte) : (s.engineStore a bs).chans = s.chans := rfl
@[simp] theorem State.engineStore_cfg (s : State) (a : Word) (bs : List Byte) : (s.engineStore a bs).cfg = s.cfg := rfl
@[simp] theorem State.engineStore_mem (s : State) (a : Word) (bs : List Byte) : (s.engineStore a bs).mem = s.mem.writeBytes a bs := rfl
@[simp] theorem State.engineStore_races (s : State) (a : Word) (bs : List Byte) : (s.engineStore a bs).races = s.races.map (RacingStore.forget (elementAddrs a bs.length)) := rfl
@[simp] theorem State.engineStore_inputs (s : State) (a : Word) (bs : List Byte) : (s.engineStore a bs).inputs = s.inputs := rfl
@[simp] theorem State.engineStore_inside (s : State) (a : Word) (bs : List Byte) : (s.engineStore a bs).inside = s.inside := rfl
@[simp] theorem State.engineStore_rx (s : State) (a : Word) (bs : List Byte) : (s.engineStore a bs).rx = s.rx := rfl
@[simp] theorem State.engineStore_portOut (s : State) (a : Word) (bs : List Byte) : (s.engineStore a bs).portOut = s.portOut := rfl
@[simp] theorem State.engineStore_irqs (s : State) (a : Word) (bs : List Byte) : (s.engineStore a bs).irqs = s.irqs := rfl
@[simp] theorem State.engineStore_history (s : State) (a : Word) (bs : List Byte) : (s.engineStore a bs).history = s.history := rfl
@[simp] theorem State.engineStore_accesses (s : State) (a : Word) (bs : List Byte) : (s.engineStore a bs).accesses = s.accesses := rfl
@[simp] theorem State.engineStore_draws (s : State) (a : Word) (bs : List Byte) : (s.engineStore a bs).draws = s.draws := rfl

@[simp] theorem State.publish_chans (s : State) (c : Nat) : (s.publish c).chans = s.chans := rfl
@[simp] theorem State.publish_cfg (s : State) (c : Nat) : (s.publish c).cfg = s.cfg := rfl
@[simp] theorem State.publish_mem (s : State) (c : Nat) : (s.publish c).mem = s.mem := rfl
@[simp] theorem State.publish_races (s : State) (c : Nat) : (s.publish c).races = s.races.filter fun r => r.ch != c := rfl
@[simp] theorem State.publish_inputs (s : State) (c : Nat) : (s.publish c).inputs = s.inputs := rfl
@[simp] theorem State.publish_inside (s : State) (c : Nat) : (s.publish c).inside = s.inside := rfl
@[simp] theorem State.publish_rx (s : State) (c : Nat) : (s.publish c).rx = s.rx := rfl
@[simp] theorem State.publish_portOut (s : State) (c : Nat) : (s.publish c).portOut = s.portOut := rfl
@[simp] theorem State.publish_irqs (s : State) (c : Nat) : (s.publish c).irqs = s.irqs := rfl
@[simp] theorem State.publish_history (s : State) (c : Nat) : (s.publish c).history = s.history := rfl
@[simp] theorem State.publish_accesses (s : State) (c : Nat) : (s.publish c).accesses = s.accesses := rfl
@[simp] theorem State.publish_draws (s : State) (c : Nat) : (s.publish c).draws = s.draws := rfl

@[simp] theorem State.hostStore_chans (s : State) (a : Word) (bs : List Byte) : (s.hostStore a bs).chans = s.chans := rfl
@[simp] theorem State.hostStore_cfg (s : State) (a : Word) (bs : List Byte) : (s.hostStore a bs).cfg = s.cfg := rfl
@[simp] theorem State.hostStore_mem (s : State) (a : Word) (bs : List Byte) : (s.hostStore a bs).mem = s.mem.writeBytes a bs := rfl
@[simp] theorem State.hostStore_inputs (s : State) (a : Word) (bs : List Byte) : (s.hostStore a bs).inputs = s.inputs := rfl
@[simp] theorem State.hostStore_inside (s : State) (a : Word) (bs : List Byte) : (s.hostStore a bs).inside = s.inside := rfl
@[simp] theorem State.hostStore_rx (s : State) (a : Word) (bs : List Byte) : (s.hostStore a bs).rx = s.rx := rfl
@[simp] theorem State.hostStore_portOut (s : State) (a : Word) (bs : List Byte) : (s.hostStore a bs).portOut = s.portOut := rfl
@[simp] theorem State.hostStore_irqs (s : State) (a : Word) (bs : List Byte) : (s.hostStore a bs).irqs = s.irqs := rfl
@[simp] theorem State.hostStore_history (s : State) (a : Word) (bs : List Byte) : (s.hostStore a bs).history = s.history ++ [.hostStore a bs] := rfl
@[simp] theorem State.hostStore_accesses (s : State) (a : Word) (bs : List Byte) : (s.hostStore a bs).accesses = s.accesses := rfl
@[simp] theorem State.hostStore_draws (s : State) (a : Word) (bs : List Byte) : (s.hostStore a bs).draws = s.draws := rfl

@[simp] theorem State.enterError_chans (s : State) (c : Nat) (r : Channel) : (s.enterError c r).chans = s.chans.set c (r.failed s.draws) := rfl
@[simp] theorem State.enterError_cfg (s : State) (c : Nat) (r : Channel) : (s.enterError c r).cfg = s.cfg := rfl
@[simp] theorem State.enterError_mem (s : State) (c : Nat) (r : Channel) : (s.enterError c r).mem = s.mem := rfl
@[simp] theorem State.enterError_races (s : State) (c : Nat) (r : Channel) : (s.enterError c r).races = s.races := rfl
@[simp] theorem State.enterError_inputs (s : State) (c : Nat) (r : Channel) : (s.enterError c r).inputs = s.inputs := rfl
@[simp] theorem State.enterError_inside (s : State) (c : Nat) (r : Channel) : (s.enterError c r).inside = s.inside := rfl
@[simp] theorem State.enterError_rx (s : State) (c : Nat) (r : Channel) : (s.enterError c r).rx = s.rx := rfl
@[simp] theorem State.enterError_portOut (s : State) (c : Nat) (r : Channel) : (s.enterError c r).portOut = s.portOut := rfl
@[simp] theorem State.enterError_irqs (s : State) (c : Nat) (r : Channel) : (s.enterError c r).irqs = s.irqs := rfl
@[simp] theorem State.enterError_history (s : State) (c : Nat) (r : Channel) : (s.enterError c r).history = s.history := rfl
@[simp] theorem State.enterError_accesses (s : State) (c : Nat) (r : Channel) : (s.enterError c r).accesses = s.accesses := rfl
@[simp] theorem State.enterError_draws (s : State) (c : Nat) (r : Channel) : (s.enterError c r).draws = s.draws + 3 := rfl

/-! A host access changes memory, the racing stores and the history only, and those inside a step the list that waits. -/

@[simp] theorem State.hostAccess_chans (s : State) (x : HostAccess) : (s.hostAccess x).chans = s.chans := by cases x <;> rfl
@[simp] theorem State.hostAccess_cfg (s : State) (x : HostAccess) : (s.hostAccess x).cfg = s.cfg := by cases x <;> rfl
@[simp] theorem State.hostAccess_inputs (s : State) (x : HostAccess) : (s.hostAccess x).inputs = s.inputs := by cases x <;> rfl
@[simp] theorem State.hostAccess_inside (s : State) (x : HostAccess) : (s.hostAccess x).inside = s.inside := by cases x <;> rfl
@[simp] theorem State.hostAccess_rx (s : State) (x : HostAccess) : (s.hostAccess x).rx = s.rx := by cases x <;> rfl
@[simp] theorem State.hostAccess_portOut (s : State) (x : HostAccess) : (s.hostAccess x).portOut = s.portOut := by cases x <;> rfl
@[simp] theorem State.hostAccess_irqs (s : State) (x : HostAccess) : (s.hostAccess x).irqs = s.irqs := by cases x <;> rfl
@[simp] theorem State.hostAccess_accesses (s : State) (x : HostAccess) : (s.hostAccess x).accesses = s.accesses := by cases x <;> rfl
@[simp] theorem State.hostAccess_draws (s : State) (x : HostAccess) : (s.hostAccess x).draws = s.draws := by cases x <;> rfl

/-- What every host access keeps, and the list of those that wait does not change, stays while host accesses take effect
inside a step. -/
theorem landInside_keeps {α : Type} (f : State → α) (hx : ∀ s x, f (State.hostAccess s x) = f s)
    (hi : ∀ s xs, f { s with inside := xs } = f s) (due : InsideAccess → Bool) (xs : List InsideAccess) (s : State) :
    f (landInside due xs s) = f s := by
  induction xs generalizing s with
  | nil => exact hi s []
  | cons x xs ih =>
    simp only [landInside]
    split
    · exact (ih _).trans (hx s x.access)
    · exact hi s _

@[simp] theorem State.hostBefore_chans (s : State) (i : Nat) : (s.hostBefore i).chans = s.chans :=
  landInside_keeps (·.chans) State.hostAccess_chans (fun _ _ => rfl) _ _ _
@[simp] theorem State.hostRest_chans (s : State) : s.hostRest.chans = s.chans :=
  landInside_keeps (·.chans) State.hostAccess_chans (fun _ _ => rfl) _ _ _
@[simp] theorem State.hostBefore_cfg (s : State) (i : Nat) : (s.hostBefore i).cfg = s.cfg :=
  landInside_keeps (·.cfg) State.hostAccess_cfg (fun _ _ => rfl) _ _ _
@[simp] theorem State.hostRest_cfg (s : State) : s.hostRest.cfg = s.cfg :=
  landInside_keeps (·.cfg) State.hostAccess_cfg (fun _ _ => rfl) _ _ _
@[simp] theorem State.hostBefore_inputs (s : State) (i : Nat) : (s.hostBefore i).inputs = s.inputs :=
  landInside_keeps (·.inputs) State.hostAccess_inputs (fun _ _ => rfl) _ _ _
@[simp] theorem State.hostRest_inputs (s : State) : s.hostRest.inputs = s.inputs :=
  landInside_keeps (·.inputs) State.hostAccess_inputs (fun _ _ => rfl) _ _ _
@[simp] theorem State.hostBefore_rx (s : State) (i : Nat) : (s.hostBefore i).rx = s.rx :=
  landInside_keeps (·.rx) State.hostAccess_rx (fun _ _ => rfl) _ _ _
@[simp] theorem State.hostRest_rx (s : State) : s.hostRest.rx = s.rx :=
  landInside_keeps (·.rx) State.hostAccess_rx (fun _ _ => rfl) _ _ _
@[simp] theorem State.hostBefore_portOut (s : State) (i : Nat) : (s.hostBefore i).portOut = s.portOut :=
  landInside_keeps (·.portOut) State.hostAccess_portOut (fun _ _ => rfl) _ _ _
@[simp] theorem State.hostRest_portOut (s : State) : s.hostRest.portOut = s.portOut :=
  landInside_keeps (·.portOut) State.hostAccess_portOut (fun _ _ => rfl) _ _ _
@[simp] theorem State.hostBefore_irqs (s : State) (i : Nat) : (s.hostBefore i).irqs = s.irqs :=
  landInside_keeps (·.irqs) State.hostAccess_irqs (fun _ _ => rfl) _ _ _
@[simp] theorem State.hostRest_irqs (s : State) : s.hostRest.irqs = s.irqs :=
  landInside_keeps (·.irqs) State.hostAccess_irqs (fun _ _ => rfl) _ _ _
@[simp] theorem State.hostBefore_accesses (s : State) (i : Nat) : (s.hostBefore i).accesses = s.accesses :=
  landInside_keeps (·.accesses) State.hostAccess_accesses (fun _ _ => rfl) _ _ _
@[simp] theorem State.hostRest_accesses (s : State) : s.hostRest.accesses = s.accesses :=
  landInside_keeps (·.accesses) State.hostAccess_accesses (fun _ _ => rfl) _ _ _
@[simp] theorem State.hostBefore_draws (s : State) (i : Nat) : (s.hostBefore i).draws = s.draws :=
  landInside_keeps (·.draws) State.hostAccess_draws (fun _ _ => rfl) _ _ _
@[simp] theorem State.hostRest_draws (s : State) : s.hostRest.draws = s.draws :=
  landInside_keeps (·.draws) State.hostAccess_draws (fun _ _ => rfl) _ _ _

/-- After the step no host access waits inside it. -/
@[simp] theorem State.hostRest_inside (s : State) : s.hostRest.inside = [] := by
  suffices h : ∀ (xs : List InsideAccess) (t : State), (landInside (fun _ => true) xs t).inside = [] from h _ _
  intro xs
  induction xs with
  | nil => intro t; rfl
  | cons x xs ih => intro t; simpa [landInside] using ih _

/-- With no host access inside the step nothing happens before an access or after the last one. -/
theorem State.hostBefore_none {s : State} (h : s.inside = []) (i : Nat) : s.hostBefore i = s := by
  obtain ⟨⟩ := s; subst h; rfl

theorem State.hostRest_none {s : State} (h : s.inside = []) : s.hostRest = s := by
  obtain ⟨⟩ := s; subst h; rfl

end Sys2Proof.Machine
end

