-- ==== Sys2Proof/Laws/Ops.lean ====
section
/-! SUPPORT. For each shared operation, what it can do, said once. -/

namespace Sys2Proof.Machine

/-! Channel register sets. -/

theorem State.Has.lt {s : State} {c : Nat} {r : Channel} (h : s.Has c r) : c < s.chans.length := by
  obtain ⟨hc, _⟩ := List.getElem?_eq_some_iff.mp h
  exact hc

theorem State.Has.mem {s : State} {c : Nat} {r : Channel} (h : s.Has c r) : r ∈ s.chans :=
  List.mem_of_getElem? h

/-- Reading a channel just written. -/
theorem chan?_setChan_same {s : State} {c : Nat} {r r' : Channel} (h : s.Has c r) : (s.setChan c r').chan? c = some r' := by
  have := h.lt
  simp [State.chan?, this]

/-- Writing one channel leaves the others. -/
theorem chan?_setChan_other (s : State) (c k : Nat) (r : Channel) (h : k ≠ c) : (s.setChan c r).chan? k = s.chan? k := by
  simp [State.chan?, List.getElem?_set_ne (Ne.symm h)]

theorem sameChannelsBut_setChan (s : State) (c : Nat) (r : Channel) : SameChannelsBut c s (s.setChan c r) :=
  ⟨by simp, fun k hk => chan?_setChan_other s c k r hk⟩

theorem SameChannelsBut.refl (c : Nat) (s : State) : SameChannelsBut c s s := ⟨rfl, fun _ _ => rfl⟩

/-- A channel property that the written register set has and the others keep holds of every channel. -/
theorem forall_setChan {P : Channel → Prop} {s : State} {c : Nat} {r : Channel} (hs : ∀ x ∈ s.chans, P x) (hr : P r) :
    ∀ x ∈ (s.setChan c r).chans, P x := by
  intro x hx
  rcases List.mem_or_eq_of_mem_set hx with h | h
  · exact hs x h
  · exact h ▸ hr

/-! Port operations. -/

/-- An operation on a channel the block has is the operation on its register set. -/
theorem onChannel_has {s : State} {c : Nat} {r : Channel} (h : s.Has c r)
    (op : Channel → Host.Outcome State Fault Refusal) : onChannel c s op = op r := by
  have h' : s.chan? c = some r := h
  simp [onChannel, h']

/-- An operation on a channel the block does not have raises PV_BADCMD. -/
theorem onChannel_none {s : State} {c : Nat} (h : s.chan? c = none)
    (op : Channel → Host.Outcome State Fault Refusal) : onChannel c s op = raise (.preconditionViolation .badCmd) s := by
  simp [onChannel, h]

/-- If an operation on a channel answers a next state, either the channel does not exist and only the answer changed, or
the operation on its register set gave it. -/
theorem onChannel_next {s t : State} {c : Nat} {op : Channel → Host.Outcome State Fault Refusal}
    (h : onChannel c s op = .next t) :
    (s.chan? c = none ∧ t = s.answer (.preconditionViolation .badCmd)) ∨ ∃ r, s.Has c r ∧ op r = .next t := by
  unfold onChannel at h
  split at h
  · rename_i hn
    exact .inl ⟨hn, by simpa [raise] using h.symm⟩
  · rename_i r hr
    exact .inr ⟨r, hr, h⟩

@[simp] theorem raise_next (a : Answer) (s t : State) : raise a s = .next t ↔ s.answer a = t := by simp [raise]

/-! Element accesses. -/

/-- A read at its instant: it fails, or it returns the element's bytes; memory and the channels stay either way. -/
theorem readNow_spec (s : State) (c i : Nat) (a : Word) (n : Nat) :
    (s.accessFault a n .read = true ∧ s.readNow c i a n = (s.accessed (.read c i a n false), none))
      ∨ (s.accessFault a n .read = false
          ∧ s.readNow c i a n
              = ((s.drew (s.readDraws c a n)).accessed (.read c i a n true), some (s.readElement c a n))) := by
  unfold State.readNow
  cases h : s.accessFault a n .read <;> simp

/-- A write at its instant: it fails and memory stays, or its bytes land. -/
theorem writeNow_spec (s : State) (c i : Nat) (a : Word) (n : Nat) (bs : List Byte) :
    (s.accessFault a n .write = true ∧ s.writeNow c i a n bs = (s.accessed (.write c i a n bs false), false))
      ∨ (s.accessFault a n .write = false
          ∧ s.writeNow c i a n bs = ((s.engineStore a bs).accessed (.write c i a n bs true), true)) := by
  unfold State.writeNow
  cases h : s.accessFault a n .write <;> simp

/-- The fault predicate asks the parameters and the time only, which no host access changes. -/
@[simp] theorem accessFault_hostBefore (s : State) (i : Nat) (a : Word) (n : Nat) (k : AccessKind) :
    (s.hostBefore i).accessFault a n k = s.accessFault a n k := by
  simp [State.accessFault]

/-- A property of states that every host access keeps, whichever wait inside the step, holds after those that are due. -/
theorem landInside_inv {P : State → Prop} (hx : ∀ s x, P s → P (s.hostAccess x))
    (hi : ∀ s xs, P s → P { s with inside := xs }) (due : InsideAccess → Bool) (xs : List InsideAccess) (s : State)
    (h : P s) : P (landInside due xs s) := by
  induction xs generalizing s with
  | nil => exact hi s [] h
  | cons x xs ih =>
    simp only [landInside]
    split
    · exact ih _ (hx s x.access h)
    · exact hi s _ h

/-- A host access keeps the canonical form of memory. -/
theorem hostAccess_wf {s : State} (h : Memory.wf s.mem = true) (x : HostAccess) :
    Memory.wf (s.hostAccess x).mem = true := by
  cases x with
  | store a bs => exact writeBytes_wf h a bs
  | load a n => exact h

theorem landInside_wf {s : State} (h : Memory.wf s.mem = true) (due : InsideAccess → Bool) (xs : List InsideAccess) :
    Memory.wf (landInside due xs s).mem = true :=
  landInside_inv (P := fun s => Memory.wf s.mem = true) (fun _ x h => hostAccess_wf h x) (fun _ _ h => h) due xs s h

@[simp] theorem readElement_length (s : State) (c : Nat) (a : Word) (n : Nat) : (s.readElement c a n).length = n := by
  unfold State.readElement
  split <;> simp [elementAddrs_length]

/-- With no racing store a read returns memory's bytes (spec/20_memory.md R73). -/
theorem readElement_calm {s : State} {c : Nat} {a : Word} {n : Nat} (h : s.racing c a n = []) :
    s.readElement c a n = s.mem.readBytes a n := by
  simp [State.readElement, h]

theorem racing_none {s : State} {c : Nat} (h : ∀ x ∈ s.races, x.ch ≠ c) (a : Word) (n : Nat) : s.racing c a n = [] := by
  unfold State.racing
  rw [List.filter_eq_nil_iff]
  intro x hx
  simp [h x hx]

/-- After ARM's publication no store races with the channel. -/
theorem racing_publish (s : State) (c : Nat) (a : Word) (n : Nat) : (s.publish c).racing c a n = [] := by
  apply racing_none
  intro x hx
  have := (List.mem_filter.mp hx).2
  simpa using this

/-! Host accesses and the order of events. -/

@[simp] theorem replay_append (es fs : List Event) (m : Memory) : replay (es ++ fs) m = replay fs (replay es m) := by
  induction es generalizing m with
  | nil => rfl
  | cons e es ih => exact ih (e.after m)

/-- What the reads of a list of events bring, in two parts: the second finds what the first left. -/
theorem bytesBrought_append (es fs : List Event) (s : State) :
    bytesBrought (es ++ fs) s = bytesBrought es s ++ bytesBrought fs (es.foldl (fun t e => e.applied t) s) := by
  induction es generalizing s with
  | nil => rfl
  | cons e es ih => simp [bytesBrought, ih, List.append_assoc]

/-- A host access is one event of the history, and memory is as the event leaves it (spec/20_memory.md R73). -/
theorem hostAccess_event (s : State) (x : HostAccess) :
    (s.hostAccess x).history = s.history ++ [x.event s.mem]
      ∧ (s.hostAccess x).mem = (x.event s.mem).after s.mem := by
  cases x <;> exact ⟨rfl, rfl⟩

/-- The host accesses that take effect inside a step add their events to the history, one for each, and memory is what
those make of it; the others wait. -/
theorem landInside_events (due : InsideAccess → Bool) (xs : List InsideAccess) (s : State) :
    ∃ es, (landInside due xs s).history = s.history ++ es ∧ (landInside due xs s).mem = replay es s.mem
      ∧ (∀ e ∈ es, Event.isHost e = true)
      ∧ (landInside due xs s).inside = xs.drop es.length ∧ (∀ x ∈ xs.take es.length, due x = true) := by
  induction xs generalizing s with
  | nil => exact ⟨[], by simp [landInside], rfl, by simp, rfl, by simp⟩
  | cons x xs ih =>
    by_cases hx : due x = true
    · obtain ⟨es, h1, h2, h3, h4, h5⟩ := ih (s.hostAccess x.access)
      obtain ⟨hh, hm⟩ := hostAccess_event s x.access
      refine ⟨x.access.event s.mem :: es, ?_, ?_, ?_, ?_, ?_⟩
      · simp [landInside, hx, h1, hh]
      · simp [landInside, hx, h2, hm, replay]
      · intro e he
        rcases List.mem_cons.mp he with rfl | he
        · cases x.access <;> rfl
        · exact h3 e he
      · simp [landInside, hx, h4]
      · simpa [hx] using h5
    · exact ⟨[], by simp [landInside, hx], by simp [landInside, hx, replay], by simp, by simp [landInside, hx], by simp⟩

/-! The next move. -/

/-- While a transaction is half received the RESETs in front wait, and the first other move is ready
(spec/70_reset_and_hazards.md R230). -/
theorem ready_after_resets {s : State} {held rest : List Input} {m : Input} (hrx : s.rx ≠ [])
    (hh : ∀ x ∈ held, x = .reset) (hm : m.isReset = false) (hi : s.inputs = held ++ m :: rest) :
    s.heldResets = held ∧ s.readyMoves = m :: rest := by
  have hr : ∀ x ∈ held, x.isReset = true := fun x hx => by rw [hh x hx]; rfl
  unfold State.heldResets State.readyMoves
  rw [if_neg hrx, if_neg hrx, hi, List.takeWhile_append_of_pos hr, List.dropWhile_append_of_pos hr]
  simp [hm]

/-- No move is ready when there is none, or only RESETs that wait for a half-received transaction. -/
theorem ready_none {s : State} (h : s.inputs = [] ∨ (s.rx ≠ [] ∧ ∀ m ∈ s.inputs, m = .reset)) : s.readyMoves = [] := by
  unfold State.readyMoves
  rcases h with h | ⟨hrx, h⟩
  · simp [h]
  · rw [if_neg hrx, List.dropWhile_eq_nil_iff]
    intro m hm
    rw [h m hm]
    rfl

/-- A move that is no RESET is ready where it stands first, and no RESET is held. -/
theorem ready_first {s : State} {rest : List Input} {m : Input} (hm : m.isReset = false) (hi : s.inputs = m :: rest) :
    s.heldResets = [] ∧ s.readyMoves = m :: rest := by
  by_cases hrx : s.rx = []
  · simp [State.heldResets, State.readyMoves, hrx, hi]
  · exact ready_after_resets (held := []) hrx (by simp) hm hi

/-! Reset. -/

@[simp] theorem resetChans_length (d : Nat) (rs : List Channel) : (resetChans d rs).length = rs.length := by
  induction rs generalizing d with
  | nil => rfl
  | cons r rs ih => simp [resetChans, ih]

/-- Every register set after RESET is `Channel.afterReset` of some draw. -/
theorem mem_resetChans {d : Nat} {rs : List Channel} {r : Channel} (h : r ∈ resetChans d rs) :
    ∃ n, r = Channel.afterReset n := by
  induction rs generalizing d with
  | nil => simp [resetChans] at h
  | cons x rs ih =>
    simp only [resetChans, List.mem_cons] at h
    rcases h with h | h
    · exact ⟨d, h⟩
    · exact ih h

/-! Channels with a property. -/

/-- `channelsFrom` lists exactly the numbers of the channels with the property. -/
theorem mem_channelsFrom {p : Channel → Bool} {k c : Nat} {rs : List Channel} :
    c ∈ channelsFrom p k rs ↔ ∃ j r, c = k + j ∧ rs[j]? = some r ∧ p r = true := by
  induction rs generalizing k with
  | nil => simp [channelsFrom]
  | cons x rs ih =>
    have key : c ∈ channelsFrom p k (x :: rs) ↔ (c = k ∧ p x = true) ∨ c ∈ channelsFrom p (k + 1) rs := by
      simp only [channelsFrom]
      split <;> simp_all
    rw [key, ih]
    constructor
    · rintro (⟨rfl, hp⟩ | ⟨j, r, rfl, hj, hp⟩)
      · exact ⟨0, x, rfl, rfl, hp⟩
      · exact ⟨j + 1, r, by omega, hj, hp⟩
    · rintro ⟨j, r, rfl, hj, hp⟩
      cases j with
      | zero => left; simp at hj; exact ⟨rfl, hj ▸ hp⟩
      | succ j => exact .inr ⟨j, r, by omega, hj, hp⟩

end Sys2Proof.Machine
end

