-- ==== Sys2Proof/Laws/PerInstr.lean ====
section
/-! SUPPORT. Statements about every instruction as syntax, one lemma per constructor: the words of its encoding
(spec/30_encoding.md R92, R96). -/

namespace Sys2Proof.Laws.Encoding

/-- The encoding of a well-formed instruction opens with a word that selects its row in a listing, whose operands with the
words after it give the instruction back, and it has as many words as a transaction that opens so takes. -/
def Statement (i : Instr) : Prop :=
  i.wf = true → ∃ w ws op, encode i = w :: ws ∧ selectRow .listing w = some op ∧ instrOfRow op w ws = i
    ∧ transactionLength w = ws.length + 1

/-- What a constructor shows of its encoding: its row `o` with the fields the row has, and the words after the first. -/
theorem intro_row {i : Instr} {ev ch : Nat} {ws : List Word} (o : Opcode) (hev : ev < 256) (hch : ch < 256)
    (ze : o.hasEvent = false → ev = 0) (zc : o.hasChannel = false → ch = 0)
    (he : encode i = commandWord o.number ev ch :: ws) (hi : instrOfRow o (commandWord o.number ev ch) ws = i)
    (hl : (if o.number = 1 then 13 else 1) = ws.length + 1) :
    ∃ w ws op, encode i = w :: ws ∧ selectRow .listing w = some op ∧ instrOfRow op w ws = i
      ∧ transactionLength w = ws.length + 1 :=
  ⟨_, ws, o, he, selectRow_commandWord o hev hch ze zc, hi, by
    rw [transactionLength, bits_commandWord_op (by cases o <;> decide) hev hch]; exact hl⟩

theorem wrdesc (ch : Nat) (img : Image) : Statement (.wrdesc ch img) := by
  intro h
  have h : ch < 256 := by simpa [Instr.wf, fitsField] using h
  refine intro_row .wrdesc (ev := 0) (by decide) h (fun _ => rfl) nofun rfl ?_ rfl
  simp [instrOfRow, Opcode.number, bits_commandWord_ch, h]

theorem arm (ch : Nat) : Statement (.arm ch) := by
  intro h
  have h : ch < 256 := by simpa [Instr.wf, fitsField] using h
  refine intro_row .arm (ev := 0) (by decide) h (fun _ => rfl) nofun rfl ?_ rfl
  simp [instrOfRow, Opcode.number, bits_commandWord_ch, h]

theorem disarm (ch : Nat) : Statement (.disarm ch) := by
  intro h
  have h : ch < 256 := by simpa [Instr.wf, fitsField] using h
  refine intro_row .disarm (ev := 0) (by decide) h (fun _ => rfl) nofun rfl ?_ rfl
  simp [instrOfRow, Opcode.number, bits_commandWord_ch, h]

theorem status (ch : Nat) : Statement (.status ch) := by
  intro h
  have h : ch < 256 := by simpa [Instr.wf, fitsField] using h
  refine intro_row .status (ev := 0) (by decide) h (fun _ => rfl) nofun rfl ?_ rfl
  simp [instrOfRow, Opcode.number, bits_commandWord_ch, h]

theorem bind (ev ch : Nat) : Statement (.bind ev ch) := by
  intro h
  have h : ev < 256 ∧ ch < 256 := by simpa [Instr.wf, fitsField] using h
  refine intro_row .bind h.1 h.2 nofun nofun rfl ?_ rfl
  simp [instrOfRow, Opcode.number, bits_commandWord_ch, bits_commandWord_ev, h]

theorem stop (ch : Nat) : Statement (.stop ch) := by
  intro h
  have h : ch < 256 := by simpa [Instr.wf, fitsField] using h
  refine intro_row .stop (ev := 0) (by decide) h (fun _ => rfl) nofun rfl ?_ rfl
  simp [instrOfRow, Opcode.number, bits_commandWord_ch, h]

theorem rddesc (ch : Nat) : Statement (.rddesc ch) := by
  intro h
  have h : ch < 256 := by simpa [Instr.wf, fitsField] using h
  refine intro_row .rddesc (ev := 0) (by decide) h (fun _ => rfl) nofun rfl ?_ rfl
  simp [instrOfRow, Opcode.number, bits_commandWord_ch, h]

theorem req (ev : Nat) : Statement (.req ev) := by
  intro h
  have h : ev < 256 := by simpa [Instr.wf, fitsField] using h
  refine intro_row .req h (ch := 0) (by decide) nofun (fun _ => rfl) rfl ?_ rfl
  simp [instrOfRow, Opcode.number, bits_commandWord_ev, h]

theorem service (ch : Nat) : Statement (.service ch) := by
  intro h
  have h : ch < 256 := by simpa [Instr.wf, fitsField] using h
  refine intro_row .service (ev := 0) (by decide) h (fun _ => rfl) nofun rfl ?_ rfl
  simp [instrOfRow, Opcode.number, bits_commandWord_ch, h]

theorem reset : Statement .reset := by
  intro _
  exact intro_row .reset (ev := 0) (ch := 0) (by decide) (by decide) (fun _ => rfl) (fun _ => rfl) rfl rfl rfl

end Sys2Proof.Laws.Encoding
end

