-- ==== Sys2Proof/Laws/Transfer.lean ====
section
/-! SUPPORT. The minor-loop iteration: what one read and one write do, that the queue is full before every write, and the
one induction over the accesses of an iteration. -/

namespace Sys2Proof.Machine

/-- The iteration went through and its transfer has the property, or it failed and its state has the other. -/
def Moved.Ends (m : Moved) (P : Transfer → Prop) (Q : State → Prop) : Prop :=
  match m with
  | .ok x => P x
  | .failed s => Q s

@[simp] theorem Moved.ends_ok (x : Transfer) (P : Transfer → Prop) (Q : State → Prop) : (Moved.ok x).Ends P Q ↔ P x :=
  Iff.rfl

@[simp] theorem Moved.ends_failed (s : State) (P : Transfer → Prop) (Q : State → Prop) :
    (Moved.failed s).Ends P Q ↔ Q s := Iff.rfl

theorem Moved.Ends.andThen {m : Moved} {k : Transfer → Moved} {P R : Transfer → Prop} {Q : State → Prop}
    (h : m.Ends P Q) (hk : ∀ x, P x → (k x).Ends R Q) : (m.andThen k).Ends R Q := by
  cases m with
  | ok x => exact hk x h
  | failed s => exact h

theorem Moved.Ends.mono {m : Moved} {P P' : Transfer → Prop} {Q Q' : State → Prop} (h : m.Ends P Q)
    (hP : ∀ x, P x → P' x) (hQ : ∀ s, Q s → Q' s) : m.Ends P' Q' := by
  cases m with
  | ok x => exact hP x h
  | failed s => exact hQ s h

/-- One source read (spec/42_transfer_engine.md R166). -/
theorem readSource_spec (c : Nat) (d : Descriptor) (x : Transfer) :
    (x.s.accessFault x.src d.ssize.bytes .read = true
        ∧ readSource c d x = .failed ((x.s.hostBefore x.idx).accessed (.read c x.idx x.src d.ssize.bytes false)))
      ∨ (x.s.accessFault x.src d.ssize.bytes .read = false
        ∧ readSource c d x = .ok
            { s := ((x.s.hostBefore x.idx).drew ((x.s.hostBefore x.idx).readDraws c x.src d.ssize.bytes)).accessed
                (.read c x.idx x.src d.ssize.bytes true)
              src := x.src + d.soff, dst := x.dst
              queue := x.queue ++ (x.s.hostBefore x.idx).readElement c x.src d.ssize.bytes
              idx := x.idx + 1 }) := by
  unfold readSource State.memRead
  rcases readNow_spec (x.s.hostBefore x.idx) c x.idx x.src d.ssize.bytes with ⟨h, e⟩ | ⟨h, e⟩ <;>
    simp only [accessFault_hostBefore] at h <;> simp [h, e]

/-- One destination write (R167). -/
theorem writeDest_spec (c : Nat) (d : Descriptor) (x : Transfer) :
    (x.s.accessFault x.dst d.dsize.bytes .write = true
        ∧ writeDest c d x
            = .failed ((x.s.hostBefore x.idx).accessed
                (.write c x.idx x.dst d.dsize.bytes (x.queue.take d.dsize.bytes) false)))
      ∨ (x.s.accessFault x.dst d.dsize.bytes .write = false
        ∧ writeDest c d x = .ok
            { s := ((x.s.hostBefore x.idx).engineStore x.dst (x.queue.take d.dsize.bytes)).accessed
                (.write c x.idx x.dst d.dsize.bytes (x.queue.take d.dsize.bytes) true)
              src := x.src, dst := x.dst + d.doff, queue := x.queue.drop d.dsize.bytes, idx := x.idx + 1 }) := by
  unfold writeDest State.memWrite
  rcases writeNow_spec (x.s.hostBefore x.idx) c x.idx x.dst d.dsize.bytes (x.queue.take d.dsize.bytes) with
    ⟨h, e⟩ | ⟨h, e⟩ <;> simp only [accessFault_hostBefore] at h <;> simp [h, e]

theorem ElemSize.bytes_pos (e : ElemSize) : 0 < e.bytes := by cases e <;> decide

theorem ElemSize.bytes_le (e : ElemSize) : e.bytes ≤ 4 := by cases e <;> decide

theorem ElemSize.bytes_dvd (e : ElemSize) : e.bytes ∣ 2 ^ 32 := by cases e <;> decide

/-- What reads keep, filling the queue keeps; after enough rounds the queue holds `ed` bytes (R165). -/
theorem fillQueue_ends {c : Nat} {d : Descriptor} {P : Transfer → Prop} {Q : State → Prop}
    (hr : ∀ x, P x → x.queue.length < d.dsize.bytes → (readSource c d x).Ends P Q) (k : Nat) (x : Transfer) (h : P x)
    (hk : d.dsize.bytes ≤ x.queue.length + k) :
    (fillQueue c d k x).Ends (fun y => P y ∧ d.dsize.bytes ≤ y.queue.length) Q := by
  induction k generalizing x with
  | zero => exact ⟨h, by omega⟩
  | succ k ih =>
    simp only [fillQueue]
    split
    · rename_i hq; exact ⟨h, hq⟩
    · rename_i hq
      have h1 := hr x h (by omega)
      rcases readSource_spec c d x with ⟨_, e⟩ | ⟨_, e⟩
      · rw [e] at h1 ⊢; exact h1
      · rw [e] at h1 ⊢
        refine ih _ h1 ?_
        have := ElemSize.bytes_pos d.ssize
        simp only [List.length_append, readElement_length]
        omega

/-- The induction over an iteration: a property that every read keeps while the queue is short, and every write keeps
while it is full, holds after all accesses; a state property of every failing access holds if one fails. -/
theorem moveElements_ends {c : Nat} {d : Descriptor} {P : Transfer → Prop} {Q : State → Prop}
    (hr : ∀ x, P x → x.queue.length < d.dsize.bytes → (readSource c d x).Ends P Q)
    (hw : ∀ x, P x → d.dsize.bytes ≤ x.queue.length → (writeDest c d x).Ends P Q) (k : Nat) (x : Transfer) (h : P x) :
    (moveElements c d k x).Ends P Q := by
  induction k generalizing x with
  | zero => exact h
  | succ k ih =>
    exact ((fillQueue_ends hr _ x h (by omega)).andThen fun y hy => hw y hy.1 hy.2).andThen fun y hy => ih y hy

/-- No access touches a register, a parameter, an input or an answer. -/
structure SameButMemory (s t : State) : Prop where
  chans : t.chans = s.chans
  cfg : t.cfg = s.cfg
  inputs : t.inputs = s.inputs
  rx : t.rx = s.rx
  portOut : t.portOut = s.portOut
  irqs : t.irqs = s.irqs

theorem SameButMemory.refl (s : State) : SameButMemory s s := ⟨rfl, rfl, rfl, rfl, rfl, rfl⟩

theorem SameButMemory.hostBefore {s t : State} (h : SameButMemory s t) (i : Nat) : SameButMemory s (t.hostBefore i) :=
  ⟨by simpa using h.chans, by simpa using h.cfg, by simpa using h.inputs, by simpa using h.rx, by simpa using h.portOut,
    by simpa using h.irqs⟩

/-- The accesses of an iteration, and those of the host that fall inside it, change memory, the racing stores, the history,
the counters and the list of those that wait, and nothing else. -/
theorem moveMinorLoop_sameButMemory (c : Nat) (d : Descriptor) (s : State) :
    (moveMinorLoop c d s).Ends (fun x => SameButMemory s x.s) (SameButMemory s) := by
  unfold moveMinorLoop
  refine moveElements_ends (P := fun x => SameButMemory s x.s) ?_ ?_ _ _ (SameButMemory.refl s)
  · intro x h _
    have h := h.hostBefore x.idx
    rcases readSource_spec c d x with ⟨_, e⟩ | ⟨_, e⟩ <;> rw [e] <;>
      exact ⟨h.chans, h.cfg, h.inputs, h.rx, h.portOut, h.irqs⟩
  · intro x h _
    have h := h.hostBefore x.idx
    rcases writeDest_spec c d x with ⟨_, e⟩ | ⟨_, e⟩ <;> rw [e] <;>
      exact ⟨h.chans, h.cfg, h.inputs, h.rx, h.portOut, h.irqs⟩

/-- The accesses of an iteration keep the canonical form of memory. -/
theorem moveMinorLoop_wf (c : Nat) (d : Descriptor) (s : State) (h : Memory.wf s.mem = true) :
    (moveMinorLoop c d s).Ends (fun x => Memory.wf x.s.mem = true) (fun t => Memory.wf t.mem = true) := by
  unfold moveMinorLoop
  refine moveElements_ends (P := fun x => Memory.wf x.s.mem = true) ?_ ?_ _ _ h
  · intro x hx _
    have hx := landInside_wf hx (fun y => decide (y.after ≤ x.idx)) x.s.inside
    rcases readSource_spec c d x with ⟨_, e⟩ | ⟨_, e⟩ <;> rw [e] <;> exact hx
  · intro x hx _
    have hx := landInside_wf hx (fun y => decide (y.after ≤ x.idx)) x.s.inside
    rcases writeDest_spec c d x with ⟨_, e⟩ | ⟨_, e⟩ <;> rw [e]
    · exact hx
    · exact writeBytes_wf hx _ _

/-- SERVICE, if it answers a next state: no request is latched and only the host's accesses inside the step take effect; or
the accesses of the iteration went through and the registers are `Channel.iterated`; or one failed and the channel
entered Error. -/
theorem execService_next {s t : State} {c : Nat} (h : execService c s = .next t) :
    ((∀ r, s.Has c r → r.pend = false) ∧ t = s.hostRest)
      ∨ ∃ r, s.Due c r ∧
          ((∃ x, moveMinorLoop c r.desc s = .ok x
              ∧ t = (if r.desc.completes then (x.s.setChan c (r.iterated s.cfg x.src x.dst)).emitIrq c
                  else x.s.setChan c (r.iterated s.cfg x.src x.dst)).hostRest)
            ∨ ∃ u, moveMinorLoop c r.desc s = .failed u ∧ t = (u.enterError c r).hostRest) := by
  unfold execService at h
  split at h
  · rename_i hn
    exact .inl ⟨fun r hr => absurd (hn.symm.trans hr) (by simp), by simpa using h.symm⟩
  · rename_i r hr
    split at h
    · rename_i hp
      refine .inl ⟨fun r' hr' => ?_, by simpa using h.symm⟩
      have : r = r' := by simpa using hr.symm.trans hr'
      exact this ▸ hp
    · rename_i hp
      split at h
      · cases h
      · rename_i hl
        refine .inr ⟨r, ⟨hr, by simpa using hp, by simpa using hl⟩, ?_⟩
        simp only [Host.Outcome.next.injEq] at h
        unfold iterate at h
        split at h
        · rename_i u hu; exact .inr ⟨u, hu, h.symm⟩
        · rename_i x hx; exact .inl ⟨x, hx, h.symm⟩

/-- SERVICE of a due channel answers a next state. -/
theorem execService_due {s : State} {c : Nat} {r : Channel} (h : s.Due c r) :
    execService c s = .next (iterate c r s).hostRest := by
  obtain ⟨hr, hp, hl⟩ := h
  have hr' : s.chan? c = some r := hr
  simp [execService, hr', hp, hl]

end Sys2Proof.Machine
end

