-- ==== Sys2Proof/Tests/Slice0.lean ====
section
/-! SUPPORT. The model's own tests: ill-formed instructions, words decoded from the encodings of spec/30_encoding.md,
single steps whose results spec/95_test_vectors.md gives, and for every statement with hypotheses a state that
meets them. -/

namespace Sys2Proof.Tests

open Sys2Proof Sys2Proof.Machine

/-! Ill-formed instructions: a channel or event number that does not fit its 8-bit field (R91). -/

theorem test_wf_wrdesc (g : Image) : Instr.wf (.wrdesc 256 g) = false := rfl
theorem test_wf_arm : Instr.wf (.arm 256) = false := by decide
theorem test_wf_disarm : Instr.wf (.disarm 256) = false := by decide
theorem test_wf_status : Instr.wf (.status 256) = false := by decide
theorem test_wf_bind_event : Instr.wf (.bind 256 0) = false := by decide
theorem test_wf_bind_channel : Instr.wf (.bind 0 256) = false := by decide
theorem test_wf_stop : Instr.wf (.stop 256) = false := by decide
theorem test_wf_rddesc : Instr.wf (.rddesc 256) = false := by decide
theorem test_wf_req : Instr.wf (.req 256) = false := by decide
theorem test_wf_service : Instr.wf (.service 256) = false := by decide
theorem test_wf_bind_largest : Instr.wf (.bind 255 255) = true := by decide

/-! Words written out from R91 to R99: `OP` 31:28, `Z` 27:16, `EV` 15:8, `CH` 7:0. -/

/-- The base image B0 of spec/95_test_vectors.md group W. -/
def b0 : Image :=
  { w0 := 0x20000000, w1 := 0x00000020, w2 := 0x40000020, w3 := 0x00000000, w4 := 0x00000202, w5 := 0x00000008
    w6 := 0xFFFFFFC4, w7 := 0x00000008, w8 := 0x00000000, w9 := 0xFFFFFFE0, w10 := 0x00000040, w11 := 0x00000008 }

theorem test_decode_wrdesc : decode .port (0x10000003#32 :: b0.words) = .ok (.wrdesc 3 b0, []) := by decide
theorem test_decode_arm : decode .port [0b00100000000000000000000000000101#32] = .ok (.arm 5, []) := by decide
theorem test_decode_disarm : decode .port [0x30000002#32] = .ok (.disarm 2, []) := by decide
theorem test_decode_status : decode .port [0x40000003#32] = .ok (.status 3, []) := by decide
theorem test_decode_bind : decode .port [0b01010000000000000000010100000010#32] = .ok (.bind 5 2, []) := by decide
theorem test_decode_stop : decode .port [0x60000001#32] = .ok (.stop 1, []) := by decide
theorem test_decode_rddesc : decode .port [0x700000FF#32] = .ok (.rddesc 255, []) := by decide
theorem test_decode_req : decode .listing [0b10000000000000000000010100000000#32] = .ok (.req 5, []) := by decide
theorem test_decode_service : decode .listing [0x90000003#32] = .ok (.service 3, []) := by decide
theorem test_decode_reset : decode .listing [0xA0000000#32] = .ok (.reset, []) := by decide

/-- Group C: C7 to C13. -/
theorem test_decode_malformed :
    [0x00000000#32, 0xF0000000#32, 0x20010000#32, 0x20000100#32, 0x80000500#32, 0x90000000#32, 0xA0000000#32].map
        (fun w => decode .port [w])
      = [0, 15, 2, 2, 8, 9, 10].map (fun op => .error (.malformed op [])) := by decide

/-- C17: the payload of a malformed `OP = 1` command is consumed. -/
theorem test_decode_malformed_wrdesc :
    decode .port (0x10000100#32 :: (b0.words ++ [0x20000000#32])) = .error (.malformed 1 [0x20000000#32]) := by decide

theorem test_encode_wrdesc : encode (.wrdesc 3 b0) = 0x10000003#32 :: b0.words := by decide
theorem test_encode_bind : encode (.bind 5 2) = [0x50000502#32] := by decide
theorem test_table_word : decodeTableWord 32 0x80000500 = some (.req 5) := by decide
theorem test_table_word_payload : (decodeTableWord 32 0x10000000).isSome = true := by decide

/-! Single steps, on states with two channels of which the first is the one given. -/

/-- Channel 0 is `r`, channel 1 as after RESET. -/
def onCh (r : Channel) : State := { State.reset with chans := [r, Channel.reset] }

/-- A channel with a descriptor, in a state. -/
def ch (d : Descriptor) (st : ChState) (enable pend valid : Bool) : Channel :=
  { desc := d, st := st, enable := enable, pend := pend, valid := valid, bound := true, ev := 5
    contents := .specified }

/-- The descriptor of B0. -/
def dB0 : Descriptor := Descriptor.ofImage b0

/-- The descriptor of vector E10: one element, one iteration. -/
def dE10 : Descriptor :=
  { saddr := 0x100, soff := 4, daddr := 0x200, doff := 4, ssize := .b4, dsize := .b4, nbytes := 4, mloff := 0
    biter := 1, citer := 1, slast := 0xFFFFFFFC, bufbytes := 4
    autoDisable := false, intMajor := true, linkEn := false, mloe := false }

/-- The descriptor of vector E2: one 4-byte read feeds four 1-byte writes. -/
def dE2 : Descriptor :=
  { saddr := 0x1000, soff := 4, daddr := 0x2000, doff := 1, ssize := .b4, dsize := .b1, nbytes := 8, mloff := 0
    biter := 2, citer := 2, slast := 0xFFFFFFF0, bufbytes := 16
    autoDisable := true, intMajor := false, linkEn := false, mloe := false }

/-- The descriptor of vector E8: the source wraps at the top of the address space. -/
def dE8 : Descriptor :=
  { saddr := 0xFFFFFFF8, soff := 4, daddr := 0x2000, doff := 4, ssize := .b4, dsize := .b4, nbytes := 16, mloff := 0
    biter := 3, citer := 3, slast := 0xFFFFFFD0, bufbytes := 48
    autoDisable := false, intMajor := false, linkEn := false, mloe := false }

/-- What a look at the next state shows. -/
def look {α : Type} (o : Host.Outcome State Fault Refusal) (f : State → α) : Option α :=
  match o with
  | .next t => some (f t)
  | .fault _ => none
  | .refused _ => none

/-- A look at channel 0 of the next state. -/
def look0 {α : Type} (o : Host.Outcome State Fault Refusal) (f : Channel → α) : Option α :=
  (look o fun t => (t.chan? 0).map f).join

/-- W1. -/
theorem test_wrdesc_accepts :
    look0 (exec (.wrdesc 0 b0) State.reset) (fun r => (r.desc.citer, r.desc.slast, r.desc.mloe, r.valid, r.st))
      = some (8, 0xFFFFFFE0, true, true, .idle) := by decide

/-- W2, W4, W7, W9, W11, W13, W15, W18, W20, W22, W23. -/
theorem test_wrdesc_first_failure :
    [{ b0 with w1 := 30 }, { b0 with w6 := 0xFFFFFFC6 }, { b0 with w0 := 0x20000002 }, { b0 with w10 := 32 },
      { b0 with w5 := 0, w10 := 0 }, { b0 with w5 := 6, w10 := 48 }, { b0 with w5 := 0x10000, w7 := 0x10000, w10 := 0 },
      { b0 with w4 := 0x203 }, { b0 with w11 := 0x00010008 }, { b0 with w1 := 30, w0 := 0x20000001, w10 := 1 },
      { b0 with w5 := 0, w1 := 30, w4 := 0x206 }].map Image.firstError
      = [some .stride, some .offset, some .align, some .extent, some .zero, some .nbytesSize, some .extent,
        some .reserved, some .reserved, some .stride, some .reserved] := by decide

/-- P4 (in Done with `enable = 1`). -/
theorem test_rddesc_done :
    look (exec (.rddesc 0) (onCh (ch dB0 .done true false false))) (fun t => t.portOut)
      = some [0x00000000#32, 0x20000000#32, 0x00000020#32, 0x40000020#32, 0x00000000#32, 0x00000202#32, 0x00000008#32,
          0xFFFFFFC4#32, 0x00000008#32, 0x00000008#32, 0xFFFFFFE0#32, 0x00000040#32, 0x00000A08#32] := by decide

/-- Q1's data word: Armed with a latched request, bound to event 5. -/
theorem test_status_armed_pending :
    look (exec (.status 0) (onCh (ch dB0 .armed true true true))) (fun t => t.portOut) = some [0x000005F1#32] := by decide

/-- C2. -/
theorem test_status_after_reset :
    look (exec (.status 3) State.reset) (fun t => t.portOut) = some [0x00000000#32] := by decide

/-- C16 and C15. -/
theorem test_bind_range :
    (look (exec (.bind 7 0) State.reset) (fun t => t.portOut), look (exec (.bind 8 0) State.reset) (fun t => t.portOut))
      = (some [0x00000000#32], some [0x20100000#32]) := by decide

/-- C1. -/
theorem test_arm_nodesc :
    look (exec (.arm 0) State.reset) (fun t => t.portOut) = some [0x20300000#32] := by decide

/-- Scenario C. -/
theorem test_arm_active :
    look (exec (.arm 0) (onCh (ch dB0 .active true false false))) (fun t => (t.portOut, t.chans.length))
      = some ([0x20200000#32], 2) := by decide

/-- T5. -/
theorem test_disarm_drops_request :
    look0 (exec (.disarm 0) (onCh (ch dB0 .armed true true true))) (fun r => (r.st, r.enable, r.pend, r.valid))
      = some (.idle, false, false, true) := by decide

/-- T6. -/
theorem test_stop_active :
    look0 (exec (.stop 0) (onCh (ch { dB0 with citer := 5 } .active true true false)))
        (fun r => (r.st, r.enable, r.pend, r.valid, r.desc.citer))
      = some (.idle, false, false, false, 5) := by decide

/-- Q1 and Q8. -/
theorem test_req_latches :
    (look0 (exec (.req 5) (onCh (ch dB0 .armed true false true))) (fun r => r.pend),
      look0 (exec (.req 6) (onCh (ch dB0 .armed true false true))) (fun r => r.pend)) = (some true, some false) := by decide

/-- E1. -/
theorem test_service_first_iteration :
    look0 (exec (.service 0) (onCh (ch dB0 .armed true true true)))
        (fun r => (r.desc.saddr, r.desc.daddr, r.desc.citer, r.st, r.pend, r.valid))
      = some (0x20000004, 0x40000020, 7, .active, false, false) := by decide

/-- E5. -/
theorem test_service_last_iteration :
    look0 (exec (.service 0) (onCh (ch { dB0 with saddr := 0x2000001C, citer := 1 } .active true true false)))
        (fun r => (r.desc.saddr, r.desc.citer, r.st, r.enable)) = some (0x20000000, 8, .done, true) := by decide

/-- Z1. -/
theorem test_reset_idle :
    look0 (exec .reset (onCh (ch dB0 .active true true false))) (fun r => (r.st, r.enable, r.pend, r.valid, r.bound))
      = some (.idle, false, false, false, false) := by decide

/-- R60: no register is lost by a host store of the value an unlisted address reads as. -/
theorem test_memory_canonical :
    (Memory.write (Memory.write (Memory.write [] 5 1) 3 2) 5 0, Memory.wf (Memory.write (Memory.write [] 5 1) 3 2))
      = ([(3, 2)], true) := by decide

/-! For every statement with hypotheses, a state and operands that meet all of them together. -/

/-- Channel 0 idle with a valid descriptor, armed, running, done or failed. -/
def idle0 : State := onCh (ch dB0 .idle false false true)
def armed0 : State := onCh (ch dE10 .armed true true true)
def active0 : State := onCh (ch { dB0 with citer := 5 } .active true false false)
def done0 : State := onCh (ch dE10 .done true false false)
def error0 : State := onCh { ch dE10 .error false false false with contents := .workingUnspecified }

theorem witness_DecodeInvertsEncode : Instr.wf (.bind 255 0) = true ∧ Instr.isPortOp (.bind 255 0) = true := by decide

theorem witness_EncodeInvertsDecode :
    decode .listing [0x80000500#32, 7#32] = .ok (.req 5, [7#32])
      ∧ decode .port [0x500005FF#32, 7#32] = .ok (.bind 5 255, [7#32]) := by decide

theorem witness_MalformedWordsAreRefused :
    transactionLength 0xF0000000#32 ≤ 0 + 1 ∧ Malformed 0xF0000000#32
      ∧ decode .port [0xF0000000#32] = .error (.malformed 15 []) := by decide

theorem witness_StepRunsPortOperation :
    ({ State.reset with rx := [0x10000000#32, 1#32], inputs := [.port (b0.words.drop 1 ++ [9#32])] }).inputs
        = [.port (b0.words.drop 1 ++ [9#32])]
      ∧ decode .port ([0x10000000#32, 1#32] ++ (b0.words.drop 1 ++ [9#32])) = .ok (.wrdesc 0 { b0 with w0 := 1 }, [9#32])
      := by decide

theorem witness_StepRunsAgentMove :
    ({ State.reset with inputs := [.req 5] }).inputs = .req 5 :: []
      ∧ ({ State.reset with inputs := [.service 0 [⟨1, .load 0 4⟩]] }).inputs = .service 0 [⟨1, .load 0 4⟩] :: []
      ∧ State.reset.rx = [] ∧ ({ State.reset with inputs := [.reset] }).inputs = .reset :: [] := by decide

/-- A RESET that comes after the first two words of a WRDESC, and the words that complete the transaction, that leave it
incomplete, and, after a malformed command word, that complete it. -/
theorem witness_ResetWaitsForTransaction :
    let s : State := { State.reset with rx := [0x10000000#32, 1#32], inputs := [.reset, .port (b0.words.drop 1)] }
    s.rx ≠ [] ∧ (∀ m ∈ [Input.reset], m = .reset) ∧ s.inputs = [.reset] ++ .port (b0.words.drop 1) :: []
      ∧ decode .port (s.rx ++ b0.words.drop 1) = .ok (.wrdesc 0 { b0 with w0 := 1 }, [])
      ∧ decode .port (s.rx ++ [2#32]) = .error .short
      ∧ decode .port ([0x10000100#32, 1#32] ++ (b0.words.drop 1 ++ [7#32])) = .error (.malformed 1 [7#32])
      ∧ ∀ r ∈ s.chans, r.pend = false := by decide

/-- R230: the WRDESC completes first, then the RESET happens. -/
theorem test_reset_waits :
    let s : State := { State.reset with rx := [0x10000000#32], inputs := [.reset, .port b0.words] }
    (look (step s) fun t => (t.portOut, t.inputs, (t.chan? 0).map fun r => r.valid))
        = some ([0x00000000#32], [.reset], some true)
      ∧ look0 (Host.Core.run core 2 s) (fun r => (r.valid, r.contents)) = some (false, .unspecified) := by decide

theorem witness_PlacedInstructionRuns :
    decodeTableWord 32 0x20000001 = some (.arm 1) ∧ decodeTableWord 32 0x90000003 = some (.service 3) := by decide

theorem witness_MalformedCommandRaises :
    State.reset.rx = [] ∧ transactionLength 0x20000100#32 ≤ 1 + 1 ∧ Malformed 0x20000100#32
      ∧ ([0x40000000#32] : List Word).drop (transactionLength 0x20000100#32 - 1) ≠ []
      ∧ Malformed 0xF0000000#32 ∧ ([] : List Word).drop (transactionLength 0xF0000000#32 - 1) = [] := by decide

theorem witness_TransactionMayComeInPieces :
    decode .port (State.reset.rx ++ 0x10000000#32 :: b0.words.take 11) = .error .short
      ∧ ({ State.reset with inputs := [.port (0x10000000#32 :: b0.words.take 11), .reset] }).inputs
          = .port (0x10000000#32 :: b0.words.take 11) :: [.reset]
      ∧ [Input.port [9#32]] = .port [9#32] :: [] := by decide

theorem witness_EngineTakesItsTurn_pending :
    armed0.inputs = [] ∧ armed0.Has 0 (ch dE10 .armed true true true) ∧ (ch dE10 .armed true true true).pend = true := by
  decide

/-- The same with a transaction half received and a RESET that waits for it. -/
theorem witness_EngineTakesItsTurn_held :
    let s : State := { armed0 with rx := [0x10000001#32], inputs := [.reset] }
    s.rx ≠ [] ∧ (∀ m ∈ s.inputs, m = .reset) ∧ s.Has 0 (ch dE10 .armed true true true)
      ∧ look (step s) (fun t => (t.inputs, t.irqs, t.rx)) = some ([.reset], [0], [0x10000001#32]) := by decide

theorem witness_EngineTakesItsTurn_quiet :
    State.reset.inputs = [] ∧ ∀ c r, State.reset.Has c r → r.pend = false := by
  refine ⟨rfl, fun c r h => ?_⟩
  have hm : r ∈ State.reset.chans := List.mem_of_getElem? h
  have hr : ∀ x ∈ State.reset.chans, x.pend = false := by decide
  exact hr r hm

theorem witness_HostStoreWritesItsBytes :
    Memory.wf State.reset.mem = true ∧ ([1, 0, 2] : List Byte).length ≤ 2 ^ 32
      ∧ ({ State.reset with inputs := [.host (.store 0xFFFFFFFF#32 [1, 0, 2])] }).inputs
          = [.host (.store 0xFFFFFFFF#32 [1, 0, 2])] := by
  decide

theorem witness_HostLoadReturnsMemory :
    ({ State.reset with inputs := [.host (.load 0xFFFFFFFF#32 2)] }).inputs = [.host (.load 0xFFFFFFFF#32 2)] := by decide

theorem witness_RacingReadIsOldOrNew :
    Memory.wf armed0.mem = true ∧ armed0.Has 0 (ch dE10 .armed true true true)
      ∧ (ch dE10 .armed true true true).enable = true ∧ ([1, 2, 3, 4] : List Byte).length ≤ 4
      ∧ ∀ x ∈ armed0.races, x.ch ≠ 0 := by decide

theorem witness_ArmPublishesHostStores :
    idle0.Has 0 (ch dB0 .idle false false true) ∧ (ch dB0 .idle false false true).st = .idle
      ∧ (ch dB0 .idle false false true).valid = true := by decide

theorem witness_ChannelRangeComesFirst :
    portChannel (.bind 5 4) = some 4 ∧ State.reset.chan? 4 = none ∧ State.reset.chan? 3 ≠ none := by decide

theorem witness_WrdescReportsFirstFailure_state :
    active0.Has 0 (ch { dB0 with citer := 5 } .active true false false)
      ∧ (ch { dB0 with citer := 5 } .active true false false).st ≠ .idle := by decide

/-- Each clause of WrdescReportsFirstFailure on an Idle channel, in order: W18, W11, W13, W2, W4, W8, W10. -/
theorem witness_WrdescReportsFirstFailure_checks :
    State.reset.Has 0 Channel.reset ∧ Channel.reset.st = .idle
      ∧ ¬ ({ b0 with w4 := 0x203 } : Image).FormOk
      ∧ (({ b0 with w5 := 0, w10 := 0 } : Image).FormOk ∧ ¬ ({ b0 with w5 := 0, w10 := 0 } : Image).CountsOk)
      ∧ (({ b0 with w5 := 6, w10 := 48 } : Image).CountsOk ∧ ¬ ({ b0 with w5 := 6, w10 := 48 } : Image).SizesOk)
      ∧ (({ b0 with w1 := 30 } : Image).SizesOk ∧ ¬ ({ b0 with w1 := 30 } : Image).StridesOk)
      ∧ (({ b0 with w6 := 0xFFFFFFC6 } : Image).StridesOk ∧ ¬ ({ b0 with w6 := 0xFFFFFFC6 } : Image).OffsetsOk)
      ∧ (({ b0 with w2 := 0x40000021 } : Image).OffsetsOk ∧ ¬ ({ b0 with w2 := 0x40000021 } : Image).AlignOk)
      ∧ (({ b0 with w10 := 63 } : Image).FormOk ∧ ({ b0 with w10 := 63 } : Image).CountsOk
          ∧ ({ b0 with w10 := 63 } : Image).SizesOk ∧ ({ b0 with w10 := 63 } : Image).StridesOk
          ∧ ({ b0 with w10 := 63 } : Image).OffsetsOk ∧ ({ b0 with w10 := 63 } : Image).AlignOk
          ∧ ¬ ({ b0 with w10 := 63 } : Image).ExtentOk) := by decide

/-- The clauses in the middle have all their earlier conditions too. -/
theorem witness_WrdescReportsFirstFailure_middle :
    (({ b0 with w5 := 6, w10 := 48 } : Image).FormOk ∧ ({ b0 with w1 := 30 } : Image).FormOk
        ∧ ({ b0 with w1 := 30 } : Image).CountsOk)
      ∧ (({ b0 with w6 := 0xFFFFFFC6 } : Image).FormOk ∧ ({ b0 with w6 := 0xFFFFFFC6 } : Image).CountsOk
        ∧ ({ b0 with w6 := 0xFFFFFFC6 } : Image).SizesOk)
      ∧ (({ b0 with w2 := 0x40000021 } : Image).FormOk ∧ ({ b0 with w2 := 0x40000021 } : Image).CountsOk
        ∧ ({ b0 with w2 := 0x40000021 } : Image).SizesOk ∧ ({ b0 with w2 := 0x40000021 } : Image).StridesOk) := by decide

theorem witness_WrdescInstallsDescriptor :
    State.reset.Has 3 Channel.reset ∧ Channel.reset.st = .idle ∧ b0.Acceptable := by decide

theorem witness_IgnoredImageBitsDoNotMatter : 0x00003F08#32 &&& 0xFFFF00FF#32 = b0.w11 &&& 0xFFFF00FF#32 := by decide

theorem witness_ReadImageWritesBack :
    idle0.Has 0 (ch dB0 .idle false false true) ∧ (ch dB0 .idle false false true).st = .idle
      ∧ (ch dB0 .idle false false true).contents = .specified ∧ dB0.Checked
      ∧ dB0.nbytes.toNat * dB0.biter.toNat = dB0.bufbytes.toNat := by decide

theorem witness_RddescReturnsImage :
    active0.Has 0 (ch { dB0 with citer := 5 } .active true false false)
      ∧ (ch { dB0 with citer := 5 } .active true false false).contents = .specified := by decide

theorem witness_RddescShowsWhatIsSpecified :
    (State.reset.Has 0 Channel.reset ∧ Channel.reset.contents = .unspecified)
      ∧ error0.Has 0 { ch dE10 .error false false false with contents := .workingUnspecified } := by decide

/-- A host store made while the channel is enabled, to the source of its next read and inside the step again. -/
theorem witness_ServiceWritesWhatItReads :
    let s : State := { armed0.hostStore 0x100 [1, 2] with inside := [⟨0, .store 0x102 [3]⟩] }
    s.Due 0 (ch dE10 .armed true true true) ∧ dE10.Checked ∧ s.racing 0 0x100 4 ≠ [] := by decide

/-- Every state of the channel occurs. -/
theorem witness_StatusReturnsChannelState :
    idle0.Has 0 (ch dB0 .idle false false true) ∧ armed0.Has 0 (ch dE10 .armed true true true)
      ∧ active0.Has 0 (ch { dB0 with citer := 5 } .active true false false)
      ∧ done0.Has 0 (ch dE10 .done true false false)
      ∧ error0.Has 0 { ch dE10 .error false false false with contents := .workingUnspecified } := by decide

/-- The clauses of BindFollowsItsRule at the largest event and the first that does not exist. -/
theorem witness_BindFollowsItsRule :
    (State.reset.Has 0 Channel.reset ∧ Channel.reset.st = .idle ∧ 7 < State.reset.cfg.nEv)
      ∧ State.reset.cfg.nEv ≤ 8
      ∧ (armed0.Has 0 (ch dE10 .armed true true true) ∧ (ch dE10 .armed true true true).st ≠ .idle
          ∧ 7 < armed0.cfg.nEv) := by decide

theorem witness_ArmFollowsItsRule :
    (idle0.Has 0 (ch dB0 .idle false false true) ∧ (ch dB0 .idle false false true).st = .idle
        ∧ (ch dB0 .idle false false true).valid = true)
      ∧ (State.reset.Has 0 Channel.reset ∧ Channel.reset.st = .idle ∧ Channel.reset.valid = false)
      ∧ (done0.Has 0 (ch dE10 .done true false false) ∧ (ch dE10 .done true false false).st ≠ .idle) := by decide

theorem witness_DisarmFollowsItsRule :
    (active0.Has 0 (ch { dB0 with citer := 5 } .active true false false)
        ∧ (ch { dB0 with citer := 5 } .active true false false).st = .active)
      ∧ (done0.Has 0 (ch dE10 .done true false false) ∧ (ch dE10 .done true false false).st ≠ .active) := by decide

theorem witness_StopForcesIdle : active0.Has 0 (ch { dB0 with citer := 5 } .active true false false) := by decide

theorem witness_ErrorsChangeNothing :
    Instr.isPortOp (.arm 0) = true ∧ exec (.arm 0) State.reset = State.reset.says 0x20300000#32
      ∧ bits 0x20300000#32 31 28 ≠ 0 := ⟨rfl, rfl, by decide⟩

theorem witness_RearmWithoutServiceSucceeds :
    idle0.Has 0 (ch dB0 .idle false false true) ∧ (ch dB0 .idle false false true).st = .idle
      ∧ (ch dB0 .idle false false true).valid = true := by decide

/-- Every state here has one to 256 channels, since `onCh` makes two. -/
theorem legal_of_parts {s : State} (h : ∀ r ∈ s.chans, r.Legal s.cfg.nEv) (h' : ∀ r ∈ s.chans, r.Fresh)
    (hr : s.chans.length = 2 := by rfl) : s.Legal :=
  ⟨⟨by omega, by omega⟩, fun r hm => ⟨h r hm, h' r hm⟩⟩

theorem witness_RearmNeedsDisarmAndReprogram :
    (done0.Legal ∧ done0.Has 0 (ch dE10 .done true false false))
      ∧ (error0.Legal ∧ error0.Has 0 { ch dE10 .error false false false with contents := .workingUnspecified }) :=
  ⟨⟨legal_of_parts (by decide) (by decide), by decide⟩, ⟨legal_of_parts (by decide) (by decide), by decide⟩⟩

theorem witness_ServiceNeedsRequest : ∀ r, State.reset.Has 9 r → r.pend = false := by
  intro r h
  exact absurd (List.mem_of_getElem? h) (by have := (List.getElem?_eq_some_iff.mp h).1; simp [State.reset] at this)

theorem witness_LinkedServiceIsRefused :
    (onCh (ch { dE10 with linkEn := true } .armed true true true)).Has 0 (ch { dE10 with linkEn := true } .armed true true true)
      ∧ (ch { dE10 with linkEn := true } .armed true true true).pend = true
      ∧ (ch { dE10 with linkEn := true } .armed true true true).desc.linkEn = true := by decide

theorem armed0_due : armed0.Due 0 (ch dE10 .armed true true true) := by decide

/-- A platform with no clause fails no access. -/
theorem noAccessFails_of_nil {s : State} (h : s.cfg.faults = []) (d : Descriptor) : s.NoAccessFails d := by
  simp [State.NoAccessFails, faultAt, h]

theorem armed0_noAccessFails (d : Descriptor) : armed0.NoAccessFails d := noAccessFails_of_nil rfl d

/-- A platform that fails the read of E10 later, and its write earlier, than the iteration makes them. -/
def otherTimes : State :=
  { armed0 with
    cfg := { Config.reset with
      faults := [⟨1, none, 0x100, 0x100, none, some .read⟩, ⟨0, some 0, 0x200, 0x200, some 4, none⟩] } }

/-- The iteration that completes a major loop, and (E8) one that does not. -/
theorem witness_ServiceRunsOneIteration :
    (otherTimes.Due 0 (ch dE10 .armed true true true) ∧ dE10.Checked ∧ otherTimes.NoAccessFails dE10 ∧ dE10.citer = 1)
      ∧ (onCh (ch dE8 .active true true false)).Due 0 (ch dE8 .active true true false) ∧ dE8.Checked ∧ dE8.citer ≠ 1
      ∧ (onCh (ch dE8 .active true true false)).NoAccessFails dE8 := by
  refine ⟨⟨by decide, by decide, ⟨fun j hj => ?_, fun k hk => ?_⟩, rfl⟩, by decide, by decide, by decide,
    noAccessFails_of_nil rfl _⟩
  · obtain rfl : j = 0 := by have : dE10.reads = 1 := rfl; omega
    decide
  · obtain rfl : k = 0 := by have : dE10.writes = 1 := rfl; omega
    decide

/-- Channel 0 armed with the descriptor of E2 and a latched request, four source bytes in memory. -/
def fifo0 : State :=
  { onCh (ch { dE2 with doff := 0 } .armed true true true) with mem := [(0x1000, 1), (0x1001, 2), (0x1002, 3)] }

/-- `es = 4`, `ed = 1`, every write to one address, and a host store inside the step that keeps off. -/
theorem witness_ServiceAccessOrder :
    let d : Descriptor := { dE2 with doff := 0 }
    let s : State := { fifo0 with inside := [⟨3, .store 0x3000 [9]⟩] }
    s.Due 0 (ch d .armed true true true) ∧ d.Checked ∧ s.NoAccessFails d ∧ (∀ x ∈ s.races, x.ch ≠ 0) ∧ d.Apart
      ∧ s.HostKeepsOff d := by
  refine ⟨by decide, by decide, noAccessFails_of_nil rfl _, by decide, fun i j hi hj => ?_, ?_⟩
  · have h : ∀ i, i < 8 → ∀ j, j < 8 → ({ dE2 with doff := 0 } : Descriptor).srcByte i
        ≠ ({ dE2 with doff := 0 } : Descriptor).dstByte j := by decide
    exact h i hi j hj
  · have h : ∀ i, i < 8 → 0x3000 ≠ ({ dE2 with doff := 0 } : Descriptor).srcByte i
        ∧ 0x3000 ≠ ({ dE2 with doff := 0 } : Descriptor).dstByte i := by decide
    intro x hx a ha i hi
    obtain rfl : x = ⟨3, .store 0x3000 [9]⟩ := by simpa using hx
    obtain rfl : a = 0x3000 := by simpa [HostAccess.storeAddrs, elementAddrs] using ha
    exact h i hi

theorem witness_ServiceMovesBytes :
    armed0.Due 0 (ch dE10 .armed true true true) ∧ dE10.Checked ∧ armed0.NoAccessFails dE10
      ∧ Memory.wf armed0.mem = true ∧ (∀ x ∈ armed0.races, x.ch ≠ 0) ∧ dE10.Apart ∧ armed0.HostKeepsOff dE10 := by
  refine ⟨armed0_due, by decide, armed0_noAccessFails _, rfl, by decide, fun i j hi hj => ?_, fun x hx => nomatch hx⟩
  have h : ∀ i, i < 4 → ∀ j, j < 4 → dE10.srcByte i ≠ dE10.dstByte j := by decide
  exact h i hi j hj

theorem witness_ServiceFrame : armed0.Due 0 (ch dE10 .armed true true true) := armed0_due

/-- R69: two host stores between the writes `wr0` and `wr1`, to the destination of each. The first stays, the second is
overwritten; and a load between them returns what stands there. -/
theorem test_host_accesses_inside :
    look (step { onCh (ch dE2 .armed true true true) with
        mem := [(0x1000, 1), (0x1001, 2)]
        inputs := [.service 0 [⟨2, .load 0x2000 2⟩, ⟨2, .store 0x2000 [0xAA]⟩, ⟨2, .store 0x2001 [0xBB]⟩]] })
        (fun t => (t.mem.readBytes 0x2000 2, t.history.filter Event.isHost, t.inside))
      = some ([0xAA, 2], [.hostLoad 0x2000 [1, 0], .hostStore 0x2000 [0xAA], .hostStore 0x2001 [0xBB]], []) := by decide

theorem witness_HostAccessesFallInsideIteration :
    let s : State := { fifo0 with inside := [⟨2, .load 0x2000 2⟩, ⟨2, .store 0x2000 [0xAA]⟩, ⟨40, .load 0x2000 1⟩] }
    s.Due 0 (ch { dE2 with doff := 0 } .armed true true true) ∧ s.inside[1]? = some ⟨2, .store 0x2000 [0xAA]⟩
      ∧ (∀ j y, j < 1 → s.inside[j]? = some y → y.after ≤ 2)
      ∧ s.inside[2]? = some ⟨40, .load 0x2000 1⟩ := by
  refine ⟨by decide, rfl, fun j y hj hy => ?_, rfl⟩
  obtain rfl : j = 0 := by omega
  obtain rfl : InsideAccess.mk 2 (.load 0x2000 2) = y := by simpa using hy
  decide

/-- A platform that fails every read, and one that fails the write after it. -/
def badReads : State := { armed0 with cfg := { Config.reset with faults := [⟨0, none, 0, 0xFFFFFFFF, none, some .read⟩] } }
def badWrites : State :=
  { armed0 with cfg := { Config.reset with faults := [⟨1, some 5, 0x200, 0x200, some 4, some .write⟩] } }

theorem witness_FirstAccessFaultEntersError :
    badReads.Due 0 (ch dE10 .armed true true true) ∧ dE10.Checked
      ∧ badReads.accessFault dE10.saddr dE10.ssize.bytes .read = true := by decide

/-- The write after the read fails: the last iteration of a major loop ends in Error. -/
theorem witness_FaultLeavesErrorState :
    badWrites.Due 0 (ch dE10 .armed true true true)
      ∧ look (exec (.service 0) badWrites) (fun t => ((t.chan? 0).map Channel.st, t.irqs, t.mem.length, t.history))
        = some (some .error, [], 0, [.read 0 0 0x100 4 true, .write 0 1 0x200 4 [0, 0, 0, 0] false]) := by decide

/-- The major loop of E2, two iterations, from Done with `enable = 1`. -/
theorem witness_RoundTripLaw_done :
    let s := onCh (ch { dE2 with autoDisable := false } .done true false false)
    let d : Descriptor := { dE2 with autoDisable := false }
    s.Has 0 (ch d .done true false false) ∧ (ch d .done true false false).enable = true ∧ d.Checked ∧ d.linkEn = false
      ∧ d.citer = d.biter ∧ d.biter = 2
      ∧ ∀ n t r', n ≤ d.biter.toNat → serviceRun 0 n s = some t → t.Has 0 r' → r'.st ≠ .error := by
  refine ⟨by decide, rfl, by decide, rfl, rfl, rfl, fun n t r' hn ht hr => ?_⟩
  have key : ∀ n, n < 3 → (((serviceRun 0 n (onCh (ch { dE2 with autoDisable := false } .done true false false))).bind
      fun t => t.chan? 0).all fun r => r.st != .error) = true := by
    decide
  have h := key n (by have : dE2.biter.toNat = 2 := rfl; have : n ≤ dE2.biter.toNat := hn; omega)
  have hr' : t.chan? 0 = some r' := hr
  simpa [ht, hr'] using h

theorem witness_RoundTripLaw :
    armed0.Has 0 (ch dE10 .armed true true true) ∧ (ch dE10 .armed true true true).st = .armed ∧ dE10.Checked
      ∧ dE10.linkEn = false ∧ dE10.citer = dE10.biter
      ∧ ∀ n t r', n ≤ dE10.biter.toNat → serviceRun 0 n armed0 = some t → t.Has 0 r' → r'.st ≠ .error := by
  refine ⟨by decide, rfl, by decide, rfl, rfl, fun n t r' hn ht hr => ?_⟩
  have key : ∀ n, n < 2 → (((serviceRun 0 n armed0).bind fun t => t.chan? 0).all fun r => r.st != .error) = true := by
    decide
  have h := key n (by have : dE10.biter.toNat = 1 := rfl; omega)
  have hr' : t.chan? 0 = some r' := hr
  simpa [ht, hr'] using h

theorem witness_MultiplexLayoutRestores :
    let y : Layout := { count := 2, size := .b4, base := 0x20000000, pitch := 32, words := 8, fifo := 0x40000020 }
    1 ≤ y.count ∧ 1 ≤ y.words ∧ y.size.bytes ∣ y.pitch ∧ y.words * y.size.bytes ≤ y.pitch
      ∧ y.count * y.pitch < 2 ^ 32 ∧ y.size.bytes ∣ y.base.toNat ∧ y.size.bytes ∣ y.fifo.toNat := by decide

/-- Group F, F1 and F2: the derived descriptor of Scenario B. -/
theorem test_derive_scenario_b :
    (deriveDescriptor true ⟨2, .b4, 0x20000000, 32, 8, 0x40000020⟩ = { dB0 with slast := 0xFFFFFFE0 })
      ∧ (deriveDescriptor false ⟨2, .b4, 0x20000000, 32, 8, 0x40000020⟩).slast = 0xFFFFFFA4
      ∧ dB0.netDisplacement true = 0x20 ∧ dB0.netDisplacement false = 0x5C := by decide

theorem legal_service_armed0 : State.Legal { armed0 with inputs := [.service 0 []] } :=
  legal_of_parts (by decide) (by decide)

theorem step_service_armed0 : ∃ t, step { armed0 with inputs := [.service 0 []] } = .next t := ⟨_, rfl⟩

theorem witness_StepKeepsLegal :
    State.Legal { armed0 with inputs := [.service 0 []] } ∧ ∃ t, step { armed0 with inputs := [.service 0 []] } = .next t :=
  ⟨legal_service_armed0, step_service_armed0⟩

theorem witness_StepKeepsMemoryCanonical :
    Memory.wf { armed0 with inputs := [.service 0 []] }.mem = true
      ∧ ∃ t, step { armed0 with inputs := [.service 0 []] } = .next t := ⟨rfl, step_service_armed0⟩

theorem witness_StepKeepsMemoryHistory :
    fifo0.mem = replay fifo0.history [(0x1000, 1), (0x1001, 2), (0x1002, 3)]
      ∧ ∃ t, step { fifo0 with inputs := [.service 0 [⟨1, .store 0x2000 [7]⟩]] } = .next t := ⟨rfl, _, rfl⟩

theorem witness_StepKeepsPortWaiting :
    (State.PortWaits { armed0 with inputs := [.service 0 []] } ∧ armed0.inside = []
      ∧ State.PortWaits { armed0 with rx := [0x10000000#32, 0#32] })
      ∧ ∃ t, step { armed0 with inputs := [.service 0 []] } = .next t := ⟨by decide, step_service_armed0⟩

theorem witness_StepKeepsParameters : ∃ t, step { armed0 with inputs := [.service 0 []] } = .next t := step_service_armed0

theorem witness_StateMovesAlongEdges :
    State.Legal { armed0 with inputs := [.service 0 []] }
      ∧ ∃ t r', step { armed0 with inputs := [.service 0 []] } = .next t
          ∧ State.Has { armed0 with inputs := [.service 0 []] } 0 (ch dE10 .armed true true true) ∧ t.Has 0 r' :=
  ⟨legal_service_armed0, _, _, rfl, rfl, rfl⟩

theorem witness_ChannelsAreIndependent :
    targetChannel (.service 0) = some 0 ∧ ∃ t, exec (.service 0) armed0 = .next t := ⟨rfl, _, rfl⟩

theorem witness_OnlyServiceAccessesMemory :
    (∀ c, Instr.stop 0 ≠ .service c) ∧ ∃ t, exec (.stop 0) armed0 = .next t :=
  ⟨fun _ h => Instr.noConfusion h, _, rfl⟩

theorem witness_RegisterWriters :
    ∃ t r', exec (.service 0) armed0 = .next t ∧ armed0.Has 0 (ch dE10 .armed true true true) ∧ t.Has 0 r'
      ∧ Instr.service 0 ≠ .reset ∧ r'.st ≠ (ch dE10 .armed true true true).st := by
  refine ⟨_, _, rfl, rfl, rfl, by decide, by decide⟩

theorem witness_InterruptOnlyOnCompletion : ∃ t, exec (.service 0) armed0 = .next t ∧ t.irqs ≠ armed0.irqs :=
  ⟨_, rfl, by decide⟩

theorem witness_DisabledChannelMakesNoAccess :
    State.Legal { armed0 with inputs := [.service 0 []] }
      ∧ State.Has { armed0 with inputs := [.service 0 []] } 1 Channel.reset ∧ Channel.reset.enable = false
      ∧ ∃ t, step { armed0 with inputs := [.service 0 []] } = .next t := ⟨legal_service_armed0, by decide, rfl, step_service_armed0⟩

theorem witness_EveryAccessIsAligned :
    State.Legal { armed0 with inputs := [.service 0 []] } ∧ ∃ t, step { armed0 with inputs := [.service 0 []] } = .next t :=
  ⟨legal_service_armed0, step_service_armed0⟩

end Sys2Proof.Tests
end

section
/-! SUPPORT. What a step adds to the memory history (spec/20_memory.md R72). -/

namespace Sys2Proof.Machine

/-- The history of `t` is that of `s` with events added at its end, and each of these has the property. -/
def State.Adds (p : Event → Prop) (s t : State) : Prop := ∃ es, t.history = s.history ++ es ∧ ∀ e ∈ es, p e

section
variable {p q : Event → Prop} {s t u : State}

theorem State.Adds.of_history_eq (h : t.history = s.history) : State.Adds p s t := ⟨[], by simp [h], by simp⟩

theorem State.Adds.of_history_snoc {e : Event} (h : t.history = s.history ++ [e]) (he : p e) : State.Adds p s t :=
  ⟨[e], h, by simpa using he⟩

theorem State.Adds.trans (h : State.Adds p s t) (h' : State.Adds p t u) : State.Adds p s u := by
  obtain ⟨es, ht, hes⟩ := h
  obtain ⟨fs, hu, hfs⟩ := h'
  exact ⟨es ++ fs, by rw [hu, ht, List.append_assoc],
    fun e he => (List.mem_append.mp he).elim (hes e) (hfs e)⟩

theorem State.Adds.mono (h : State.Adds p s t) (hpq : ∀ e, p e → q e) : State.Adds q s t :=
  h.imp fun _ hes => ⟨hes.1, fun e he => hpq e (hes.2 e he)⟩

/-- The history of the first state is all that is asked of it. -/
theorem State.Adds.congr_left (h : State.Adds p u t) (hu : u.history = s.history) : State.Adds p s t :=
  (State.Adds.of_history_eq hu).trans h

end

/-- The event is no element access of the engine. -/
abbrev Event.NoAccess (e : Event) : Prop := e.isAccess = false

theorem Event.noAccess_of_isHost {e : Event} (h : e.isHost = true) : e.NoAccess := by
  cases e with
  | read | write => cases h
  | _ => rfl

/-! Host accesses. -/

theorem hostAccess_adds (s : State) (x : HostAccess) : State.Adds Event.NoAccess s (s.hostAccess x) :=
  .of_history_snoc (hostAccess_event s x).1 (by cases x <;> rfl)

theorem landInside_adds (due : InsideAccess → Bool) (xs : List InsideAccess) (s : State) :
    State.Adds Event.NoAccess s (landInside due xs s) := by
  obtain ⟨es, hh, -, hhost, -⟩ := landInside_events due xs s
  exact ⟨es, hh, fun e he => Event.noAccess_of_isHost (hhost e he)⟩

theorem hostBefore_adds (s : State) (i : Nat) : State.Adds Event.NoAccess s (s.hostBefore i) := landInside_adds _ _ s

theorem hostRest_adds (s : State) : State.Adds Event.NoAccess s s.hostRest := landInside_adds _ _ s

/-! Every instruction but SERVICE adds ordering events only (R68, R72). -/

/-- What the operation on the register set adds, the port operation adds: the range check before it adds nothing. -/
theorem onChannel_adds {p : Event → Prop} {s t : State} {c : Nat} {op : Channel → Host.Outcome State Fault Refusal}
    (h : onChannel c s op = .next t) (hop : ∀ r, op r = .next t → State.Adds p s t) : State.Adds p s t := by
  rcases onChannel_next h with ⟨-, rfl⟩ | ⟨r, -, hr⟩
  · exact .of_history_eq rfl
  · exact hop r hr

theorem execWrdesc_adds {s t : State} {ch : Nat} {img : Image} (h : execWrdesc ch img s = .next t) :
    State.Adds Event.NoAccess s t := by
  refine onChannel_adds h fun r hr => .of_history_eq ?_
  split at hr
  · cases hr; rfl
  · split at hr <;> cases hr <;> rfl

theorem execArm_adds {s t : State} {ch : Nat} (h : execArm ch s = .next t) : State.Adds Event.NoAccess s t := by
  refine onChannel_adds h fun r hr => ?_
  split at hr
  · cases hr; exact .of_history_eq rfl
  · split at hr
    · cases hr; exact .of_history_eq rfl
    · cases hr; exact .of_history_snoc (e := .arm ch) rfl rfl

theorem execDisarm_adds {s t : State} {ch : Nat} (h : execDisarm ch s = .next t) : State.Adds Event.NoAccess s t := by
  refine onChannel_adds h fun r hr => ?_
  split at hr
  · cases hr; exact .of_history_eq rfl
  · cases hr; exact .of_history_snoc (e := .disarm ch) rfl rfl

theorem execStatus_adds {s t : State} {ch : Nat} (h : execStatus ch s = .next t) : State.Adds Event.NoAccess s t := by
  refine onChannel_adds h fun r hr => ?_
  cases hr
  by_cases hst : r.st = .done ∨ r.st = .idle
  · exact .of_history_snoc (e := .status ch r.st) (by simp [State.recordStatus, hst]) rfl
  · exact .of_history_eq (by simp [State.recordStatus, hst])

theorem execBind_adds {s t : State} {ev ch : Nat} (h : execBind ev ch s = .next t) : State.Adds Event.NoAccess s t := by
  refine onChannel_adds h fun r hr => .of_history_eq ?_
  split at hr
  · cases hr; rfl
  · split at hr <;> cases hr <;> rfl

theorem execStop_adds {s t : State} {ch : Nat} (h : execStop ch s = .next t) : State.Adds Event.NoAccess s t := by
  refine onChannel_adds h fun r hr => ?_
  cases hr
  exact .of_history_snoc (e := .stop ch) rfl rfl

theorem execRddesc_adds {s t : State} {ch : Nat} (h : execRddesc ch s = .next t) : State.Adds Event.NoAccess s t := by
  refine onChannel_adds h fun r hr => .of_history_eq ?_
  cases hr
  rfl

theorem execReq_adds {s t : State} {ev : Nat} (h : execReq ev s = .next t) : State.Adds Event.NoAccess s t := by
  cases h
  exact .of_history_eq rfl

theorem execReset_adds {s t : State} (h : execReset s = .next t) : State.Adds Event.NoAccess s t := by
  cases h
  exact .of_history_eq rfl

theorem exec_adds_noAccess {s t : State} {i : Instr} (hi : ∀ c, i ≠ .service c) (h : exec i s = .next t) :
    State.Adds Event.NoAccess s t := by
  cases i with
  | wrdesc ch img => exact execWrdesc_adds h
  | arm ch => exact execArm_adds h
  | disarm ch => exact execDisarm_adds h
  | status ch => exact execStatus_adds h
  | bind ev ch => exact execBind_adds h
  | stop ch => exact execStop_adds h
  | rddesc ch => exact execRddesc_adds h
  | req ev => exact execReq_adds h
  | service ch => exact absurd rfl (hi ch)
  | reset => exact execReset_adds h

/-! One step is one instruction, one malformed command, one host access or nothing. -/

/-- The states differ at most in the moves to come, the words half received, the host accesses that wait and the draws:
choosing the next turn changes nothing else. -/
structure SameBlock (s t : State) : Prop where
  chans : t.chans = s.chans
  cfg : t.cfg = s.cfg
  mem : t.mem = s.mem
  races : t.races = s.races
  portOut : t.portOut = s.portOut
  irqs : t.irqs = s.irqs
  history : t.history = s.history
  accesses : t.accesses = s.accesses

theorem SameBlock.refl (s : State) : SameBlock s s := ⟨rfl, rfl, rfl, rfl, rfl, rfl, rfl, rfl⟩

theorem SameBlock.legal {s t : State} (h : SameBlock s t) (hs : s.Legal) : t.Legal := by
  unfold State.Legal State.InRange
  rw [h.chans, h.cfg]
  exact hs

/-- The turn happens from a state that is the same block. -/
def Turn.SameBlock (s : State) : Turn → Prop
  | .run _ t => Machine.SameBlock s t
  | .malformed t => Machine.SameBlock s t
  | .host _ t => Machine.SameBlock s t
  | .waiting t => Machine.SameBlock s t
  | .quiet => True

theorem nextTurn_sameBlock (s : State) : s.nextTurn.SameBlock s := by
  unfold State.nextTurn
  split
  case h_1 => exact True.intro
  case h_2 => split <;> exact ⟨rfl, rfl, rfl, rfl, rfl, rfl, rfl, rfl⟩
  all_goals exact ⟨rfl, rfl, rfl, rfl, rfl, rfl, rfl, rfl⟩

theorem engineTurn_sameBlock {s t : State} {c : Nat} (h : s.engineTurn = some (c, t)) : SameBlock s t := by
  unfold State.engineTurn at h
  split at h <;> cases h <;> exact ⟨rfl, rfl, rfl, rfl, rfl, rfl, rfl, rfl⟩

/-- Choosing the turn keeps the block; then an instruction runs, a malformed command is answered, the host accesses memory,
or nothing happens: the port waits for words, or there is nothing to do. -/
theorem step_next {s t : State} (h : step s = .next t) :
    ∃ u, SameBlock s u ∧ ((∃ i, exec i u = .next t) ∨ t = u.answer (.preconditionViolation .badCmd)
      ∨ (∃ x, t = u.hostAccess x) ∨ t = u) := by
  have hb := nextTurn_sameBlock s
  unfold step at h
  split at h
  case h_1 i u hu => rw [hu] at hb; exact ⟨u, hb, .inl ⟨i, h⟩⟩
  case h_2 u hu => rw [hu] at hb; exact ⟨u, hb, .inr (.inl ((raise_next _ _ _).mp h).symm)⟩
  case h_3 x u hu => rw [hu] at hb; cases h; exact ⟨u, hb, .inr (.inr (.inl ⟨x, rfl⟩))⟩
  case h_4 u hu => rw [hu] at hb; cases h; exact ⟨_, hb, .inr (.inr (.inr rfl))⟩
  case h_5 =>
    split at h
    · rename_i c u hu; exact ⟨u, engineTurn_sameBlock hu, .inl ⟨.service c, h⟩⟩
    · cases h; exact ⟨_, .refl _, .inr (.inr (.inr rfl))⟩

/-- A property that holds of every event but element accesses, and of every event a SERVICE adds, holds of every event a
step adds. -/
theorem step_adds {p : Event → Prop} {s t : State} (hp : ∀ e, Event.NoAccess e → p e)
    (hservice : ∀ u c, SameBlock s u → execService c u = .next t → State.Adds p u t) (h : step s = .next t) :
    State.Adds p s t := by
  obtain ⟨u, hb, ⟨i, hi⟩ | rfl | ⟨x, rfl⟩ | rfl⟩ := step_next h <;> refine State.Adds.congr_left ?_ hb.history
  · by_cases hs : ∃ c, i = .service c
    · obtain ⟨c, rfl⟩ := hs
      exact hservice u c hb hi
    · exact (exec_adds_noAccess (fun c hc => hs ⟨c, hc⟩) hi).mono hp
  · exact .of_history_eq rfl
  · exact (hostAccess_adds u x).mono hp
  · exact .of_history_eq rfl

/-! SERVICE adds what its iteration adds, and the accesses of the host that are left. -/

theorem execService_adds {p : Event → Prop} {s t : State} {c : Nat} (hp : ∀ e, Event.NoAccess e → p e)
    (hmove : ∀ r, s.Due c r → (moveMinorLoop c r.desc s).Ends (fun x => State.Adds p s x.s) (State.Adds p s))
    (h : execService c s = .next t) : State.Adds p s t := by
  have rest : ∀ u, State.Adds p s u → State.Adds p s u.hostRest := fun u hu => hu.trans ((hostRest_adds u).mono hp)
  rcases execService_next h with ⟨-, rfl⟩ | ⟨r, hdue, ⟨x, hx, rfl⟩ | ⟨u, hu, rfl⟩⟩
  · exact rest s (.of_history_eq rfl)
  · have hm := hmove r hdue
    rw [hx] at hm
    refine rest _ (State.Adds.trans (t := x.s) hm (.of_history_eq ?_))
    split <;> rfl
  · have hm := hmove r hdue
    rw [hu] at hm
    exact rest _ (State.Adds.trans (t := u) hm (.of_history_eq rfl))

end Sys2Proof.Machine
end

section
/-! PROOF. Every element access is aligned to its size (spec/20_memory.md R66): the checks of WRDESC align the addresses and
the strides, R41 keeps them for every channel that can run, and each access leaves the next address aligned. -/

namespace Sys2Proof.Machine

/-- An element access is at a multiple of its size; of the other events nothing is asked. -/
def Event.Aligned : Event → Prop
  | .read _ _ a n _ => n ∣ a.toNat
  | .write _ _ a n _ _ => n ∣ a.toNat
  | _ => True

theorem Event.NoAccess.aligned {e : Event} (h : e.NoAccess) : e.Aligned := by
  cases e with
  | read | write => cases h
  | _ => exact True.intro

/-- A sum of multiples of an element size stays one when it wraps, since the size divides `2^32`. -/
theorem ElemSize.dvd_toNat_add (e : ElemSize) {a b : Word} (ha : e.bytes ∣ a.toNat) (hb : e.bytes ∣ b.toNat) :
    e.bytes ∣ (a + b).toNat := by
  rw [BitVec.toNat_add, Nat.dvd_mod_iff (ElemSize.bytes_dvd e)]
  exact ha.add hb

/-- A transfer of a SERVICE step that began in `s`: what it has added is aligned, and so are the addresses it goes on
with. -/
structure Transfer.Aligned (d : Descriptor) (s : State) (x : Transfer) : Prop where
  adds : State.Adds Event.Aligned s x.s
  src : d.ssize.bytes ∣ x.src.toNat
  dst : d.dsize.bytes ∣ x.dst.toNat

section
variable {d : Descriptor} {s : State} {x : Transfer}

/-- One more element access, after the accesses of the host that come before it. -/
theorem Transfer.Aligned.access (h : x.Aligned d s) {u : State} {e : Event}
    (hu : u.history = (x.s.hostBefore x.idx).history ++ [e]) (he : e.Aligned) : State.Adds Event.Aligned s u :=
  (h.adds.trans ((hostBefore_adds x.s x.idx).mono fun _ => Event.NoAccess.aligned)).trans (.of_history_snoc hu he)

theorem readSource_aligned (c : Nat) (hd : d.ssize.bytes ∣ d.soff.toNat) (h : x.Aligned d s) :
    (readSource c d x).Ends (Transfer.Aligned d s) (State.Adds Event.Aligned s) := by
  rcases readSource_spec c d x with ⟨-, e⟩ | ⟨-, e⟩ <;> rw [e]
  · exact h.access rfl h.src
  · exact ⟨h.access rfl h.src, ElemSize.dvd_toNat_add d.ssize h.src hd, h.dst⟩

theorem writeDest_aligned (c : Nat) (hd : d.dsize.bytes ∣ d.doff.toNat) (h : x.Aligned d s) :
    (writeDest c d x).Ends (Transfer.Aligned d s) (State.Adds Event.Aligned s) := by
  rcases writeDest_spec c d x with ⟨-, e⟩ | ⟨-, e⟩ <;> rw [e]
  · exact h.access rfl h.dst
  · exact ⟨h.access rfl h.dst, h.src, ElemSize.dvd_toNat_add d.dsize h.dst hd⟩

end

theorem moveMinorLoop_aligned (c : Nat) {d : Descriptor} (s : State) (hd : d.Checked) :
    (moveMinorLoop c d s).Ends (fun x => State.Adds Event.Aligned s x.s) (State.Adds Event.Aligned s) := by
  obtain ⟨-, -, -, -, hsoff, hdoff, -, -, hsaddr, hdaddr⟩ := hd
  have ends : (moveMinorLoop c d s).Ends (Transfer.Aligned d s) (State.Adds Event.Aligned s) :=
    moveElements_ends (fun _ h _ => readSource_aligned c hsoff h) (fun _ h _ => writeDest_aligned c hdoff h) _ _
      ⟨.of_history_eq rfl, hsaddr, hdaddr⟩
  exact ends.mono (fun _ h => h.adds) fun _ h => h

/-- A channel with a latched request is enabled, so it is neither Idle nor in Error and its descriptor is checked
(spec/10_state.md R41). -/
theorem Channel.Legal.checked_of_pend {n : Nat} {r : Channel} (h : r.Legal n) (hp : r.pend = true) : r.desc.Checked := by
  obtain ⟨hidle, -, -, -, herror, -, hchecked, -⟩ := h
  refine hchecked (.inr ?_)
  cases hst : r.st with
  | idle => exact absurd (hp.symm.trans (hidle hst).2) (by decide)
  | error => exact absurd (hp.symm.trans (herror hst).2.1) (by decide)
  | armed | active | done => simp

theorem execService_aligned {s t : State} {c : Nat} (hs : s.Legal) (h : execService c s = .next t) :
    State.Adds Event.Aligned s t :=
  execService_adds (fun _ => Event.NoAccess.aligned)
    (fun r hdue => moveMinorLoop_aligned c s (Channel.Legal.checked_of_pend (hs.2 r hdue.1.mem).1 hdue.2.1)) h

/-- Settles O54: a SERVICE of a legal state makes aligned accesses only, and no other step makes an element access. -/
theorem everyAccessIsAligned : Obligations.EveryAccessIsAligned := by
  intro s t hs h
  obtain ⟨es, hh, hes⟩ : State.Adds Event.Aligned s t :=
    step_adds (fun _ => Event.NoAccess.aligned) (fun _ _ hb hu => execService_aligned (hb.legal hs) hu) h
  exact ⟨es, hh, fun _ _ _ _ _ he => hes _ he, fun _ _ _ _ _ _ he => hes _ he⟩

end Sys2Proof.Machine
end

section
/-! PROOF. STATUS (spec/40_descriptor_port.md R132, R133): the word it answers, bit by bit, and the state after it. -/

namespace Sys2Proof

/-- A field of a word is the bit vector of its bits. -/
theorem bits_eq_extractLsb' (w : Word) (hi lo : Nat) : bits w hi lo = (w.extractLsb' lo (hi - lo + 1)).toNat := by
  rw [BitVec.extractLsb'_toNat, Nat.shiftRight_eq_div_pow, bits]

/-- A field has the value of a bit vector that agrees with it in every bit. -/
theorem bits_eq_toNat {w : Word} {hi lo : Nat} {v : BitVec (hi - lo + 1)}
    (h : ∀ k, k < hi - lo + 1 → w.getLsbD (lo + k) = v.getLsbD k) : bits w hi lo = v.toNat := by
  rw [bits_eq_extractLsb']
  congr 1
  refine BitVec.eq_of_getLsbD_eq fun k hk => ?_
  rw [BitVec.getLsbD_extractLsb', decide_eq_true hk, Bool.true_and, h k hk]

/-- The response word of an accepted operation is its data word, with `RC` and `CAUSE` zero (R97). -/
theorem Answer.getLsbD_word_ok (data : BitVec 16) (j : Nat) :
    (Answer.ok data).word.getLsbD j = data.getLsbD j := by
  have high : 16 ≤ j → data.getLsbD j = false := data.getLsbD_of_ge j
  by_cases hj : j < 32
  · simp [Answer.word, hj]
  · simp [Answer.word, hj, high (by omega)]

namespace Machine

/-- `b << i` has bit `i` only, and that bit is `b` (R7). -/
theorem getLsbD_flagAt (b : Bool) {i : Nat} (hi : i < 32) (j : Nat) :
    (flagAt b i).getLsbD j = (b && decide (j = i)) := by
  have bounded : j = i → j < 32 := fun h => h ▸ hi
  cases b
  · simp [flagAt]
  · simpa only [flagAt, if_true, BitVec.getLsbD_ofNat, Nat.testBit_two_pow, Bool.true_and, eq_comm (a := i),
      Bool.and_eq_right_iff_imp, decide_eq_true_eq] using bounded

/-- The code of a state takes three bits. -/
theorem ChState.testBit_code (st : ChState) {j : Nat} (hj : 3 ≤ j) : st.code.testBit j = false := by
  refine Nat.testBit_lt_two_pow (Nat.lt_of_lt_of_le (m := 2 ^ 3) ?_ (Nat.pow_le_pow_right (by decide) hj))
  cases st <;> decide

section
variable (r : Channel)

/-- The bits of the answer of STATUS (R98): `code(st)`, the four flags, the event of a bound channel. -/
theorem Channel.getLsbD_statusWord {j : Nat} (hj : j < 16) :
    (Answer.ok r.statusData).word.getLsbD j
      = (r.st.code.testBit j || (r.enable && j = 4) || (r.pend && j = 5) || (r.valid && j = 6) || (r.bound && j = 7)
        || (r.bound && 8 ≤ j && r.ev.getLsbD (j - 8))) := by
  have hj' : j < 32 := by omega
  have event : (if r.bound then r.ev.setWidth 32 <<< 8 else (0 : Word)).getLsbD j
      = (r.bound && 8 ≤ j && r.ev.getLsbD (j - 8)) := by
    cases r.bound
    · simp
    · by_cases h8 : j < 8
      · simp [h8]
      · simp [hj', h8, Nat.not_lt.mp h8]
  simp only [Answer.getLsbD_word_ok, Channel.statusData, BitVec.getLsbD_setWidth, BitVec.getLsbD_or,
    BitVec.getLsbD_ofNat, getLsbD_flagAt, event, Nat.reduceLT, hj, hj', decide_true, Bool.true_and]

/-- `ST`, bits 2:0 (R98). -/
theorem Channel.bits_statusWord_st : bits (Answer.ok r.statusData).word 2 0 = r.st.code := by
  have field : bits (Answer.ok r.statusData).word 2 0 = (BitVec.ofNat 3 r.st.code).toNat := by
    refine bits_eq_toNat fun k hk => ?_
    have hk' : k < 3 := hk
    simp [r.getLsbD_statusWord (j := k) (by omega), BitVec.getLsbD_ofNat, hk', show k ≠ 4 by omega, show k ≠ 5 by omega,
      show k ≠ 6 by omega, show k ≠ 7 by omega, show ¬ 8 ≤ k by omega, -BitVec.getLsbD_eq_getElem]
  rw [field]
  cases r.st <;> rfl

/-- `EV`, bits 15:8 (R98). -/
theorem Channel.bits_statusWord_ev :
    bits (Answer.ok r.statusData).word 15 8 = if r.bound then r.ev.toNat else 0 := by
  have field : bits (Answer.ok r.statusData).word 15 8 = (if r.bound then r.ev else 0).toNat := by
    refine bits_eq_toNat fun k hk => ?_
    rw [r.getLsbD_statusWord (by omega), r.st.testBit_code (by omega)]
    cases r.bound <;> simp [show 8 + k ≠ 4 by omega, show 8 + k ≠ 5 by omega, show 8 + k ≠ 6 by omega,
      show 8 + k ≠ 7 by omega]
  rw [field, apply_ite BitVec.toNat]
  rfl

end

/-- The bits of an accepted answer above `DATA` are zero, `RC` and `CAUSE` among them (R97). -/
theorem bits_word_ok_high (data : BitVec 16) : bits (Answer.ok data).word 31 16 = 0 :=
  bits_eq_toNat (v := 0#(31 - 16 + 1)) fun k _ => by
    rw [Answer.getLsbD_word_ok, BitVec.getLsbD_zero, data.getLsbD_of_ge _ (by omega)]

/-- STATUS adds its answer and, for Done and Idle, its ordering event, and changes nothing else (R72, R133). -/
theorem execStatus_has {s : State} {ch : Nat} {r : Channel} (h : s.Has ch r) :
    execStatus ch s = .next { s with
      portOut := s.portOut ++ [(Answer.ok r.statusData).word]
      history := if r.st = .done ∨ r.st = .idle then s.history ++ [.status ch r.st] else s.history } := by
  rw [execStatus, onChannel_has h, State.recordStatus]
  split <;> rfl

/-- Settles O23: STATUS answers the data word of R98 and changes nothing but the answers and, in Done and Idle, the
history. -/
theorem statusReturnsChannelState : Obligations.StatusReturnsChannelState := by
  intro s ch r h
  refine ⟨(Answer.ok r.statusData).word, execStatus_has h, bits_word_ok_high _, ?_⟩
  have hst : ∀ st, r.st = st → bits (Answer.ok r.statusData).word 2 0 = st.code := by
    rintro _ rfl
    exact r.bits_statusWord_st
  refine ⟨hst .idle, hst .armed, hst .active, hst .done, hst .error, ?_, ?_, ?_, ?_, ?_, r.bits_statusWord_ev⟩
  all_goals rw [r.getLsbD_statusWord (by decide), r.st.testBit_code (by decide)]; simp

end Machine
end Sys2Proof
end

section
/-! SUPPORT. The configuration checks of WRDESC as the rules write them (spec/40_descriptor_port.md R123 to R128), and the
order in which they report. -/

namespace Sys2Proof

/-- `mult(v, e)` is divisibility (spec/00_scope.md R8). -/
theorem mult_eq_true_iff {v : Word} {e : Nat} : mult v e = true ↔ e ∣ v.toNat := by
  rw [mult, beq_iff_eq, Nat.dvd_iff_mod_eq_zero]

namespace Image
variable (g : Image)

theorem chkReserved_iff : g.chkReserved = true ↔ g.FormOk := by
  simp only [chkReserved, ssizeCode, dsizeCode, Bool.and_eq_true, beq_iff_eq, bne_iff_ne, and_assoc]

theorem chkZero_iff : g.chkZero = true ↔ g.CountsOk := by
  simp only [chkZero, Bool.and_eq_true, bne_iff_ne]

theorem chkNbytes_iff : g.chkNbytes = true ↔ g.SizesOk := by
  simp only [chkNbytes, Bool.and_eq_true, mult_eq_true_iff, es, ed, ssizeCode, dsizeCode]

theorem chkStride_iff : g.chkStride = true ↔ g.StridesOk := by
  simp only [chkStride, Bool.and_eq_true, mult_eq_true_iff, es, ed, ssizeCode, dsizeCode]

theorem chkOffset_iff : g.chkOffset = true ↔ g.OffsetsOk := by
  simp only [chkOffset, Bool.and_eq_true, Bool.or_eq_true, beq_iff_eq, mult_eq_true_iff, es, ssizeCode]

theorem chkAlign_iff : g.chkAlign = true ↔ g.AlignOk := by
  simp only [chkAlign, Bool.and_eq_true, mult_eq_true_iff, es, ed, ssizeCode, dsizeCode]

theorem chkExtent_iff : g.chkExtent = true ↔ g.ExtentOk := by
  simp only [chkExtent, beq_iff_eq]

/-- The cause reported is that of the first condition that fails, in the order of R120. -/
theorem firstError_eq : g.firstError =
    if ¬ g.FormOk then some .reserved
    else if ¬ g.CountsOk then some .zero
    else if ¬ g.SizesOk then some .nbytesSize
    else if ¬ g.StridesOk then some .stride
    else if ¬ g.OffsetsOk then some .offset
    else if ¬ g.AlignOk then some .align
    else if ¬ g.ExtentOk then some .extent
    else none := by
  simp only [firstError, Bool.not_eq_true', ← Bool.not_eq_true, chkReserved_iff, chkZero_iff, chkNbytes_iff,
    chkStride_iff, chkOffset_iff, chkAlign_iff, chkExtent_iff]

end Image
end Sys2Proof
end

section
/-! PROOF. WRDESC reports the first check that fails (spec/40_descriptor_port.md R120 to R122). -/

namespace Sys2Proof.Machine

theorem raise_eq_says (a : Answer) (s : State) : raise a s = s.says a.word := rfl

section
variable {s : State} {ch : Nat} {r : Channel} {g : Image}

/-- The state check comes before every configuration check (R121). -/
theorem execWrdesc_not_idle (h : s.Has ch r) (hst : r.st ≠ .idle) :
    execWrdesc ch g s = s.says (Answer.preconditionViolation .state).word := by
  rw [execWrdesc, onChannel_has h, if_pos hst, raise_eq_says]

/-- On an Idle channel the answer is the cause of the first failing check (R122). -/
theorem execWrdesc_firstError {e : ConfigCause} (h : s.Has ch r) (hst : r.st = .idle) (he : g.firstError = some e) :
    execWrdesc ch g s = s.says (Answer.configurationError e).word := by
  rw [execWrdesc, onChannel_has h, if_neg (· hst), he]
  exact raise_eq_says _ s

end

/-- Settles O17: the state check, then each configuration check under the ones before it, selects its own answer. -/
theorem wrdescReportsFirstFailure : Obligations.WrdescReportsFirstFailure := by
  intro s ch r g h
  refine ⟨execWrdesc_not_idle h, fun hst fails => ?_, fun hst form fails => ?_, fun hst form counts fails => ?_,
    fun hst form counts sizes fails => ?_, fun hst form counts sizes strides fails => ?_,
    fun hst form counts sizes strides offsets fails => ?_,
    fun hst form counts sizes strides offsets align fails => ?_⟩
  · exact execWrdesc_firstError (e := .reserved) h hst (by rw [g.firstError_eq, if_pos fails])
  · exact execWrdesc_firstError (e := .zero) h hst (by rw [g.firstError_eq, if_neg (· form), if_pos fails])
  · exact execWrdesc_firstError (e := .nbytesSize) h hst (by
      rw [g.firstError_eq, if_neg (· form), if_neg (· counts), if_pos fails])
  · exact execWrdesc_firstError (e := .stride) h hst (by
      rw [g.firstError_eq, if_neg (· form), if_neg (· counts), if_neg (· sizes), if_pos fails])
  · exact execWrdesc_firstError (e := .offset) h hst (by
      rw [g.firstError_eq, if_neg (· form), if_neg (· counts), if_neg (· sizes), if_neg (· strides), if_pos fails])
  · exact execWrdesc_firstError (e := .align) h hst (by
      rw [g.firstError_eq, if_neg (· form), if_neg (· counts), if_neg (· sizes), if_neg (· strides),
        if_neg (· offsets), if_pos fails])
  · exact execWrdesc_firstError (e := .extent) h hst (by
      rw [g.firstError_eq, if_neg (· form), if_neg (· counts), if_neg (· sizes), if_neg (· strides),
        if_neg (· offsets), if_neg (· align), if_pos fails])

end Sys2Proof.Machine
end

section
/-! PROOF. A port operation that answers an error changes nothing else (spec/60_exceptions.md R203). -/

namespace Sys2Proof.Machine

/-- What a port operation may leave: one answer and no other change, or an accepted answer, with any further words. -/
def State.Answered (s t : State) : Prop :=
  (∃ a, t = s.answer a) ∨ ∃ data more, t.portOut = s.portOut ++ (Answer.ok data).word :: more

section
variable {s t : State} {ch : Nat}

theorem State.Answered.of_raise {a : Answer} (h : raise a s = .next t) : s.Answered t :=
  .inl ⟨a, ((raise_next a s t).mp h).symm⟩

theorem State.Answered.of_ok {data : BitVec 16} {more : List Word}
    (h : t.portOut = s.portOut ++ (Answer.ok data).word :: more) : s.Answered t := .inr ⟨data, more, h⟩

/-- The range check answers once, so only the operation on the register set is left to ask (R204). -/
theorem onChannel_answered {op : Channel → Host.Outcome State Fault Refusal} (h : onChannel ch s op = .next t)
    (hop : ∀ r, op r = .next t → s.Answered t) : s.Answered t := by
  rcases onChannel_next h with ⟨-, ht⟩ | ⟨r, -, hr⟩
  · exact .inl ⟨_, ht⟩
  · exact hop r hr

theorem execWrdesc_answered {img : Image} (h : execWrdesc ch img s = .next t) : s.Answered t := by
  refine onChannel_answered h fun r hr => ?_
  split at hr
  · exact .of_raise hr
  · split at hr
    · exact .of_raise hr
    · cases hr; exact .of_ok rfl

theorem execArm_answered (h : execArm ch s = .next t) : s.Answered t := by
  refine onChannel_answered h fun r hr => ?_
  split at hr
  · exact .of_raise hr
  · split at hr
    · exact .of_raise hr
    · cases hr; exact .of_ok rfl

theorem execDisarm_answered (h : execDisarm ch s = .next t) : s.Answered t := by
  refine onChannel_answered h fun r hr => ?_
  split at hr
  · exact .of_raise hr
  · cases hr; exact .of_ok rfl

theorem execStatus_answered (h : execStatus ch s = .next t) : s.Answered t := by
  refine onChannel_answered h fun r hr => ?_
  cases hr
  exact .of_ok (data := r.statusData) (more := []) (by simp [State.recordStatus, apply_ite State.portOut])

theorem execBind_answered {ev : Nat} (h : execBind ev ch s = .next t) : s.Answered t := by
  refine onChannel_answered h fun r hr => ?_
  split at hr
  · exact .of_raise hr
  · split at hr
    · exact .of_raise hr
    · cases hr; exact .of_ok rfl

theorem execStop_answered (h : execStop ch s = .next t) : s.Answered t := by
  refine onChannel_answered h fun r hr => ?_
  cases hr
  exact .of_ok rfl

theorem execRddesc_answered (h : execRddesc ch s = .next t) : s.Answered t := by
  refine onChannel_answered h fun r hr => ?_
  cases hr
  exact .of_ok (List.append_assoc ..)

theorem exec_answered {i : Instr} (hi : i.isPortOp = true) (h : exec i s = .next t) : s.Answered t := by
  cases i with
  | wrdesc ch img => exact execWrdesc_answered h
  | arm ch => exact execArm_answered h
  | disarm ch => exact execDisarm_answered h
  | status ch => exact execStatus_answered h
  | bind ev ch => exact execBind_answered h
  | stop ch => exact execStop_answered h
  | rddesc ch => exact execRddesc_answered h
  | req ev => cases hi
  | service ch => cases hi
  | reset => cases hi

end

/-- The class of an accepted answer is 0 (R97). -/
theorem bits_word_ok_class (data : BitVec 16) : bits (Answer.ok data).word 31 28 = 0 := by
  have high := bits_word_ok_high data
  simp only [bits] at high ⊢
  omega

/-- Settles O28: the first word is either the one answer of an operation that changes nothing else, or an accepted one,
whose class is 0. -/
theorem errorsChangeNothing : Obligations.ErrorsChangeNothing := by
  intro s t i w more hi h hout hclass
  rcases exec_answered hi h with ⟨a, rfl⟩ | ⟨data, rest, hok⟩
  · have answers : [a.word] = w :: more := List.append_cancel_left hout
    obtain ⟨rfl, rfl⟩ := List.cons.inj answers
    exact ⟨rfl, rfl⟩
  · have answers : (Answer.ok data).word :: rest = w :: more := List.append_cancel_left (hok.symm.trans hout)
    obtain ⟨rfl, -⟩ := List.cons.inj answers
    exact absurd (bits_word_ok_class data) hclass

end Sys2Proof.Machine
end

section
/-! PROOF. The request gating operations (spec/41_trigger_router.md): for each, what refuses it and the state an accepted
one leaves. -/

namespace Sys2Proof.Machine

/-- The state an accepted ordering operation leaves: one register set written, the event recorded (spec/20_memory.md R72),
OK answered. DISARM and STOP leave it, and ARM from the state that has published. -/
def State.acceptOrdered (s : State) (ch : Nat) (r : Channel) (e : Event) : State :=
  ((s.setChan ch r).record e).answer (.ok 0)

section
variable {s : State} {ch ev : Nat} {r : Channel}

theorem State.acceptOrdered_changes (h : s.Has ch r) (r' : Channel) (e : Event) :
    (s.acceptOrdered ch r' e).Has ch r' ∧ SameChannelsBut ch s (s.acceptOrdered ch r' e)
      ∧ SameEnvironment s (s.acceptOrdered ch r' e) ∧ EngineAtRest s (s.acceptOrdered ch r' e)
      ∧ (s.acceptOrdered ch r' e).history = s.history ++ [e] ∧ (s.acceptOrdered ch r' e).draws = s.draws
      ∧ (s.acceptOrdered ch r' e).portOut = s.portOut ++ [0x00000000#32] :=
  ⟨chan?_setChan_same h, sameChannelsBut_setChan s ch r', ⟨⟨rfl, rfl, rfl⟩, rfl⟩, ⟨rfl, rfl, rfl, rfl⟩, rfl, rfl, rfl⟩

/-! BIND: the event is checked before the state (R140). -/

theorem execBind_no_event (h : s.Has ch r) (hev : s.cfg.nEv ≤ ev) :
    execBind ev ch s = s.says (Answer.preconditionViolation .badCmd).word := by
  rw [execBind, onChannel_has h, if_pos hev, raise_eq_says]

theorem execBind_not_idle (h : s.Has ch r) (hev : ev < s.cfg.nEv) (hst : r.st ≠ .idle) :
    execBind ev ch s = s.says (Answer.preconditionViolation .state).word := by
  rw [execBind, onChannel_has h, if_neg hev.not_ge, if_pos hst, raise_eq_says]

theorem execBind_idle (h : s.Has ch r) (hev : ev < s.cfg.nEv) (hst : r.st = .idle) :
    execBind ev ch s
      = .next ((s.setChan ch { r with bound := true, ev := BitVec.ofNat 8 ev }).answer (.ok 0)) := by
  rw [execBind, onChannel_has h, if_neg hev.not_ge, if_neg (· hst)]

/-- An event the block has fits the register `ev`, since N_EV is at most 256 (spec/00_scope.md R6). -/
theorem Config.toNat_ofNat_event {cfg : Config} (hev : ev < cfg.nEv) : (BitVec.ofNat 8 ev).toNat = ev := by
  have events : cfg.nEv ≤ 2 ^ 8 := cfg.lastEv.isLt
  rw [BitVec.toNat_ofNat, Nat.mod_eq_of_lt (hev.trans_le events)]

/-! ARM: the state is checked before `valid` (R142, R143). -/

theorem execArm_not_idle (h : s.Has ch r) (hst : r.st ≠ .idle) :
    execArm ch s = s.says (Answer.preconditionViolation .state).word := by
  rw [execArm, onChannel_has h, if_pos hst, raise_eq_says]

theorem execArm_no_descriptor (h : s.Has ch r) (hst : r.st = .idle) (hvalid : r.valid = false) :
    execArm ch s = s.says (Answer.preconditionViolation .noDesc).word := by
  rw [execArm, onChannel_has h, if_neg (· hst), if_pos hvalid, raise_eq_says]

theorem execArm_idle_valid (h : s.Has ch r) (hst : r.st = .idle) (hvalid : r.valid = true) :
    execArm ch s = .next ((s.publish ch).acceptOrdered ch { r with st := .armed, enable := true } (.arm ch)) := by
  rw [execArm, onChannel_has h, if_neg (· hst), if_neg (by simp [hvalid])]
  rfl

/-- No store races with the channel that has published, so its reads return what is in memory (spec/20_memory.md R75). -/
theorem readElement_publish_acceptOrdered (s : State) (ch : Nat) (r : Channel) (e : Event) (a : Word) (n : Nat) :
    ((s.publish ch).acceptOrdered ch r e).readElement ch a n = s.mem.readBytes a n :=
  readElement_calm (racing_publish s ch a n)

/-! DISARM and STOP (R144 to R146). -/

theorem execDisarm_active (h : s.Has ch r) (hst : r.st = .active) :
    execDisarm ch s = s.says (Answer.preconditionViolation .state).word := by
  rw [execDisarm, onChannel_has h, if_pos hst, raise_eq_says]

theorem execDisarm_not_active (h : s.Has ch r) (hst : r.st ≠ .active) :
    execDisarm ch s = .next (s.acceptOrdered ch r.disarmed (.disarm ch)) := by
  rw [execDisarm, onChannel_has h, if_neg hst, State.acceptOrdered]

theorem execStop_has (h : s.Has ch r) : execStop ch s = .next (s.acceptOrdered ch r.stopped (.stop ch)) := by
  rw [execStop, onChannel_has h, State.acceptOrdered]

end

/-- Settles O24: the event check, then the state check, selects the answer; an accepted BIND writes one register set. -/
theorem bindFollowsItsRule : Obligations.BindFollowsItsRule := by
  intro s ev ch r h
  refine ⟨execBind_no_event h, execBind_not_idle h, fun hev hst => ?_⟩
  exact ⟨_, _, execBind_idle h hev hst, chan?_setChan_same h, Config.toNat_ofNat_event hev, rfl,
    sameChannelsBut_setChan s ch _, ⟨⟨rfl, rfl, rfl⟩, rfl⟩, ⟨rfl, rfl, rfl, rfl⟩, rfl, rfl, rfl⟩

/-- Settles O25: the state check, then the descriptor check, selects the answer; an accepted ARM publishes, then writes. -/
theorem armFollowsItsRule : Obligations.ArmFollowsItsRule := by
  intro s ch r h
  refine ⟨execArm_not_idle h, execArm_no_descriptor h, fun hst hvalid => ?_⟩
  obtain ⟨has, others, env, ⟨mem, -, accesses, irqs⟩, history, draws, out⟩ :=
    State.acceptOrdered_changes (s := s.publish ch) h { r with st := .armed, enable := true } (.arm ch)
  exact ⟨_, execArm_idle_valid h hst hvalid, has, others, env, mem, accesses, irqs, history, draws, out,
    readElement_publish_acceptOrdered s ch _ _⟩

/-- Settles O26: Active is the one state in which DISARM is refused. -/
theorem disarmFollowsItsRule : Obligations.DisarmFollowsItsRule := by
  intro s ch r h
  exact ⟨execDisarm_active h, fun hst =>
    ⟨_, execDisarm_not_active h hst, State.acceptOrdered_changes h r.disarmed (.disarm ch)⟩⟩

/-- Settles O27: STOP is accepted without any check of the state. -/
theorem stopForcesIdle : Obligations.StopForcesIdle := by
  intro s ch r h
  exact ⟨_, execStop_has h, State.acceptOrdered_changes h r.stopped (.stop ch)⟩

/-- Settles O29: ARM leaves the channel Armed, which DISARM accepts; DISARM leaves it Idle, and neither writes `valid` or a
descriptor register, so ARM is accepted again. -/
theorem rearmWithoutServiceSucceeds : Obligations.RearmWithoutServiceSucceeds := by
  intro s ch r h hst hvalid
  obtain ⟨-, -, arm⟩ := armFollowsItsRule s ch r h
  obtain ⟨t, armed, ht, -, -, -, -, -, -, -, tout, -⟩ := arm hst hvalid
  obtain ⟨-, disarm⟩ := disarmFollowsItsRule t ch _ ht
  obtain ⟨u, disarmed, hu, -, -, -, -, -, uout⟩ := disarm (by simp)
  obtain ⟨-, -, rearm⟩ := armFollowsItsRule u ch _ hu
  obtain ⟨v, rearmed, hv, -, -, -, -, -, -, -, vout, -⟩ := rearm rfl hvalid
  exact ⟨t, u, v, _, armed, disarmed, rearmed, hv, rfl, rfl, hvalid, rfl, by simp [vout, uout, tout]⟩

end Sys2Proof.Machine
end

section
/-! PROOF. REQ (spec/42_transfer_engine.md R160, R161) maps one function over the channel register sets. -/

namespace Sys2Proof.Machine

theorem Channel.hears_iff {r : Channel} {ev : Nat} :
    r.hears ev = true ↔ r.bound = true ∧ r.ev.toNat = ev ∧ r.enable = true := by
  simp [Channel.hears, and_assoc]

/-- Settles O31: a channel of the next state is the image of the channel with its number, so it is read off there. -/
theorem reqLatchesRequests : Obligations.ReqLatchesRequests := by
  intro s e
  refine ⟨_, rfl, rfl, List.length_map _, fun c r h => ?_⟩
  have hr : s.chans[c]? = some r := h
  simp only [State.Has, State.chan?, List.getElem?_map, hr, Option.map_some, Channel.hears_iff]

end Sys2Proof.Machine
end

section
/-! SUPPORT. Where the accesses of an iteration belong (spec/42_transfer_engine.md R164 to R168): the element counts,
the addresses of the elements and of their bytes, and the index of an access within the step. -/

namespace Sys2Proof.Machine

/-- Byte `m` of an element at `a` is at `a +32 m` (spec/00_scope.md R10). -/
theorem getElem?_elementAddrs {n m : Nat} (a : Word) (hm : m < n) :
    (elementAddrs a n)[m]? = some (a + BitVec.ofNat 32 m).toNat := by
  induction n generalizing a m with
  | zero => omega
  | succ n ih =>
    cases m with
    | zero => simp [elementAddrs]
    | succ m =>
      rw [elementAddrs, List.getElem?_cons_succ, ih (a + 1) (by omega), BitVec.ofNat_add, BitVec.add_assoc,
        BitVec.add_comm (BitVec.ofNat 32 m)]
      rfl

theorem getD_readBytes (mem : Memory) {n m : Nat} (a : Word) (hm : m < n) :
    (mem.readBytes a n).getD m 0 = mem.read (a + BitVec.ofNat 32 m).toNat := by
  simp [Memory.readBytes, List.getD_eq_getElem?_getD, getElem?_elementAddrs a hm]

namespace Descriptor

section
variable {d : Descriptor} {j k m : Nat}

@[simp] theorem srcAt_zero (d : Descriptor) : d.srcAt 0 = d.saddr := by simp [srcAt]

@[simp] theorem dstAt_zero (d : Descriptor) : d.dstAt 0 = d.daddr := by simp [dstAt]

/-- The stride-address generator (R166). -/
theorem srcAt_succ (d : Descriptor) (j : Nat) : d.srcAt (j + 1) = d.srcAt j + d.soff := by
  simp [srcAt, Nat.succ_mul, BitVec.ofNat_add, BitVec.add_assoc]

/-- The stride-address generator (R167). -/
theorem dstAt_succ (d : Descriptor) (k : Nat) : d.dstAt (k + 1) = d.dstAt k + d.doff := by
  simp [dstAt, Nat.succ_mul, BitVec.ofNat_add, BitVec.add_assoc]

/-- Byte `m` of source element `j` is byte `j × es + m` of the iteration (R168). -/
theorem srcByte_of_lt (hm : m < d.ssize.bytes) :
    d.srcByte (j * d.ssize.bytes + m) = (d.srcAt j + BitVec.ofNat 32 m).toNat := by
  rw [srcByte, Nat.mul_comm j, Nat.mul_add_div (ElemSize.bytes_pos d.ssize), Nat.mul_add_mod, Nat.div_eq_of_lt hm,
    Nat.mod_eq_of_lt hm, Nat.add_zero]

/-- Byte `m` of destination element `k` is byte `k × ed + m` of the iteration (R168). -/
theorem dstByte_of_lt (hm : m < d.dsize.bytes) :
    d.dstByte (k * d.dsize.bytes + m) = (d.dstAt k + BitVec.ofNat 32 m).toNat := by
  rw [dstByte, Nat.mul_comm k, Nat.mul_add_div (ElemSize.bytes_pos d.dsize), Nat.mul_add_mod, Nat.div_eq_of_lt hm,
    Nat.mod_eq_of_lt hm, Nat.add_zero]

/-! Element counts (R164). -/

theorem Checked.reads_mul (hd : d.Checked) : d.reads * d.ssize.bytes = d.nbytes.toNat := by
  obtain ⟨-, -, hes, -⟩ := hd
  exact Nat.div_mul_cancel hes

theorem Checked.writes_mul (hd : d.Checked) : d.writes * d.dsize.bytes = d.nbytes.toNat := by
  obtain ⟨-, -, -, hed, -⟩ := hd
  exact Nat.div_mul_cancel hed

theorem Checked.nbytes_pos (hd : d.Checked) : 0 < d.nbytes.toNat :=
  Nat.pos_of_ne_zero fun h => hd.1 (BitVec.eq_of_toNat_eq h)

theorem Checked.reads_pos (hd : d.Checked) : 0 < d.reads :=
  Nat.pos_of_mul_pos_right (hd.reads_mul ▸ hd.nbytes_pos)

theorem Checked.writes_pos (hd : d.Checked) : 0 < d.writes :=
  Nat.pos_of_mul_pos_right (hd.writes_mul ▸ hd.nbytes_pos)

/-- The bytes of the source elements are bytes of the iteration. -/
theorem Checked.read_byte_lt (hd : d.Checked) (hj : j < d.reads) (hm : m < d.ssize.bytes) :
    j * d.ssize.bytes + m < d.nbytes.toNat :=
  calc j * d.ssize.bytes + m < (j + 1) * d.ssize.bytes := Nat.succ_mul j _ ▸ Nat.add_lt_add_left hm _
    _ ≤ d.reads * d.ssize.bytes := Nat.mul_le_mul_right _ hj
    _ = d.nbytes.toNat := hd.reads_mul

/-- The bytes of the destination elements are bytes of the iteration. -/
theorem Checked.write_byte_lt (hd : d.Checked) (hk : k < d.writes) (hm : m < d.dsize.bytes) :
    k * d.dsize.bytes + m < d.nbytes.toNat :=
  calc k * d.dsize.bytes + m < (k + 1) * d.dsize.bytes := Nat.succ_mul k _ ▸ Nat.add_lt_add_left hm _
    _ ≤ d.writes * d.dsize.bytes := Nat.mul_le_mul_right _ hk
    _ = d.nbytes.toNat := hd.writes_mul

/-! The index of an access (R165). -/

/-- Write `k` comes after `k` writes and the reads that bring its bytes: `(k + 1) × ed` over `es`, rounded up. -/
theorem writeIndex_eq_ceilDiv (d : Descriptor) (k : Nat) :
    d.writeIndex k = k + (k + 1) * d.dsize.bytes ⌈/⌉ d.ssize.bytes := rfl

/-- A read that is made when the bytes read fill no more than the `k` writes made is access `j + k`. -/
theorem readIndex_eq_add (hk : k * d.dsize.bytes ≤ j * d.ssize.bytes)
    (hj : j * d.ssize.bytes < (k + 1) * d.dsize.bytes) : d.readIndex j = j + k := by
  rw [readIndex, Nat.div_eq_of_lt_le hk hj]

/-- A write that is made as soon as the `j` reads made bring its bytes is access `j + k`. -/
theorem writeIndex_eq_add (hj : (k + 1) * d.dsize.bytes ≤ j * d.ssize.bytes)
    (hk : j * d.ssize.bytes < (k + 1) * d.dsize.bytes + d.ssize.bytes) : d.writeIndex k = j + k := by
  rw [writeIndex, Nat.add_sub_assoc (ElemSize.bytes_pos d.ssize), Nat.add_comm j]
  congr 1
  have := ElemSize.bytes_pos d.ssize
  exact Nat.div_eq_of_lt_le (by omega) (by rw [Nat.succ_mul j]; omega)

/-- The order of R165. -/
theorem readIndex_lt_writeIndex_iff (d : Descriptor) (j k : Nat) :
    d.readIndex j < d.writeIndex k ↔ j * d.ssize.bytes < (k + 1) * d.dsize.bytes := by
  have reads : (k + 1) * d.dsize.bytes ⌈/⌉ d.ssize.bytes ≤ j ↔ (k + 1) * d.dsize.bytes ≤ d.ssize.bytes * j :=
    ceilDiv_le_iff_le_mul (ElemSize.bytes_pos d.ssize)
  have writes : k + 1 ≤ j * d.ssize.bytes / d.dsize.bytes ↔ (k + 1) * d.dsize.bytes ≤ j * d.ssize.bytes :=
    Nat.le_div_iff_mul_le (ElemSize.bytes_pos d.dsize)
  rw [Nat.mul_comm d.ssize.bytes] at reads
  rw [readIndex, writeIndex_eq_ceilDiv]
  omega

end
end Descriptor
end Sys2Proof.Machine
end

section
/-! SUPPORT. How far an iteration has come when none of its accesses fails (spec/42_transfer_engine.md R162, R164 to
R167): the element accesses it has made, the bytes they brought, and the registers it carries. -/

namespace Sys2Proof.Machine

/-- The induction over an iteration, for a property of the transfer and the number of writes still to make. -/
theorem moveElements_ends_counting {c : Nat} {d : Descriptor} {P : Nat → Transfer → Prop} {Q : State → Prop}
    (hr : ∀ n x, P (n + 1) x → x.queue.length < d.dsize.bytes → (readSource c d x).Ends (P (n + 1)) Q)
    (hw : ∀ n x, P (n + 1) x → d.dsize.bytes ≤ x.queue.length → (writeDest c d x).Ends (P n) Q) (n : Nat) (x : Transfer)
    (h : P n x) : (moveElements c d n x).Ends (P 0) Q := by
  induction n generalizing x with
  | zero => exact h
  | succ n ih =>
    exact ((fillQueue_ends (hr n) _ x h (by omega)).andThen fun y hy => hw n y hy.1 hy.2).andThen fun y hy => ih y hy

/-- From `s` to `t` the history grew, and `log` are the element accesses among what it grew by. -/
def State.Logs (log : List Event) (s t : State) : Prop :=
  ∃ es, t.history = s.history ++ es ∧ es.filter Event.isAccess = log

section
variable {log : List Event} {s t u : State}

theorem State.Logs.of_history_eq (h : t.history = s.history) : State.Logs [] s t := ⟨[], by simp [h], rfl⟩

/-- What the host does inside the step is no element access. -/
theorem State.Logs.trans_noAccess (h : State.Logs log s t) (h' : State.Adds Event.NoAccess t u) :
    State.Logs log s u := by
  obtain ⟨es, ht, rfl⟩ := h
  obtain ⟨fs, hu, hfs⟩ := h'
  refine ⟨es ++ fs, by rw [hu, ht, List.append_assoc], ?_⟩
  have none : fs.filter Event.isAccess = [] := List.filter_eq_nil_iff.mpr fun e he => by simp [hfs e he]
  rw [List.filter_append, none, List.append_nil]

/-- One more element access, after the accesses of the host that come before it. -/
theorem State.Logs.access (h : State.Logs log s t) (i : Nat) {e : Event} (he : e.isAccess = true)
    (hu : u.history = (t.hostBefore i).history ++ [e]) : State.Logs (log ++ [e]) s u := by
  obtain ⟨es, ht, rfl⟩ := h.trans_noAccess (hostBefore_adds t i)
  exact ⟨es ++ [e], by rw [hu, ht, List.append_assoc], by simp [he]⟩

end

/-- Write `k` of an iteration whose reads brought the bytes `bs`. -/
def Descriptor.writeEvent (d : Descriptor) (c : Nat) (bs : List Byte) (k : Nat) : Event :=
  .write c (d.writeIndex k) (d.dstAt k) d.dsize.bytes ((bs.drop (k * d.dsize.bytes)).take d.dsize.bytes) true

/-- Read `j` of an iteration. -/
def Descriptor.readEvent (d : Descriptor) (c j : Nat) : Event :=
  .read c (d.readIndex j) (d.srcAt j) d.ssize.bytes true

/-- `log` are the first `j` reads, which brought the bytes `bs`, and the first `k` writes, each at its place. -/
structure InPlace (c : Nat) (d : Descriptor) (j k : Nat) (bs : List Byte) (log : List Event) : Prop where
  length : log.length = j + k
  reads : ∀ i, i < j → log[d.readIndex i]? = some (d.readEvent c i)
  writes : ∀ i, i < k → log[d.writeIndex i]? = some (d.writeEvent c bs i)

section
variable {c : Nat} {d : Descriptor} {j k : Nat} {bs : List Byte} {log : List Event}

theorem InPlace.nil (c : Nat) (d : Descriptor) : InPlace c d 0 0 [] [] := ⟨rfl, by simp, by simp⟩

/-- What stands in a list stands there when the list grows. -/
theorem getElem?_append_of_eq_some {α : Type} {l : List α} {i : Nat} {a : α} (r : List α) (h : l[i]? = some a) :
    (l ++ r)[i]? = some a := by
  rw [List.getElem?_append_left (List.getElem?_eq_some_iff.mp h).1, h]

/-- The bytes of a write that has been made do not depend on later reads. -/
theorem Descriptor.writeEvent_append (more : List Byte) (h : (k + 1) * d.dsize.bytes ≤ bs.length) :
    d.writeEvent c (bs ++ more) k = d.writeEvent c bs k := by
  rw [Nat.succ_mul] at h
  rw [writeEvent, List.drop_append_of_le_length (by omega),
    List.take_append_of_le_length (by rw [List.length_drop]; omega), writeEvent]

theorem InPlace.read (h : InPlace c d j k bs log) (more : List Byte) (hi : d.readIndex j = j + k)
    (hk : k * d.dsize.bytes ≤ bs.length) : InPlace c d (j + 1) k (bs ++ more) (log ++ [d.readEvent c j]) where
  length := by rw [List.length_append, h.length, List.length_singleton, Nat.add_right_comm]
  reads i hij := by
    rcases Nat.lt_succ_iff_lt_or_eq.mp hij with hij | rfl
    · exact getElem?_append_of_eq_some _ (h.reads i hij)
    · rw [hi, ← h.length, List.getElem?_concat_length]
  writes i hik := by
    rw [Descriptor.writeEvent_append more ((Nat.mul_le_mul_right _ hik).trans hk)]
    exact getElem?_append_of_eq_some _ (h.writes i hik)

theorem InPlace.write (h : InPlace c d j k bs log) (hi : d.writeIndex k = j + k) :
    InPlace c d j (k + 1) bs (log ++ [d.writeEvent c bs k]) where
  length := by rw [List.length_append, h.length, List.length_singleton, Nat.add_assoc]
  reads i hij := getElem?_append_of_eq_some _ (h.reads i hij)
  writes i hik := by
    rcases Nat.lt_succ_iff_lt_or_eq.mp hik with hik | rfl
    · exact getElem?_append_of_eq_some _ (h.writes i hik)
    · rw [hi, ← h.length, List.getElem?_concat_length]

end

/-- The iteration that began in `s` stands at `x`: it has made `j` reads, which brought the bytes `bs`, and `k` writes,
and none failed. -/
structure Transfer.Reached (c : Nat) (d : Descriptor) (s : State) (j k : Nat) (bs : List Byte) (x : Transfer) :
    Prop where
  cfg : x.s.cfg = s.cfg
  accesses : x.s.accesses = s.accesses + (j + k)
  logs : ∃ log, State.Logs log s x.s ∧ InPlace c d j k bs log
  src : x.src = d.srcAt j
  dst : x.dst = d.dstAt k
  idx : x.idx = j + k
  brought : bs.length = j * d.ssize.bytes
  queue : x.queue = bs.drop (k * d.dsize.bytes)
  taken : k * d.dsize.bytes ≤ j * d.ssize.bytes
  /-- a read is made only while the queue does not hold the bytes of the next write (R165) -/
  ahead : j * d.ssize.bytes < (k + 1) * d.dsize.bytes + d.ssize.bytes
  within : j * d.ssize.bytes ≤ d.nbytes.toNat

section
variable {c : Nat} {d : Descriptor} {s : State} {j k : Nat} {bs : List Byte} {x : Transfer}

theorem Transfer.Reached.start (c : Nat) (d : Descriptor) (s : State) :
    Transfer.Reached c d s 0 0 [] { s := s, src := d.saddr, dst := d.daddr, queue := [], idx := 0 } where
  cfg := rfl
  accesses := rfl
  logs := ⟨[], .of_history_eq rfl, .nil c d⟩
  src := d.srcAt_zero.symm
  dst := d.dstAt_zero.symm
  idx := rfl
  brought := by simp
  queue := by simp
  taken := by simp
  ahead := by have := ElemSize.bytes_pos d.ssize; omega
  within := by simp

theorem Transfer.Reached.queue_length (h : x.Reached c d s j k bs) :
    x.queue.length = j * d.ssize.bytes - k * d.dsize.bytes := by
  rw [h.queue, List.length_drop, h.brought]

/-- While the queue is short, the reads have not brought the bytes of the next write. -/
theorem Transfer.Reached.short (h : x.Reached c d s j k bs) (hq : x.queue.length < d.dsize.bytes) :
    j * d.ssize.bytes < (k + 1) * d.dsize.bytes := by
  rw [h.queue_length] at hq
  rw [Nat.succ_mul]
  omega

/-- A read belongs at the place where it is made, which a write still to come bounds. -/
theorem Transfer.Reached.read_place (h : x.Reached c d s j k bs) (hd : d.Checked) (hk : k < d.writes)
    (hq : x.queue.length < d.dsize.bytes) : j < d.reads ∧ d.readIndex j = j + k := by
  have short := h.short hq
  refine ⟨?_, Descriptor.readIndex_eq_add h.taken short⟩
  refine lt_of_mul_lt_mul_right ?_ (Nat.zero_le d.ssize.bytes)
  calc j * d.ssize.bytes < (k + 1) * d.dsize.bytes := short
    _ ≤ d.writes * d.dsize.bytes := Nat.mul_le_mul_right _ hk
    _ = d.reads * d.ssize.bytes := by rw [hd.writes_mul, hd.reads_mul]

/-- A write belongs at the place where it is made. -/
theorem Transfer.Reached.write_place (h : x.Reached c d s j k bs) (hq : d.dsize.bytes ≤ x.queue.length) :
    (k + 1) * d.dsize.bytes ≤ j * d.ssize.bytes ∧ d.writeIndex k = j + k := by
  have full : (k + 1) * d.dsize.bytes ≤ j * d.ssize.bytes := by
    rw [h.queue_length] at hq
    have := ElemSize.bytes_pos d.dsize
    rw [Nat.succ_mul]
    omega
  exact ⟨full, Descriptor.writeIndex_eq_add full h.ahead⟩

/-- The next read: what an element read returns at its instant joins the bytes brought. -/
theorem readSource_reached (h : x.Reached c d s j k bs) (hd : d.Checked) (hf : s.NoAccessFails d) (hk : k < d.writes)
    (hq : x.queue.length < d.dsize.bytes) :
    (readSource c d x).Ends
      (fun y => y.Reached c d s (j + 1) k (bs ++ (x.s.hostBefore x.idx).readElement c (d.srcAt j) d.ssize.bytes)
        ∧ y.s = ((x.s.hostBefore x.idx).drew ((x.s.hostBefore x.idx).readDraws c x.src d.ssize.bytes)).accessed
            (d.readEvent c j))
      (fun _ => False) := by
  obtain ⟨hj, place⟩ := h.read_place hd hk hq
  have goes : x.s.accessFault x.src d.ssize.bytes .read = false := by
    rw [State.accessFault, h.cfg, h.accesses, h.src, ← place]
    exact hf.1 j hj
  have event : Event.read c x.idx x.src d.ssize.bytes true = d.readEvent c j := by
    rw [Descriptor.readEvent, place, h.idx, h.src]
  obtain ⟨log, logs, inPlace⟩ := h.logs
  have taken := h.taken
  rcases readSource_spec c d x with ⟨fails, -⟩ | ⟨-, e⟩
  · rw [goes] at fails; cases fails
  rw [e, event]
  refine ⟨?_, rfl⟩
  exact {
    cfg := by simp [h.cfg]
    accesses := by
      simp only [State.accessed_accesses, State.drew_accesses, State.hostBefore_accesses, h.accesses]; omega
    logs := ⟨_, logs.access x.idx (e := d.readEvent c j) rfl rfl, inPlace.read _ place (h.brought ▸ taken)⟩
    src := by rw [h.src, d.srcAt_succ]
    dst := h.dst
    idx := by simp only [h.idx]; omega
    brought := by simp [h.brought, Nat.succ_mul]
    queue := by rw [h.queue, h.src, List.drop_append_of_le_length (h.brought ▸ taken)]
    taken := taken.trans (Nat.mul_le_mul_right _ j.le_succ)
    ahead := Nat.succ_mul j _ ▸ Nat.add_lt_add_right (h.short hq) _
    within := hd.reads_mul ▸ Nat.mul_le_mul_right _ hj }

/-- The next write: it takes the first bytes of the queue. -/
theorem writeDest_reached (h : x.Reached c d s j k bs) (hf : s.NoAccessFails d) (hk : k < d.writes)
    (hq : d.dsize.bytes ≤ x.queue.length) :
    (writeDest c d x).Ends
      (fun y => y.Reached c d s j (k + 1) bs
        ∧ y.s = ((x.s.hostBefore x.idx).engineStore (d.dstAt k) (x.queue.take d.dsize.bytes)).accessed
            (d.writeEvent c bs k))
      (fun _ => False) := by
  obtain ⟨full, place⟩ := h.write_place hq
  have goes : x.s.accessFault x.dst d.dsize.bytes .write = false := by
    rw [State.accessFault, h.cfg, h.accesses, h.dst, ← place]
    exact hf.2 k hk
  have event : Event.write c x.idx x.dst d.dsize.bytes (x.queue.take d.dsize.bytes) true = d.writeEvent c bs k := by
    rw [Descriptor.writeEvent, place, h.idx, h.dst, h.queue]
  obtain ⟨log, logs, inPlace⟩ := h.logs
  rcases writeDest_spec c d x with ⟨fails, -⟩ | ⟨-, e⟩
  · rw [goes] at fails; cases fails
  rw [e, event]
  refine ⟨?_, by rw [h.dst]⟩
  exact {
    cfg := by simp [h.cfg]
    accesses := by
      simp only [State.accessed_accesses, State.engineStore_accesses, State.hostBefore_accesses, h.accesses]; omega
    logs := ⟨_, logs.access x.idx (e := d.writeEvent c bs k) rfl rfl, inPlace.write place⟩
    src := h.src
    dst := by rw [h.dst, d.dstAt_succ]
    idx := by simp only [h.idx]; omega
    brought := h.brought
    queue := by rw [h.queue, List.drop_drop, Nat.succ_mul]
    taken := full
    ahead := h.ahead.trans_le (Nat.add_le_add_right (Nat.mul_le_mul_right _ (k + 1).le_succ) _)
    within := h.within }

/-- When all writes are made, all reads are. -/
theorem Transfer.Reached.all_reads (h : x.Reached c d s j d.writes bs) (hd : d.Checked) : j = d.reads := by
  refine Nat.eq_of_mul_eq_mul_right (ElemSize.bytes_pos d.ssize) ?_
  rw [hd.reads_mul]
  exact h.within.antisymm (hd.writes_mul ▸ h.taken)

end
end Sys2Proof.Machine
end

section
/-! SUPPORT. What the reads of an iteration bring while its source bytes stay as they were (spec/20_memory.md R73, R79;
spec/42_transfer_engine.md R168). -/

namespace Sys2Proof.Machine

/-- Nothing but the engine touches the bytes of the iteration that starts now, and the engine keeps off its source. -/
structure State.Undisturbed (s : State) (c : Nat) (d : Descriptor) : Prop where
  races : ∀ x ∈ s.races, x.ch ≠ c
  apart : d.Apart
  host : s.HostKeepsOff d

/-- The source bytes of the iteration that began in `s` stand in `t` as they stood, no store that races with the channel
wrote one, and no access of the host has joined those that wait. -/
structure State.SourceIntact (s : State) (c : Nat) (d : Descriptor) (t : State) : Prop where
  bytes : ∀ i, i < d.nbytes.toNat → t.mem.read (d.srcByte i) = s.mem.read (d.srcByte i)
  races : ∀ x ∈ t.races, x.ch = c → ∀ cell ∈ x.old, ∀ i, i < d.nbytes.toNat → cell.1 ≠ d.srcByte i
  inside : t.inside ⊆ s.inside

section
variable {s t : State} {c : Nat} {d : Descriptor}

theorem State.Undisturbed.sourceIntact (h : s.Undisturbed c d) : s.SourceIntact c d s :=
  ⟨fun _ _ => rfl, fun x hx hc => absurd hc (h.races x hx), List.Subset.refl _⟩

theorem State.SourceIntact.congr {u : State} (h : s.SourceIntact c d t) (hm : u.mem = t.mem) (hr : u.races = t.races)
    (hi : u.inside = t.inside) : s.SourceIntact c d u :=
  ⟨hm ▸ h.bytes, hr ▸ h.races, hi ▸ h.inside⟩

/-- An access of the host that stores to no source byte leaves the source intact, also toward racing reads. -/
theorem State.SourceIntact.hostAccess (h : s.SourceIntact c d t) {x : HostAccess}
    (hx : ∀ a ∈ x.storeAddrs, ∀ i, i < d.nbytes.toNat → a ≠ d.srcByte i) : s.SourceIntact c d (t.hostAccess x) := by
  cases x with
  | load a n => exact h.congr rfl rfl rfl
  | store a bs =>
    refine ⟨fun i hi => ?_, fun y hy hc cell hcell i hi => ?_, h.inside⟩
    · rw [← h.bytes i hi]
      exact read_writeBytes_other t.mem a bs _ fun hmem => hx _ hmem i hi rfl
    · rcases List.mem_append.mp hy with hy | hy
      · obtain ⟨k, -, rfl⟩ := List.mem_map.mp hy
        obtain ⟨b, hb, rfl⟩ := List.mem_map.mp hcell
        exact hx b hb i hi
      · exact h.races y hy hc cell hcell i hi

/-- The accesses of the host that take effect inside a step are among those that waited, and so are those that go on
waiting. -/
theorem landInside_mem_inv {P : State → Prop} (due : InsideAccess → Bool) (xs : List InsideAccess)
    (hx : ∀ x ∈ xs, ∀ s, P s → P (s.hostAccess x.access))
    (hi : ∀ ys, ys ⊆ xs → ∀ s, P s → P { s with inside := ys }) (s : State) (h : P s) : P (landInside due xs s) := by
  induction xs generalizing s with
  | nil => exact hi [] (List.nil_subset _) s h
  | cons x xs ih =>
    simp only [landInside]
    split
    · exact ih (fun y hy => hx y (List.mem_cons_of_mem x hy)) (fun ys hys => hi ys (List.subset_cons_of_subset x hys)) _
        (hx x List.mem_cons_self s h)
    · exact hi (x :: xs) (List.Subset.refl _) s h

theorem State.SourceIntact.hostBefore (h : s.SourceIntact c d t) (hu : s.Undisturbed c d) (i : Nat) :
    s.SourceIntact c d (t.hostBefore i) :=
  landInside_mem_inv _ _
    (fun x hx _ hs => hs.hostAccess fun a ha j hj => (hu.host x (h.inside hx) a ha j hj).1)
    (fun _ hys _ hs => ⟨hs.bytes, hs.races, fun _ hy => h.inside (hys hy)⟩) t h

/-- A write of the engine to bytes that are no source bytes leaves the source intact. -/
theorem State.SourceIntact.engineStore (h : s.SourceIntact c d t) {a : Word} {bs : List Byte}
    (ha : ∀ i, i < d.nbytes.toNat → d.srcByte i ∉ elementAddrs a bs.length) :
    s.SourceIntact c d (t.engineStore a bs) := by
  refine ⟨fun i hi => ?_, fun y hy hc cell hcell => ?_, h.inside⟩
  · rw [← h.bytes i hi]
    exact read_writeBytes_other t.mem a bs _ (ha i hi)
  · obtain ⟨z, hz, rfl⟩ := List.mem_map.mp hy
    exact h.races z hz hc cell (List.mem_filter.mp hcell).1

/-- The bytes of destination element `k` are no source bytes. -/
theorem Descriptor.Apart.srcByte_notMem {k i : Nat} (h : d.Apart) (hd : d.Checked) (hk : k < d.writes)
    (hi : i < d.nbytes.toNat) : d.srcByte i ∉ elementAddrs (d.dstAt k) d.dsize.bytes := by
  rw [mem_elementAddrs]
  rintro ⟨m, hm, he⟩
  rw [← Descriptor.dstByte_of_lt hm] at he
  exact h i (k * d.dsize.bytes + m) hi (hd.write_byte_lt hk hm) he

/-- A read of source element `j` brings what stood there when the iteration began. -/
theorem State.SourceIntact.readElement {j m : Nat} (h : s.SourceIntact c d t) (hd : d.Checked) (hj : j < d.reads)
    (hm : m < d.ssize.bytes) :
    (t.readElement c (d.srcAt j) d.ssize.bytes).getD m 0 = s.mem.read (d.srcByte (j * d.ssize.bytes + m)) := by
  have calm : t.racing c (d.srcAt j) d.ssize.bytes = [] := by
    refine List.filter_eq_nil_iff.mpr fun x hx => ?_
    simp only [RacingStore.touches, Bool.and_eq_true, beq_iff_eq, List.any_eq_true, not_and, not_exists,
      Bool.not_eq_true, Option.isSome_eq_false_iff, Option.isNone_iff_eq_none, List.lookup_eq_none_iff]
    intro hc a ha cell hcell
    obtain ⟨n, hn, rfl⟩ := mem_elementAddrs.mp ha
    rw [← Descriptor.srcByte_of_lt hn]
    exact bne_iff_ne.mpr (h.races x hx hc cell hcell _ (hd.read_byte_lt hj hn)).symm
  rw [readElement_calm calm, getD_readBytes _ _ hm, ← Descriptor.srcByte_of_lt hm, h.bytes _ (hd.read_byte_lt hj hm)]

end

/-- The bytes brought are those that stood at the source addresses, which stand there still. -/
structure Transfer.Faithful (c : Nat) (d : Descriptor) (s : State) (bs : List Byte) (x : Transfer) : Prop where
  intact : s.SourceIntact c d x.s
  bytes : ∀ i, i < bs.length → bs.getD i 0 = s.mem.read (d.srcByte i)

section
variable {c : Nat} {d : Descriptor} {s : State} {j k : Nat} {bs : List Byte} {x y : Transfer}

/-- The bytes of one more read of an intact source. -/
theorem Transfer.Faithful.bytes_append (h : x.Faithful c d s bs) (hu : s.Undisturbed c d) (hd : d.Checked)
    (hj : j < d.reads) (hl : bs.length = j * d.ssize.bytes) (n i : Nat)
    (hi : i < (bs ++ (x.s.hostBefore n).readElement c (d.srcAt j) d.ssize.bytes).length) :
    (bs ++ (x.s.hostBefore n).readElement c (d.srcAt j) d.ssize.bytes).getD i 0 = s.mem.read (d.srcByte i) := by
  rw [List.length_append, readElement_length] at hi
  rcases lt_or_ge i bs.length with hlt | hge
  · rw [List.getD_append _ _ _ _ hlt, h.bytes i hlt]
  · rw [List.getD_append_right _ _ _ _ hge, (h.intact.hostBefore hu n).readElement hd hj (by omega), ← hl,
      Nat.add_sub_cancel' hge]

theorem readSource_faithful (h : x.Faithful c d s bs) (hu : s.Undisturbed c d) (hd : d.Checked) (hj : j < d.reads)
    (hl : bs.length = j * d.ssize.bytes) {e : Event} {n : Nat}
    (hy : y.s = ((x.s.hostBefore x.idx).drew n).accessed e) :
    y.Faithful c d s (bs ++ (x.s.hostBefore x.idx).readElement c (d.srcAt j) d.ssize.bytes) :=
  ⟨(h.intact.hostBefore hu x.idx).congr (by rw [hy]; rfl) (by rw [hy]; rfl) (by rw [hy]; rfl),
    h.bytes_append hu hd hj hl x.idx⟩

theorem writeDest_faithful (h : x.Faithful c d s bs) (hu : s.Undisturbed c d) (hd : d.Checked) (hk : k < d.writes)
    {e : Event} {out : List Byte} (hl : out.length = d.dsize.bytes)
    (hy : y.s = ((x.s.hostBefore x.idx).engineStore (d.dstAt k) out).accessed e) : y.Faithful c d s bs := by
  refine ⟨State.SourceIntact.congr (t := (x.s.hostBefore x.idx).engineStore (d.dstAt k) out) ?_ (by rw [hy]; rfl)
    (by rw [hy]; rfl) (by rw [hy]; rfl), h.bytes⟩
  exact (h.intact.hostBefore hu x.idx).engineStore fun i hi => hl ▸ hu.apart.srcByte_notMem hd hk hi

end
end Sys2Proof.Machine
end

section
/-! SUPPORT. An iteration none of whose accesses fails goes through, with all its reads and writes made. -/

namespace Sys2Proof.Machine

/-- With `n` writes still to make, the iteration that began in `s` stands at `x`, and none of its accesses failed. -/
def Transfer.Underway (c : Nat) (d : Descriptor) (s : State) (n : Nat) (x : Transfer) : Prop :=
  ∃ j k bs, k + n = d.writes ∧ x.Reached c d s j k bs ∧ (s.Undisturbed c d → x.Faithful c d s bs)

section
variable {c n : Nat} {d : Descriptor} {s : State} {x : Transfer}

theorem readSource_underway (hd : d.Checked) (hf : s.NoAccessFails d) (h : x.Underway c d s (n + 1))
    (hq : x.queue.length < d.dsize.bytes) :
    (readSource c d x).Ends (Transfer.Underway c d s (n + 1)) fun _ => False := by
  obtain ⟨j, k, bs, hn, reached, faithful⟩ := h
  have hk : k < d.writes := by omega
  refine (readSource_reached reached hd hf hk hq).mono (fun y hy => ?_) fun _ h => h
  obtain ⟨hreached, hy⟩ := hy
  exact ⟨j + 1, k, _, hn, hreached, fun hu =>
    readSource_faithful (faithful hu) hu hd (reached.read_place hd hk hq).1 reached.brought hy⟩

theorem writeDest_underway (hd : d.Checked) (hf : s.NoAccessFails d) (h : x.Underway c d s (n + 1))
    (hq : d.dsize.bytes ≤ x.queue.length) : (writeDest c d x).Ends (Transfer.Underway c d s n) fun _ => False := by
  obtain ⟨j, k, bs, hn, reached, faithful⟩ := h
  have hk : k < d.writes := by omega
  refine (writeDest_reached reached hf hk hq).mono (fun y hy => ?_) fun _ h => h
  obtain ⟨hreached, hy⟩ := hy
  exact ⟨j, k + 1, bs, by omega, hreached, fun hu =>
    writeDest_faithful (faithful hu) hu hd hk (List.length_take_of_le hq) hy⟩

/-- No access fails, so all accesses of the iteration are made. -/
theorem moveMinorLoop_reached (c : Nat) (hd : d.Checked) (hf : s.NoAccessFails d) :
    ∃ x bs, moveMinorLoop c d s = .ok x ∧ SameButMemory s x.s ∧ x.Reached c d s d.reads d.writes bs
      ∧ (s.Undisturbed c d → x.Faithful c d s bs) := by
  have start : Transfer.Underway c d s d.writes { s := s, src := d.saddr, dst := d.daddr, queue := [], idx := 0 } :=
    ⟨0, 0, [], d.writes.zero_add, .start c d s, fun hu => ⟨hu.sourceIntact, by simp⟩⟩
  have ends : (moveMinorLoop c d s).Ends (Transfer.Underway c d s 0) fun _ => False :=
    moveElements_ends_counting (fun _ _ => readSource_underway hd hf) (fun _ _ => writeDest_underway hd hf) _ _ start
  have same := moveMinorLoop_sameButMemory c d s
  cases hm : moveMinorLoop c d s with
  | failed u => rw [hm] at ends; exact ends.elim
  | ok x =>
    rw [hm] at ends same
    obtain ⟨j, k, bs, rfl, reached, faithful⟩ := ends
    obtain rfl := reached.all_reads hd
    exact ⟨x, bs, rfl, same, reached, faithful⟩

end

/-! The registers after the accesses (R169 to R174). -/

section
variable {d : Descriptor}

theorem Descriptor.lastIteration_iff : d.lastIteration = true ↔ d.citer = 1 := by simp [lastIteration]

theorem Descriptor.offsetDue_iff {cfg : Config} :
    d.offsetDue cfg = true ↔ d.mloe = true ∧ (d.citer ≠ 1 ∨ cfg.mloffOnLast = true) := by
  simp [offsetDue, lastIteration]

theorem Descriptor.completes_iff : d.completes = true ↔ d.citer = 1 ∧ d.intMajor = true := by
  simp [completes, lastIteration]

end

/-- The register set after an iteration, each register written in the terms of the rules. -/
theorem Channel.iterated_eq (r : Channel) (cfg : Config) (src dst : Word) :
    r.iterated cfg src dst =
      { r with
        desc := { r.desc with
          saddr := src + (if r.desc.mloe = true ∧ (r.desc.citer ≠ 1 ∨ cfg.mloffOnLast = true) then r.desc.mloff else 0)
            + (if r.desc.citer = 1 then r.desc.slast else 0)
          daddr := dst
          citer := if r.desc.citer = 1 then r.desc.biter else r.desc.citer - 1 }
        st := if r.desc.citer = 1 then .done else .active
        enable := if r.desc.citer = 1 then !r.desc.autoDisable else r.enable
        pend := false, valid := false } := by
  simp only [iterated, Descriptor.nextSaddr, Descriptor.nextCiter, Descriptor.offsetDue_iff,
    Descriptor.lastIteration_iff]

/-- An iteration whose accesses went through writes one register set and, at the end of the major loop, emits the
interrupt (R162). -/
theorem iterate_ok {c : Nat} {r : Channel} {s : State} {x : Transfer} (h : moveMinorLoop c r.desc s = .ok x) :
    iterate c r s =
      { x.s with
        chans := x.s.chans.set c (r.iterated s.cfg x.src x.dst)
        irqs := if r.desc.completes then x.s.irqs ++ [c] else x.s.irqs } := by
  unfold iterate
  rw [h]
  cases r.desc.completes <;> rfl

end Sys2Proof.Machine
end

section
/-! PROOF. The closed form of one iteration, and the order of its accesses (spec/42_transfer_engine.md section 2). -/

namespace Sys2Proof.Machine

section
variable {s t : State} {c : Nat} {r r' : Channel}

theorem State.Has.of_chans_eq_set (h : s.Has c r) (ht : t.chans = s.chans.set c r') : t.Has c r' := by
  rw [State.Has, State.chan?, ht]
  exact chan?_setChan_same h

theorem SameChannelsBut.of_chans_eq_set (ht : t.chans = s.chans.set c r) : SameChannelsBut c s t := by
  refine ⟨by rw [ht, List.length_set], fun k hk => ?_⟩
  rw [State.chan?, ht]
  exact chan?_setChan_other s c k r hk

end

/-- Settles O34: all accesses of the iteration are made, which leaves the addresses at `S + ns × soff` and
`T + nd × doff`, and the registers are written from these. -/
theorem serviceRunsOneIteration : Obligations.ServiceRunsOneIteration := by
  intro s c r hdue hd hf
  obtain ⟨x, bs, hx, same, reached, -⟩ := moveMinorLoop_reached c hd hf
  have chans : (iterate c r s).hostRest.chans
      = s.chans.set c (r.iterated s.cfg (r.desc.srcAt r.desc.reads) (r.desc.dstAt r.desc.writes)) := by
    rw [State.hostRest_chans, iterate_ok hx, same.chans, reached.src, reached.dst]
  have irqs : (iterate c r s).hostRest.irqs
      = if r.desc.citer = 1 ∧ r.desc.intMajor = true then s.irqs ++ [c] else s.irqs := by
    rw [State.hostRest_irqs, iterate_ok hx, same.irqs]
    simp only [Descriptor.completes_iff]
  refine ⟨_, execService_due hdue, Channel.iterated_eq .. ▸ hdue.1.of_chans_eq_set chans, irqs, hd.reads_mul,
    hd.writes_mul, hd.reads_pos, hd.writes_pos, ?_, .of_chans_eq_set chans, ?_, State.hostRest_inside _, ?_⟩
  · rw [State.hostRest_accesses, iterate_ok hx, reached.accesses, Nat.add_assoc]
  · rw [SameInputs, State.hostRest_cfg, State.hostRest_inputs, State.hostRest_rx, iterate_ok hx]
    exact ⟨same.cfg, same.inputs, same.rx⟩
  · rw [State.hostRest_portOut, iterate_ok hx, same.portOut]

/-- Settles O35: the log of the iteration has every access in its place, and an undisturbed source makes the bytes of a
write, which are a part of those brought, the bytes that stood there. -/
theorem serviceAccessOrder : Obligations.ServiceAccessOrder := by
  intro s c r hdue hd hf
  obtain ⟨x, bs, hx, -, reached, faithful⟩ := moveMinorLoop_reached c hd hf
  obtain ⟨log, logs, inPlace⟩ := reached.logs
  have after : State.Logs log s (iterate c r s).hostRest := by
    rw [iterate_ok hx]
    exact logs.trans_noAccess (hostRest_adds _)
  obtain ⟨es, history, rfl⟩ := after
  refine ⟨_, es, execService_due hdue, history, inPlace.length,
    fun j k _ _ => r.desc.readIndex_lt_writeIndex_iff j k, inPlace.reads, fun k hk => ?_⟩
  have brought : bs.length = r.desc.nbytes.toNat := reached.brought.trans hd.reads_mul
  refine ⟨(bs.drop (k * r.desc.dsize.bytes)).take r.desc.dsize.bytes, ?_, inPlace.writes k hk,
    fun races apart host m hm => ?_⟩
  · have within : (k + 1) * r.desc.dsize.bytes ≤ bs.length := by
      rw [brought, ← hd.writes_mul]
      exact Nat.mul_le_mul_right _ hk
    rw [Nat.succ_mul] at within
    exact List.length_take_of_le (by rw [List.length_drop]; omega)
  · rw [List.getD_eq_getElem?_getD, List.getElem?_take_of_lt hm, List.getElem?_drop, ← List.getD_eq_getElem?_getD]
    exact (faithful ⟨races, apart, host⟩).bytes _ (brought ▸ hd.write_byte_lt hk hm)

end Sys2Proof.Machine
end

section
/-! PROOF. The decoder and the encoder invert each other, and the decoder refuses what R100 calls malformed
(spec/30_encoding.md sections 3, 4 and 7). -/

namespace Sys2Proof

/-! The rows a word can select. -/

theorem Opcode.hasEvent_iff {op : Opcode} : op.hasEvent = true ↔ op = .bind ∨ op = .req := by cases op <;> decide

theorem Opcode.hasChannel_iff {op : Opcode} : op.hasChannel = true ↔ op ≠ .req ∧ op ≠ .reset := by cases op <;> decide

/-- Two rows that ask for different bits where both look have no word in common. -/
theorem Row.disjoint_of_patterns {a b : Row} (h : a.pattern &&& b.mask ≠ b.pattern &&& a.mask) (w : Word) :
    ¬ (w &&& a.mask = a.pattern ∧ w &&& b.mask = b.pattern) := by
  rintro ⟨ha, hb⟩
  apply h
  rw [← ha, ← hb, BitVec.and_assoc, BitVec.and_assoc, BitVec.and_comm b.mask]

section
variable {v : View} {w : Word} {op : Opcode}

/-- At the port a word selects the row it selects in a listing, if that is one of the first seven (R99). -/
theorem selectRow_port_iff : selectRow .port w = some op ↔ selectRow .listing w = some op ∧ op.number ≤ 7 := by
  rw [selectRow_eq, selectRow_eq]
  simp only [reduceCtorEq, false_and, true_and, if_false]
  split_ifs <;> cases op <;> simp [Opcode.number]

theorem selectRow_listing_of_eq_some (h : selectRow v w = some op) : selectRow .listing w = some op := by
  cases v with
  | port => exact (selectRow_port_iff.mp h).1
  | listing => exact h

/-- A word that selects a row is its command word, with 0 in the fields the row does not have (R91, R96). -/
theorem eq_commandWord_of_selectRow (h : selectRow .listing w = some op) :
    w = commandWord op.number (if op.hasEvent then bits w 15 8 else 0) (if op.hasChannel then bits w 7 0 else 0) := by
  have hw := w.isLt
  rw [selectRow_eq] at h
  simp only [true_and] at h
  apply BitVec.eq_of_toNat_eq
  split_ifs at h <;> cases h <;>
    simp only [Opcode.number, Opcode.hasEvent_iff, Opcode.hasChannel_iff, commandWord, bits, BitVec.toNat_ofNat,
      reduceCtorEq, ne_eq, not_true_eq_false, not_false_eq_true, or_false, or_true, and_true, and_false, if_true,
      if_false] <;>
    omega

theorem bits_ch_lt (w : Word) : bits w 7 0 < 256 := Nat.mod_lt _ (by decide)

theorem bits_ev_lt (w : Word) : bits w 15 8 < 256 := Nat.mod_lt _ (by decide)

/-- `OP` of a word that selects a row is the row's number. -/
theorem bits_op_of_selectRow (h : selectRow .listing w = some op) : bits w 31 28 = op.number := by
  rw [eq_commandWord_of_selectRow h]
  refine bits_commandWord_op (by cases op <;> decide) ?_ ?_ <;> split
  exacts [bits_ev_lt w, by decide, bits_ch_lt w, by decide]

/-- At the port exactly the malformed words of R100 select no row. -/
theorem selectRow_port_eq_none_iff : selectRow .port w = none ↔ Malformed w := by
  have hw := w.isLt
  rw [selectRow_eq]
  simp only [reduceCtorEq, false_and, if_false, Malformed, bits]
  split_ifs <;> simp only [false_iff, true_iff] <;> omega

end

/-! The operation of a row. -/

theorem instrOfRow_wf (op : Opcode) (w : Word) (ws : List Word) : (instrOfRow op w ws).wf = true := by
  cases op <;> simp [instrOfRow, Instr.wf, fitsField, bits_ch_lt, bits_ev_lt]

theorem instrOfRow_isPortOp_iff {op : Opcode} {w : Word} {ws : List Word} :
    (instrOfRow op w ws).isPortOp = true ↔ op.number ≤ 7 := by
  cases op <;> simp [instrOfRow, Instr.isPortOp, Opcode.number]

/-- The image of a payload has its first twelve words. -/
theorem Image.words_ofWords {ws : List Word} (h : 12 ≤ ws.length) : (Image.ofWords ws).words = ws.take 12 := by
  match ws, h with
  | _ :: _ :: _ :: _ :: _ :: _ :: _ :: _ :: _ :: _ :: _ :: _ :: _, _ => rfl

theorem Image.ofWords_append {ws : List Word} (h : 12 ≤ ws.length) (rest : List Word) :
    Image.ofWords (ws ++ rest) = Image.ofWords ws := by
  match ws, h with
  | _ :: _ :: _ :: _ :: _ :: _ :: _ :: _ :: _ :: _ :: _ :: _ :: _, _ => rfl

theorem transactionLength_of_selectRow {w : Word} {op : Opcode} (h : selectRow .listing w = some op) :
    transactionLength w = if op = .wrdesc then 13 else 1 := by
  rw [transactionLength, bits_op_of_selectRow h]
  cases op <;> rfl

/-- Words after the transaction make no difference to the operation. -/
theorem instrOfRow_append {w : Word} {op : Opcode} {ws : List Word} (h : selectRow .listing w = some op)
    (hl : transactionLength w = ws.length + 1) (rest : List Word) :
    instrOfRow op w (ws ++ rest) = instrOfRow op w ws := by
  rw [transactionLength_of_selectRow h] at hl
  cases op <;> simp only [instrOfRow]
  simp only [if_true] at hl
  rw [Image.ofWords_append (by omega)]

/-- The encoding of the operation a complete transaction denotes is the transaction. -/
theorem encode_instrOfRow {w : Word} {op : Opcode} {ws : List Word} (h : selectRow .listing w = some op)
    (hl : transactionLength w ≤ ws.length + 1) :
    encode (instrOfRow op w ws) = w :: ws.take (transactionLength w - 1) := by
  have word := eq_commandWord_of_selectRow h
  rw [transactionLength_of_selectRow h] at hl ⊢
  cases op
  case wrdesc =>
    simp only [if_true] at hl
    calc encode (instrOfRow .wrdesc w ws)
      _ = commandWord 1 0 (bits w 7 0) :: (Image.ofWords ws).words := rfl
      _ = w :: ws.take 12 := by rw [Image.words_ofWords (by omega)]; congr 1; exact word.symm
  all_goals exact congrArg (· :: []) word.symm

/-! Decoding. -/

/-- What it means that the decoder reads an operation. -/
theorem decode_eq_ok_iff {v : View} {ws rest : List Word} {i : Instr} :
    decode v ws = .ok (i, rest) ↔
      ∃ w tl op, ws = w :: tl ∧ transactionLength w ≤ tl.length + 1 ∧ selectRow v w = some op
        ∧ i = instrOfRow op w tl ∧ rest = tl.drop (transactionLength w - 1) := by
  cases ws with
  | nil => simp [decode]
  | cons w tl =>
    by_cases hl : tl.length + 1 < transactionLength w
    · simp [decode, hl]
    · cases hs : selectRow v w with
      | none => simp [decode, hl, hs]
      | some op => simp [decode, hl, hs, not_lt.mp hl, eq_comm]

/-- What it means that the decoder refuses a command word. -/
theorem decode_cons_eq_malformed_iff {v : View} {w : Word} {ws rest : List Word} {op : Nat}
    (hl : transactionLength w ≤ ws.length + 1) :
    decode v (w :: ws) = .error (.malformed op rest) ↔
      selectRow v w = none ∧ op = bits w 31 28 ∧ rest = ws.drop (transactionLength w - 1) := by
  cases hs : selectRow v w <;> simp [decode, not_lt.mpr hl, hs, eq_comm]

/-- The words of a transaction that selects a row decode to its operation, whatever words follow. -/
theorem decode_append_of_selectRow {v : View} {w : Word} {op : Opcode} {ws : List Word} (hs : selectRow v w = some op)
    (hl : transactionLength w = ws.length + 1) (rest : List Word) :
    decode v (w :: ws ++ rest) = .ok (instrOfRow op w ws, rest) := by
  refine decode_eq_ok_iff.mpr ⟨w, ws ++ rest, op, rfl, by simp [hl], hs, ?_, by simp [hl]⟩
  exact (instrOfRow_append (selectRow_listing_of_eq_some hs) hl rest).symm

/-- The encoding of every well-formed instruction is one transaction that denotes it. -/
theorem Laws.Encoding.of_wf (i : Instr) : Laws.Encoding.Statement i := by
  cases i with
  | wrdesc ch img => exact wrdesc ch img
  | arm ch => exact arm ch
  | disarm ch => exact disarm ch
  | status ch => exact status ch
  | bind ev ch => exact bind ev ch
  | stop ch => exact stop ch
  | rddesc ch => exact rddesc ch
  | req ev => exact req ev
  | service ch => exact service ch
  | reset => exact reset

/-- Settles O1: the encoding is one transaction that selects the instruction's row, at the port too for the first seven. -/
theorem decodeInvertsEncode : Obligations.DecodeInvertsEncode := by
  intro i rest hwf
  obtain ⟨w, ws, op, henc, hs, rfl, hl⟩ := Laws.Encoding.of_wf i hwf
  rw [henc]
  exact ⟨decode_append_of_selectRow hs hl rest, fun hport =>
    decode_append_of_selectRow (selectRow_port_iff.mpr ⟨hs, instrOfRow_isPortOp_iff.mp hport⟩) hl rest⟩

/-- Settles O2: the row selected fixes the command word, and the image its twelve payload words. -/
theorem encodeInvertsDecode : Obligations.EncodeInvertsDecode := by
  intro v ws rest i h
  obtain ⟨w, tl, op, rfl, hl, hs, rfl, rfl⟩ := decode_eq_ok_iff.mp h
  refine ⟨instrOfRow_wf op w tl, ?_, ?_⟩
  · rw [encode_instrOfRow (selectRow_listing_of_eq_some hs) hl, List.cons_append, List.take_append_drop]
  · rintro rfl
    exact instrOfRow_isPortOp_iff.mpr (selectRow_port_iff.mp hs).2

/-- Settles O3: any two rows ask for different bits where both look. -/
theorem opcodeRowsDoNotOverlap : Obligations.OpcodeRowsDoNotOverlap := by
  have table : opcodeTable.Pairwise fun a b => a.pattern &&& b.mask ≠ b.pattern &&& a.mask := by decide
  exact table.imp Row.disjoint_of_patterns

/-- Settles O4: of a complete transaction the decoder refuses the command word exactly when it selects no row. -/
theorem malformedWordsAreRefused : Obligations.MalformedWordsAreRefused := by
  intro w ws hl
  simp only [decode_cons_eq_malformed_iff hl, selectRow_port_eq_none_iff]
  refine ⟨by simp, fun op rest h => ?_⟩
  obtain ⟨-, hop, hrest⟩ := h
  refine ⟨hop, ?_⟩
  rw [hrest, transactionLength]
  split <;> rfl

/-- Settles O5: each worked word is evaluated. -/
theorem workedEncodings : Obligations.WorkedEncodings := by
  unfold Obligations.WorkedEncodings
  decide

/-- Settles O6: an accepted answer is its data word, and the ten error words are evaluated. -/
theorem responseWordFields : Obligations.ResponseWordFields := by
  refine ⟨fun d => ⟨Machine.bits_word_ok_high d, ?_⟩, fun c => ?_, fun c => ?_⟩
  · exact bits_eq_toNat (v := d) fun k _ => by rw [Nat.zero_add, Answer.getLsbD_word_ok]
  · cases c <;> decide
  · cases c <;> decide

end Sys2Proof
end

section
/-! SUPPORT. What an instruction can do to the registers of a channel, and what every instruction but SERVICE leaves alone:
said once, for all rules of the whole machine (spec/10_state.md sections 7 and 9; spec/60_exceptions.md section 7). -/

namespace Sys2Proof.Machine

/-- What instruction `i` can make of the register set of channel `c`. -/
inductive Channel.Becomes (cfg : Config) (c : Nat) : Instr → Channel → Channel → Prop
  | same (i : Instr) (r : Channel) : Becomes cfg c i r r
  | wrdesc {r : Channel} {g : Image} (idle : r.st = .idle) (accepted : g.firstError = none) :
      Becomes cfg c (.wrdesc c g) r (r.programmed g)
  | arm {r : Channel} (idle : r.st = .idle) (valid : r.valid = true) :
      Becomes cfg c (.arm c) r { r with st := .armed, enable := true }
  | disarm {r : Channel} (notActive : r.st ≠ .active) : Becomes cfg c (.disarm c) r r.disarmed
  | bind {r : Channel} {ev : Nat} (event : ev < cfg.nEv) (idle : r.st = .idle) :
      Becomes cfg c (.bind ev c) r { r with bound := true, ev := BitVec.ofNat 8 ev }
  | stop (r : Channel) : Becomes cfg c (.stop c) r r.stopped
  | req {r : Channel} {ev : Nat} (hears : r.hears ev = true) : Becomes cfg c (.req ev) r { r with pend := true }
  | iterated {r : Channel} {src dst : Word} (pend : r.pend = true)
      (aligned : r.desc.Checked → r.desc.ssize.bytes ∣ src.toNat ∧ r.desc.dsize.bytes ∣ dst.toNat) :
      Becomes cfg c (.service c) r (r.iterated cfg src dst)
  | failed {r : Channel} (n : Nat) (pend : r.pend = true) : Becomes cfg c (.service c) r (r.failed n)
  | reset (r : Channel) (n : Nat) : Becomes cfg c .reset r (Channel.afterReset n)

/-- The block has the same channels, each with what instruction `i` can make of its register set. -/
def State.Evolves (i : Instr) (s t : State) : Prop :=
  t.chans.length = s.chans.length ∧ ∀ c r, s.Has c r → ∃ r', t.Has c r' ∧ r.Becomes s.cfg c i r'

section
variable {s t : State} {i : Instr} {c : Nat} {r r' : Channel}

theorem State.Evolves.of_chans_eq (h : t.chans = s.chans) : State.Evolves i s t :=
  ⟨congrArg _ h, fun c r hr => ⟨r, by rwa [State.Has, State.chan?, h], .same i r⟩⟩

theorem State.Evolves.of_chans_eq_set (hr : s.Has c r) (h : t.chans = s.chans.set c r')
    (hb : r.Becomes s.cfg c i r') : State.Evolves i s t := by
  refine ⟨by rw [h, List.length_set], fun k x hx => ?_⟩
  by_cases hk : k = c
  · subst hk
    obtain rfl : r = x := Option.some.inj (hr.symm.trans hx)
    exact ⟨r', hr.of_chans_eq_set h, hb⟩
  · exact ⟨x, ((SameChannelsBut.of_chans_eq_set h).2 k hk).trans hx, .same i x⟩

/-- Every channel of the next state comes from the channel with its number. -/
theorem State.Evolves.of_mem (h : State.Evolves i s t) (hr : r' ∈ t.chans) :
    ∃ c r, s.Has c r ∧ t.Has c r' ∧ r.Becomes s.cfg c i r' := by
  obtain ⟨c, hc, rfl⟩ := List.mem_iff_getElem.mp hr
  have hs : c < s.chans.length := h.1 ▸ hc
  have has : s.Has c s.chans[c] := List.getElem?_eq_getElem hs
  obtain ⟨r', hr', hb⟩ := h.2 c _ has
  have same : t.chans[c] = r' := Option.some.inj ((List.getElem?_eq_getElem hc).symm.trans hr')
  exact ⟨c, _, has, same ▸ hr', same ▸ hb⟩

theorem State.Evolves.becomes (h : State.Evolves i s t) (hr : s.Has c r) (hr' : t.Has c r') :
    r.Becomes s.cfg c i r' := by
  obtain ⟨x, hx, hb⟩ := h.2 c r hr
  obtain rfl : x = r' := Option.some.inj (hx.symm.trans hr')
  exact hb

end

/-! What every instruction but SERVICE leaves alone. -/

/-- The event is no access, of the engine or of the host. -/
abbrev Event.Ordering (e : Event) : Prop := e.isAccess = false ∧ e.isHost = false

/-- From `s` to `t` at most registers, racing stores and draws changed, answers were given, and ordering events were
recorded. -/
structure OffMemory (s t : State) : Prop where
  env : SameEnvironment s t
  mem : t.mem = s.mem
  accesses : t.accesses = s.accesses
  irqs : t.irqs = s.irqs
  portOut : s.portOut <+: t.portOut
  history : State.Adds Event.Ordering s t

section
variable {s t : State}

theorem OffMemory.refl (s : State) : OffMemory s s :=
  ⟨⟨⟨rfl, rfl, rfl⟩, rfl⟩, rfl, rfl, rfl, List.prefix_refl _, .of_history_eq rfl⟩

theorem OffMemory.withChans (h : OffMemory s t) (cs : List Channel) : OffMemory s { t with chans := cs } :=
  ⟨h.env, h.mem, h.accesses, h.irqs, h.portOut, h.history⟩

theorem OffMemory.setChan (h : OffMemory s t) (c : Nat) (r : Channel) : OffMemory s (t.setChan c r) := h.withChans _

theorem OffMemory.putWords (h : OffMemory s t) (ws : List Word) : OffMemory s (t.putWords ws) :=
  ⟨h.env, h.mem, h.accesses, h.irqs, h.portOut.trans (List.prefix_append _ _), h.history⟩

theorem OffMemory.answer (h : OffMemory s t) (a : Answer) : OffMemory s (t.answer a) := h.putWords _

theorem OffMemory.drew (h : OffMemory s t) (n : Nat) : OffMemory s (t.drew n) :=
  ⟨h.env, h.mem, h.accesses, h.irqs, h.portOut, h.history⟩

theorem OffMemory.publish (h : OffMemory s t) (c : Nat) : OffMemory s (t.publish c) :=
  ⟨h.env, h.mem, h.accesses, h.irqs, h.portOut, h.history⟩

theorem OffMemory.record (h : OffMemory s t) {e : Event} (he : e.Ordering) : OffMemory s (t.record e) :=
  ⟨h.env, h.mem, h.accesses, h.irqs, h.portOut, h.history.trans (.of_history_snoc rfl he)⟩

theorem OffMemory.recordStatus (h : OffMemory s t) (c : Nat) (st : ChState) : OffMemory s (t.recordStatus c st) := by
  unfold State.recordStatus
  split
  · exact h.record ⟨rfl, rfl⟩
  · exact h

theorem OffMemory.of_raise {a : Answer} (h : raise a s = .next t) : OffMemory s t :=
  (raise_next a s t).mp h ▸ (OffMemory.refl s).answer a

theorem State.Evolves.of_raise {i : Instr} {a : Answer} (h : raise a s = .next t) : State.Evolves i s t :=
  .of_chans_eq ((raise_next a s t).mp h ▸ rfl)

end

/-! One lemma per instruction. -/

section
variable {s t : State} {i : Instr} {ch : Nat}

/-- The range check before an operation leaves everything but the answer alone. -/
theorem onChannel_effect {op : Channel → Host.Outcome State Fault Refusal} (h : onChannel ch s op = .next t)
    (hop : ∀ r, s.Has ch r → op r = .next t → OffMemory s t ∧ State.Evolves i s t) :
    OffMemory s t ∧ State.Evolves i s t := by
  rcases onChannel_next h with ⟨-, rfl⟩ | ⟨r, hr, hop'⟩
  · exact ⟨(OffMemory.refl s).answer _, .of_chans_eq rfl⟩
  · exact hop r hr hop'

theorem execWrdesc_effect {g : Image} (h : execWrdesc ch g s = .next t) :
    OffMemory s t ∧ State.Evolves (.wrdesc ch g) s t := by
  refine onChannel_effect h fun r hr hop => ?_
  split at hop
  · exact ⟨.of_raise hop, .of_raise hop⟩
  · rename_i idle
    split at hop
    · exact ⟨.of_raise hop, .of_raise hop⟩
    · rename_i accepted
      cases hop
      exact ⟨((OffMemory.refl s).setChan _ _).answer _, .of_chans_eq_set hr rfl (.wrdesc (not_not.mp idle) accepted)⟩

theorem execArm_effect (h : execArm ch s = .next t) : OffMemory s t ∧ State.Evolves (.arm ch) s t := by
  refine onChannel_effect h fun r hr hop => ?_
  split at hop
  · exact ⟨.of_raise hop, .of_raise hop⟩
  · rename_i idle
    split at hop
    · exact ⟨.of_raise hop, .of_raise hop⟩
    · rename_i valid
      cases hop
      exact ⟨((((OffMemory.refl s).setChan _ _).publish _).record ⟨rfl, rfl⟩).answer _,
        .of_chans_eq_set hr rfl (.arm (not_not.mp idle) (Bool.not_eq_false _ ▸ valid))⟩

theorem execDisarm_effect (h : execDisarm ch s = .next t) : OffMemory s t ∧ State.Evolves (.disarm ch) s t := by
  refine onChannel_effect h fun r hr hop => ?_
  split at hop
  · exact ⟨.of_raise hop, .of_raise hop⟩
  · rename_i notActive
    cases hop
    exact ⟨(((OffMemory.refl s).setChan _ _).record ⟨rfl, rfl⟩).answer _, .of_chans_eq_set hr rfl (.disarm notActive)⟩

theorem execStatus_effect (h : execStatus ch s = .next t) : OffMemory s t ∧ State.Evolves (.status ch) s t := by
  refine onChannel_effect h fun r _ hop => ?_
  cases hop
  refine ⟨((OffMemory.refl s).recordStatus _ _).answer _, .of_chans_eq ?_⟩
  simp [State.recordStatus, apply_ite State.chans]

theorem execBind_effect {ev : Nat} (h : execBind ev ch s = .next t) :
    OffMemory s t ∧ State.Evolves (.bind ev ch) s t := by
  refine onChannel_effect h fun r hr hop => ?_
  split at hop
  · exact ⟨.of_raise hop, .of_raise hop⟩
  · rename_i event
    split at hop
    · exact ⟨.of_raise hop, .of_raise hop⟩
    · rename_i idle
      cases hop
      exact ⟨((OffMemory.refl s).setChan _ _).answer _,
        .of_chans_eq_set hr rfl (.bind (Nat.lt_of_not_le event) (not_not.mp idle))⟩

theorem execStop_effect (h : execStop ch s = .next t) : OffMemory s t ∧ State.Evolves (.stop ch) s t := by
  refine onChannel_effect h fun r hr hop => ?_
  cases hop
  exact ⟨(((OffMemory.refl s).setChan _ _).record ⟨rfl, rfl⟩).answer _, .of_chans_eq_set hr rfl (.stop r)⟩

theorem execRddesc_effect (h : execRddesc ch s = .next t) : OffMemory s t ∧ State.Evolves (.rddesc ch) s t := by
  refine onChannel_effect h fun r _ hop => ?_
  cases hop
  exact ⟨(((OffMemory.refl s).answer _).putWords _).drew _, .of_chans_eq rfl⟩

theorem execReq_effect {ev : Nat} (h : execReq ev s = .next t) : OffMemory s t ∧ State.Evolves (.req ev) s t := by
  cases h
  refine ⟨(OffMemory.refl s).withChans _, List.length_map _, fun c r hr => ?_⟩
  have hr' : s.chans[c]? = some r := hr
  refine ⟨if r.hears ev then { r with pend := true } else r, by simp [State.Has, State.chan?, hr'], ?_⟩
  split
  · rename_i hears; exact .req hears
  · exact .same _ _

theorem execReset_effect (h : execReset s = .next t) : OffMemory s t ∧ State.Evolves .reset s t := by
  cases h
  refine ⟨((OffMemory.refl s).withChans _).drew _, resetChans_length _ _, fun c r hr => ?_⟩
  have hc : c < (resetChans s.draws s.chans).length := (resetChans_length s.draws s.chans).symm ▸ hr.lt
  obtain ⟨n, hn⟩ := mem_resetChans (List.getElem_mem hc)
  exact ⟨_, List.getElem?_eq_getElem hc, hn ▸ .reset r n⟩

theorem exec_effect (hi : ∀ c, i ≠ .service c) (h : exec i s = .next t) : OffMemory s t ∧ State.Evolves i s t := by
  cases i with
  | wrdesc ch img => exact execWrdesc_effect h
  | arm ch => exact execArm_effect h
  | disarm ch => exact execDisarm_effect h
  | status ch => exact execStatus_effect h
  | bind ev ch => exact execBind_effect h
  | stop ch => exact execStop_effect h
  | rddesc ch => exact execRddesc_effect h
  | req ev => exact execReq_effect h
  | service ch => exact absurd rfl (hi ch)
  | reset => exact execReset_effect h

end

/-! SERVICE. -/

/-- The addresses an iteration of a checked descriptor leaves are aligned to the sizes of their elements (R166, R167). -/
theorem moveMinorLoop_aligned_addresses (c : Nat) {d : Descriptor} (s : State) (hd : d.Checked) :
    (moveMinorLoop c d s).Ends (fun x => d.ssize.bytes ∣ x.src.toNat ∧ d.dsize.bytes ∣ x.dst.toNat) fun _ => True := by
  obtain ⟨-, -, -, -, hsoff, hdoff, -, -, hsaddr, hdaddr⟩ := hd
  have ends : (moveMinorLoop c d s).Ends (Transfer.Aligned d s) (State.Adds Event.Aligned s) :=
    moveElements_ends (fun _ h _ => readSource_aligned c hsoff h) (fun _ h _ => writeDest_aligned c hdoff h) _ _
      ⟨.of_history_eq rfl, hsaddr, hdaddr⟩
  exact ends.mono (fun _ h => ⟨h.src, h.dst⟩) fun _ _ => trivial

section
variable {s t : State} {c : Nat}

theorem execService_evolves (h : execService c s = .next t) : State.Evolves (.service c) s t := by
  rcases execService_next h with ⟨-, rfl⟩ | ⟨r, ⟨hr, pend, -⟩, ⟨x, hx, rfl⟩ | ⟨u, hu, rfl⟩⟩
  · exact .of_chans_eq (State.hostRest_chans s)
  · have same := moveMinorLoop_sameButMemory c r.desc s
    rw [hx] at same
    refine .of_chans_eq_set (r' := r.iterated s.cfg x.src x.dst) hr ?_ (.iterated pend fun hd => ?_)
    · rw [State.hostRest_chans, ← same.chans]
      split <;> rfl
    · have aligned := moveMinorLoop_aligned_addresses c s hd
      rwa [hx] at aligned
  · have same := moveMinorLoop_sameButMemory c r.desc s
    rw [hu] at same
    refine .of_chans_eq_set hr ?_ (.failed u.draws pend)
    rw [State.hostRest_chans, State.enterError_chans, same.chans]

/-- SERVICE leaves the parameters, the moves to come and what was half received and answered, and no host access goes on
waiting inside the step. -/
theorem execService_env (h : execService c s = .next t) : SameInputs s t ∧ t.inside = [] ∧ t.portOut = s.portOut := by
  have rest : ∀ u, SameInputs s u → u.portOut = s.portOut →
      SameInputs s u.hostRest ∧ u.hostRest.inside = [] ∧ u.hostRest.portOut = s.portOut := by
    rintro u ⟨hcfg, hinputs, hrx⟩ hout
    exact ⟨⟨by simp [hcfg], by simp [hinputs], by simp [hrx]⟩, by simp, by simp [hout]⟩
  rcases execService_next h with ⟨-, rfl⟩ | ⟨r, -, ⟨x, hx, rfl⟩ | ⟨u, hu, rfl⟩⟩
  · exact rest s ⟨rfl, rfl, rfl⟩ rfl
  · have same := moveMinorLoop_sameButMemory c r.desc s
    rw [hx] at same
    refine rest _ ?_ ?_ <;> split
    exacts [⟨same.cfg, same.inputs, same.rx⟩, ⟨same.cfg, same.inputs, same.rx⟩, same.portOut, same.portOut]
  · have same := moveMinorLoop_sameButMemory c r.desc s
    rw [hu] at same
    exact rest _ ⟨same.cfg, same.inputs, same.rx⟩ same.portOut

/-- SERVICE emits no interrupt, or it ends a major loop whose `int_major` is 1, and emits the one of its channel (R174). -/
theorem execService_irqs (h : execService c s = .next t) :
    t.irqs = s.irqs ∨ ∃ r r', s.Due c r ∧ t.Has c r' ∧ r.desc.completes = true ∧ r'.st = .done
      ∧ t.irqs = s.irqs ++ [c] := by
  rcases execService_next h with ⟨-, rfl⟩ | ⟨r, hdue, ⟨x, hx, rfl⟩ | ⟨u, hu, rfl⟩⟩
  · exact .inl (State.hostRest_irqs s)
  · have same := moveMinorLoop_sameButMemory c r.desc s
    rw [hx] at same
    cases hc : r.desc.completes with
    | false => exact .inl ((State.hostRest_irqs _).trans same.irqs)
    | true =>
      have last : r.desc.lastIteration = true := (Bool.and_eq_true_iff.mp hc).1
      refine .inr ⟨r, r.iterated s.cfg x.src x.dst, hdue, ?_, hc, if_pos last, ?_⟩
      · exact hdue.1.of_chans_eq_set (by rw [State.hostRest_chans, ← same.chans]; rfl)
      · rw [State.hostRest_irqs, ← same.irqs]; rfl
  · have same := moveMinorLoop_sameButMemory c r.desc s
    rw [hu] at same
    exact .inl ((State.hostRest_irqs _).trans same.irqs)

end

theorem exec_evolves {s t : State} {i : Instr} (h : exec i s = .next t) : State.Evolves i s t := by
  by_cases hi : ∃ c, i = .service c
  · obtain ⟨c, rfl⟩ := hi
    exact execService_evolves h
  · exact (exec_effect (fun c hc => hi ⟨c, hc⟩) h).2

theorem exec_sameInputs {s t : State} {i : Instr} (h : exec i s = .next t) : SameInputs s t := by
  by_cases hi : ∃ c, i = .service c
  · obtain ⟨c, rfl⟩ := hi
    exact (execService_env h).1
  · exact (exec_effect (fun c hc => hi ⟨c, hc⟩) h).1.env.1

end Sys2Proof.Machine
end

section
/-! PROOF. The invariants of the channel register sets (spec/10_state.md sections 7 and 9), and which instructions write
which registers (sections 2 and 3). -/

namespace Sys2Proof.Machine

/-! A channel with a latched request runs (R41). -/

section
variable {n : Nat} {r : Channel}

theorem Channel.Legal.running_of_pend (h : r.Legal n) (hp : r.pend = true) :
    r.enable = true ∧ (r.st = .armed ∨ r.st = .active ∨ r.st = .done) := by
  obtain ⟨hidle, -, -, -, herror, henable, -, -⟩ := h
  refine ⟨henable hp, ?_⟩
  cases hst : r.st with
  | idle => exact absurd (hp.symm.trans (hidle hst).2) (by decide)
  | error => exact absurd (hp.symm.trans (herror hst).2.1) (by decide)
  | armed | active | done => simp

/-- The count of a channel that runs is within the initial one, and it is not 0 (R28). -/
theorem Channel.Legal.citer_of_pend (h : r.Legal n) (hp : r.pend = true) :
    1 ≤ r.desc.citer.toNat ∧ r.desc.citer.toNat ≤ r.desc.biter.toNat := by
  obtain ⟨-, biter, -⟩ := h.checked_of_pend hp
  have pos : 1 ≤ r.desc.biter.toNat := Nat.one_le_iff_ne_zero.mpr fun h0 => biter (BitVec.eq_of_toNat_eq h0)
  obtain ⟨-, running⟩ := h.running_of_pend hp
  obtain ⟨-, harmed, hactive, hdone, -⟩ := h
  rcases running with hst | hst | hst
  · obtain ⟨-, -, initial⟩ := harmed hst
    rw [initial]
    exact ⟨pos, le_refl _⟩
  · obtain ⟨-, -, low, high⟩ := hactive hst
    exact ⟨low, high.le⟩
  · obtain ⟨-, initial⟩ := hdone hst
    rw [initial]
    exact ⟨pos, le_refl _⟩

end

/-! The descriptors that WRDESC and SERVICE leave pass the checks. -/

/-- The size code is the exponent of the size, code 3 being reserved (R24). -/
theorem ElemSize.bytes_ofCode {n : Nat} (h : n < 3) : (ElemSize.ofCode n).bytes = 2 ^ n := by
  match n, h with
  | 0, _ | 1, _ | 2, _ => rfl

section
variable {g : Image}

/-- No configuration check fails exactly when the image is acceptable (spec/40_descriptor_port.md R120, R122). -/
theorem firstError_eq_none_iff : g.firstError = none ↔ g.Acceptable := by
  rw [g.firstError_eq]
  split_ifs <;> simp only [false_iff, true_iff] <;> tauto

theorem bytes_ssize_of_formOk (h : g.FormOk) : (ElemSize.ofCode g.ssizeCode).bytes = 2 ^ bits g.w4 1 0 := by
  obtain ⟨-, -, reserved, -⟩ := h
  have : bits g.w4 1 0 < 4 := Nat.mod_lt _ (by decide)
  exact ElemSize.bytes_ofCode (by simp only [Image.ssizeCode]; omega)

theorem bytes_dsize_of_formOk (h : g.FormOk) : (ElemSize.ofCode g.dsizeCode).bytes = 2 ^ bits g.w4 9 8 := by
  obtain ⟨-, -, -, reserved, -⟩ := h
  have : bits g.w4 9 8 < 4 := Nat.mod_lt _ (by decide)
  exact ElemSize.bytes_ofCode (by simp only [Image.dsizeCode]; omega)

/-- The registers an acceptable image is written to satisfy the checks (R41 clause 7). -/
theorem Descriptor.checked_ofImage (h : g.Acceptable) : (Descriptor.ofImage g).Checked := by
  obtain ⟨form, ⟨nbytes, biter⟩, ⟨ssize, dsize⟩, ⟨soff, doff⟩, ⟨slast, mloff⟩, ⟨saddr, daddr⟩, -⟩ := h
  simp only [Checked, ofImage, bytes_ssize_of_formOk form, bytes_dsize_of_formOk form, beq_iff_eq]
  refine ⟨nbytes, biter, ssize, dsize, soff, doff, slast, fun mloe => ?_, saddr, daddr⟩
  exact mloff.resolve_left (by rw [mloe]; decide)

end

/-- The source address stays aligned through the offsets that end an iteration (R170, R172). -/
theorem Descriptor.Checked.dvd_nextSaddr {d : Descriptor} (hd : d.Checked) (cfg : Config) {src : Word}
    (hsrc : d.ssize.bytes ∣ src.toNat) : d.ssize.bytes ∣ (d.nextSaddr cfg src).toNat := by
  obtain ⟨-, -, -, -, -, -, hslast, hmloff, -, -⟩ := hd
  refine ElemSize.dvd_toNat_add _ (ElemSize.dvd_toNat_add _ hsrc ?_) ?_
  · split
    · rename_i due
      exact hmloff (offsetDue_iff.mp due).1
    · exact dvd_zero _
  · split
    · exact hslast
    · exact dvd_zero _

theorem Channel.iterated_checked {r : Channel} (cfg : Config) {src dst : Word} (hd : r.desc.Checked)
    (hsrc : r.desc.ssize.bytes ∣ src.toNat) (hdst : r.desc.dsize.bytes ∣ dst.toNat) :
    (r.iterated cfg src dst).desc.Checked := by
  have saddr := hd.dvd_nextSaddr cfg hsrc
  obtain ⟨h1, h2, h3, h4, h5, h6, h7, h8, -, -⟩ := hd
  exact ⟨h1, h2, h3, h4, h5, h6, h7, h8, saddr, hdst⟩

/-! What an instruction makes of a legal channel is legal. -/

section
variable {cfg : Config} {c : Nat} {i : Instr} {r r' : Channel}

theorem Channel.legal_programmed {n : Nat} {g : Image} (h : r.Legal n) (hst : r.st = .idle) (hg : g.Acceptable) :
    (r.programmed g).Legal n ∧ (r.programmed g).Fresh := by
  have checked := Descriptor.checked_ofImage hg
  obtain ⟨hidle, -, -, -, -, hpend, -, hev⟩ := h
  refine ⟨⟨hidle, ?_, ?_, ?_, ?_, hpend, fun _ => checked, hev⟩, fun _ => rfl, fun _ => rfl⟩
  all_goals exact fun h => absurd (hst.symm.trans h) (by decide)

theorem Channel.legal_iterated {src dst : Word} (h : r.Legal cfg.nEv) (hf : r.Fresh) (hp : r.pend = true)
    (aligned : r.desc.Checked → r.desc.ssize.bytes ∣ src.toNat ∧ r.desc.dsize.bytes ∣ dst.toNat) :
    (r.iterated cfg src dst).Legal cfg.nEv ∧ (r.iterated cfg src dst).Fresh := by
  have hd := h.checked_of_pend hp
  obtain ⟨hsrc, hdst⟩ := aligned hd
  have checked := Channel.iterated_checked cfg hd hsrc hdst
  obtain ⟨henable, running⟩ := h.running_of_pend hp
  obtain ⟨low, high⟩ := h.citer_of_pend hp
  have specified : r.contents = .specified := hf.2 (.inr running)
  obtain ⟨-, -, -, -, -, -, -, hev⟩ := h
  by_cases last : r.desc.lastIteration = true
  · have hst : (r.iterated cfg src dst).st = .done := if_pos last
    have hciter : (r.iterated cfg src dst).desc.citer = r.desc.biter := if_pos last
    refine ⟨⟨?_, ?_, ?_, fun _ => ⟨rfl, hciter⟩, ?_, nofun, fun _ => checked, hev⟩, nofun, fun _ => specified⟩
    all_goals exact fun h => absurd (hst.symm.trans h) (by decide)
  · have hst : (r.iterated cfg src dst).st = .active := if_neg last
    have hen : (r.iterated cfg src dst).enable = true := (if_neg last).trans henable
    have hciter : (r.iterated cfg src dst).desc.citer = r.desc.citer - 1 := if_neg last
    have less : (r.desc.citer - 1).toNat = r.desc.citer.toNat - 1 := BitVec.toNat_sub_of_le low
    have more : r.desc.citer.toNat ≠ 1 := fun h1 => last (Descriptor.lastIteration_iff.mpr (BitVec.eq_of_toNat_eq h1))
    have biter : (r.iterated cfg src dst).desc.biter = r.desc.biter := rfl
    refine ⟨⟨?_, ?_, fun _ => ⟨hen, rfl, ?_, ?_⟩, ?_, ?_, nofun, fun _ => checked, hev⟩, nofun, fun _ => specified⟩
    case refine_3 => rw [hciter, less]; omega
    case refine_4 => rw [hciter, less, biter]; omega
    all_goals exact fun h => absurd (hst.symm.trans h) (by decide)

theorem Channel.Becomes.legal (hb : r.Becomes cfg c i r') (h : r.Legal cfg.nEv) (hf : r.Fresh) :
    r'.Legal cfg.nEv ∧ r'.Fresh := by
  cases hb with
  | same => exact ⟨h, hf⟩
  | wrdesc idle accepted => exact Channel.legal_programmed h idle (firstError_eq_none_iff.mp accepted)
  | arm idle valid =>
    obtain ⟨-, -, -, -, -, -, checked, hev⟩ := h
    obtain ⟨initial, specified⟩ := hf
    exact ⟨⟨nofun, fun _ => ⟨rfl, valid, initial valid⟩, nofun, nofun, nofun, fun _ => rfl,
      fun _ => checked (.inl valid), hev⟩, initial, fun _ => specified (.inl valid)⟩
  | disarm =>
    obtain ⟨-, -, -, -, -, -, checked, hev⟩ := h
    obtain ⟨initial, specified⟩ := hf
    refine ⟨⟨fun _ => ⟨rfl, rfl⟩, nofun, nofun, nofun, nofun, nofun, fun hv => checked (.inl ?_), hev⟩, initial,
      fun hv => specified (.inl ?_)⟩
    all_goals exact hv.resolve_right (by simp [Channel.disarmed])
  | bind event =>
    obtain ⟨h1, h2, h3, h4, h5, h6, h7, -⟩ := h
    exact ⟨⟨h1, h2, h3, h4, h5, h6, h7, fun _ => (Config.toNat_ofNat_event event).symm ▸ event⟩, hf⟩
  | stop =>
    obtain ⟨-, -, -, -, -, -, -, hev⟩ := h
    refine ⟨⟨fun _ => ⟨rfl, rfl⟩, nofun, nofun, nofun, nofun, nofun, fun hv => ?_, hev⟩, nofun, fun hv => ?_⟩
    all_goals simp [Channel.stopped] at hv
  | req hears =>
    obtain ⟨-, -, enable⟩ := Channel.hears_iff.mp hears
    obtain ⟨hidle, h2, h3, h4, herror, -, h7, h8⟩ := h
    refine ⟨⟨fun hst => ?_, h2, h3, h4, fun hst => ?_, fun _ => enable, h7, h8⟩, hf⟩
    · exact absurd (enable.symm.trans (hidle hst).1) (by decide)
    · exact absurd (enable.symm.trans (herror hst).1) (by decide)
  | iterated pend aligned => exact Channel.legal_iterated h hf pend aligned
  | failed n pend =>
    obtain ⟨-, -, -, -, -, -, -, hev⟩ := h
    refine ⟨⟨nofun, nofun, nofun, nofun, fun _ => ⟨rfl, rfl, rfl⟩, nofun, fun hv => ?_, hev⟩, nofun, fun hv => ?_⟩
    all_goals simp [Channel.failed] at hv
  | reset n =>
    refine ⟨⟨fun _ => ⟨rfl, rfl⟩, nofun, nofun, nofun, nofun, nofun, fun hv => ?_, nofun⟩, nofun, fun hv => ?_⟩
    all_goals simp [Channel.afterReset] at hv

/-- The state of a legal channel moves along an edge (R44). -/
theorem Channel.Becomes.edge (hb : r.Becomes cfg c i r') (h : r.Legal cfg.nEv) :
    r'.st = r.st ∨ stEdge r.st r'.st = true := by
  cases hb with
  | same | wrdesc | bind | req => exact .inl rfl
  | arm idle => exact .inr (by rw [idle]; rfl)
  | disarm notActive =>
    cases hst : r.st with
    | active => exact absurd hst notActive
    | idle => exact .inl rfl
    | armed | done | error => exact .inr rfl
  | stop =>
    cases hst : r.st with
    | idle => exact .inl rfl
    | armed | active | done | error => exact .inr rfl
  | reset =>
    cases hst : r.st with
    | idle => exact .inl rfl
    | armed | active | done | error => exact .inr rfl
  | failed n pend =>
    obtain ⟨-, hst | hst | hst⟩ := h.running_of_pend pend
    all_goals exact .inr (by rw [hst]; rfl)
  | iterated pend =>
    simp only [Channel.iterated]
    obtain ⟨-, hst | hst | hst⟩ := h.running_of_pend pend
    all_goals rw [hst]; split <;> decide

/-- An instruction that names another channel leaves the register set as it is. -/
theorem Channel.Becomes.eq_of_target {k : Nat} (hb : r.Becomes cfg k i r') (hi : targetChannel i = some c) (hk : k ≠ c) :
    r' = r := by
  cases hb with
  | same => rfl
  | req | reset => cases hi
  | wrdesc | arm | disarm | bind | stop | iterated | failed => exact absurd (Option.some.inj hi) hk

/-- The writers of each register, RESET apart (R21, R30). -/
theorem Channel.Becomes.writers (hb : r.Becomes cfg c i r') (hi : i ≠ .reset) :
    (r'.desc ≠ r.desc → (∃ g, i = .wrdesc c g) ∨ i = .service c)
      ∧ (r'.st ≠ r.st ∨ r'.enable ≠ r.enable → i = .arm c ∨ i = .disarm c ∨ i = .stop c ∨ i = .service c)
      ∧ (r'.pend ≠ r.pend → (∃ e, i = .req e) ∨ i = .service c ∨ i = .disarm c ∨ i = .stop c)
      ∧ (r'.valid ≠ r.valid → (∃ g, i = .wrdesc c g) ∨ i = .service c ∨ i = .stop c)
      ∧ (r'.bound ≠ r.bound ∨ r'.ev ≠ r.ev → ∃ e, i = .bind e c) := by
  cases hb with
  | same => simp
  | wrdesc => simp [Channel.programmed]
  | arm => simp
  | disarm => simp [Channel.disarmed]
  | bind => simp
  | stop => simp [Channel.stopped]
  | req => simp
  | iterated => simp [Channel.iterated]
  | failed => simp [Channel.failed]
  | reset => exact absurd rfl hi

end

/-! Every step. -/

section
variable {s t : State} {i : Instr}

theorem State.Legal.congr (h : s.Legal) (hc : t.chans = s.chans) (hcfg : t.cfg = s.cfg) : t.Legal := by
  unfold State.Legal State.InRange
  rw [hc, hcfg]
  exact h

theorem State.Evolves.legal (h : State.Evolves i s t) (hcfg : t.cfg = s.cfg) (hs : s.Legal) : t.Legal := by
  obtain ⟨range, legal⟩ := hs
  refine ⟨by rwa [State.InRange, h.1], fun r' hr' => ?_⟩
  obtain ⟨c, r, hr, -, hb⟩ := h.of_mem hr'
  obtain ⟨hl, hf⟩ := legal r hr.mem
  exact hcfg ▸ hb.legal hl hf

end

/-- A relation between a state and the next one that every instruction makes hold, and that asks the registers and the
parameters only, holds after every step. -/
theorem step_next_registers {s t : State} (h : step s = .next t) :
    ∃ u, SameBlock s u ∧ ((∃ i, exec i u = .next t) ∨ (t.chans = u.chans ∧ t.cfg = u.cfg)) := by
  obtain ⟨u, hb, ⟨i, hi⟩ | rfl | ⟨x, rfl⟩ | rfl⟩ := step_next h
  · exact ⟨u, hb, .inl ⟨i, hi⟩⟩
  · exact ⟨u, hb, .inr ⟨rfl, rfl⟩⟩
  · exact ⟨u, hb, .inr ⟨State.hostAccess_chans u x, State.hostAccess_cfg u x⟩⟩
  · exact ⟨_, hb, .inr ⟨rfl, rfl⟩⟩

/-- Settles O44: what an instruction makes of a legal register set is legal, and no other step touches one. -/
theorem stepKeepsLegal : Obligations.StepKeepsLegal := by
  intro s t hs h
  obtain ⟨u, hb, ⟨i, hi⟩ | ⟨chans, cfg⟩⟩ := step_next_registers h
  · exact (exec_evolves hi).legal (exec_sameInputs hi).1 (hb.legal hs)
  · exact (hb.legal hs).congr chans cfg

/-- Settles O48: only an instruction changes the state of a channel, and it takes an edge from a legal one. -/
theorem stateMovesAlongEdges : Obligations.StateMovesAlongEdges := by
  intro s t c r r' hs h hr hr'
  obtain ⟨u, hb, ⟨i, hi⟩ | ⟨chans, -⟩⟩ := step_next_registers h
  · have hru : u.Has c r := by rwa [State.Has, State.chan?, hb.chans]
    exact ((exec_evolves hi).becomes hru hr').edge ((hb.legal hs).2 r hru.mem).1
  · rw [State.Has, State.chan?, chans, hb.chans] at hr'
    exact .inl (congrArg Channel.st (Option.some.inj (hr'.symm.trans hr)))

/-- Settles O49: the register set of any other channel is what the instruction makes of it, which is the same. -/
theorem channelsAreIndependent : Obligations.ChannelsAreIndependent := by
  intro s t i c hi h
  have evolves := exec_evolves h
  refine ⟨evolves.1, fun k hk => ?_⟩
  cases hr : s.chan? k with
  | none => exact List.getElem?_eq_none (evolves.1.trans_le (List.getElem?_eq_none_iff.mp hr))
  | some r =>
    obtain ⟨r', hr', hb⟩ := evolves.2 k r hr
    rwa [hb.eq_of_target hi hk] at hr'

/-- Settles O50: no other instruction makes an access. -/
theorem onlyServiceAccessesMemory : Obligations.OnlyServiceAccessesMemory := by
  intro s t i hi h
  obtain ⟨off, -⟩ := exec_effect hi h
  exact ⟨off.mem, off.accesses⟩

/-- Settles O51: read off what each instruction can make of a register set. -/
theorem registerWriters : Obligations.RegisterWriters := by
  intro s t i c r r' h hr hr' hi
  exact ((exec_evolves h).becomes hr hr').writers hi

/-- Settles O52: no other instruction emits an interrupt, and SERVICE only at the end of a major loop. -/
theorem interruptOnlyOnCompletion : Obligations.InterruptOnlyOnCompletion := by
  intro s t i h hirqs
  by_cases hi : ∃ c, i = .service c
  · obtain ⟨c, rfl⟩ := hi
    rcases execService_irqs h with same | ⟨r, r', ⟨hr, pend, -⟩, hr', completes, hst, irqs⟩
    · exact absurd same hirqs
    · obtain ⟨last, intMajor⟩ := Descriptor.completes_iff.mp completes
      exact ⟨c, r, r', rfl, hr, hr', intMajor, last, pend, hst, irqs⟩
  · exact absurd (exec_effect (fun c hc => hi ⟨c, hc⟩) h).1.irqs hirqs

end Sys2Proof.Machine
end

section
/-! PROOF. The next turn: which move a step takes, and what it does (spec/00_scope.md R12; spec/30_encoding.md R92;
spec/60_exceptions.md R213; spec/70_reset_and_hazards.md R230). -/

namespace Sys2Proof.Machine

theorem putBack_eq (left : List Word) (rest : List Input) :
    putBack left rest = if left = [] then rest else .port left :: rest := by
  cases left <;> rfl

/-! The step of a move that is ready. -/

section
variable {s : State} {rest : List Input}

theorem step_port_ok {ws left : List Word} {i : Instr} (h : s.readyMoves = .port ws :: rest)
    (hd : decode .port (s.rx ++ ws) = .ok (i, left)) :
    step s = exec i { s with rx := [], inputs := s.heldResets ++ if left = [] then rest else .port left :: rest } := by
  simp only [step, State.nextTurn, h, hd, putBack_eq]

theorem step_port_malformed {ws left : List Word} {op : Nat} (h : s.readyMoves = .port ws :: rest)
    (hd : decode .port (s.rx ++ ws) = .error (.malformed op left)) :
    step s = State.says
      { s with rx := [], inputs := s.heldResets ++ if left = [] then rest else .port left :: rest } 0x20100000#32 := by
  simp only [step, State.nextTurn, h, hd, putBack_eq]
  rfl

theorem step_port_short {ws : List Word} (h : s.readyMoves = .port ws :: rest)
    (hd : decode .port (s.rx ++ ws) = .error .short) :
    step s = .next { s with rx := s.rx ++ ws, inputs := s.heldResets ++ rest } := by
  simp only [step, State.nextTurn, h, hd]

theorem step_host {x : HostAccess} (h : s.readyMoves = .host x :: rest) :
    step s = .next (State.hostAccess { s with inputs := s.heldResets ++ rest } x) := by
  simp only [step, State.nextTurn, h]

theorem step_req {e : Nat} (h : s.readyMoves = .req e :: rest) :
    step s = exec (.req e) { s with inputs := s.heldResets ++ rest } := by
  simp only [step, State.nextTurn, h]

theorem step_service {c : Nat} {xs : List InsideAccess} (h : s.readyMoves = .service c xs :: rest) :
    step s = exec (.service c) { s with inputs := s.heldResets ++ rest, inside := s.inside ++ xs } := by
  simp only [step, State.nextTurn, h]

theorem step_reset (h : s.readyMoves = .reset :: rest) : step s = exec .reset { s with inputs := rest } := by
  simp only [step, State.nextTurn, h]

/-! The step when no move is ready. -/

theorem mem_pending_iff {c : Nat} : c ∈ s.pending ↔ ∃ r, s.Has c r ∧ r.pend = true := by
  unfold State.pending
  rw [mem_channelsFrom]
  constructor
  · rintro ⟨j, r, rfl, hr, hp⟩
    exact ⟨r, by rwa [Nat.zero_add], hp⟩
  · rintro ⟨r, hr, hp⟩
    exact ⟨c, r, (Nat.zero_add c).symm, hr, hp⟩

/-- The engine's own turn serves a channel with a latched request; which of several, a draw decides (R213). -/
theorem engineTurn_of_pending (h : s.pending ≠ []) :
    ∃ c n, c ∈ s.pending ∧ s.engineTurn = some (c, { s with draws := n }) := by
  match hp : s.pending, h with
  | [c], _ => exact ⟨c, s.draws, List.mem_singleton_self c, by simp only [State.engineTurn, hp]⟩
  | c :: c' :: cs, _ =>
    refine ⟨_, s.draws + 1, ?_, by simp only [State.engineTurn, hp]; rfl⟩
    have bound : Config.freeNat s.draws % ((c' :: cs).length + 1) < (c :: c' :: cs).length := Nat.mod_lt _ (Nat.succ_pos _)
    rw [List.getD_eq_getElem _ _ bound]
    exact List.getElem_mem bound

theorem step_engine (h : s.readyMoves = []) (hp : ∃ c r, s.Has c r ∧ r.pend = true) :
    ∃ c r n, s.Has c r ∧ r.pend = true ∧ step s = exec (.service c) { s with draws := n } := by
  obtain ⟨k, r, hr, hk⟩ := hp
  obtain ⟨c, n, hc, ht⟩ := engineTurn_of_pending (List.ne_nil_of_mem (mem_pending_iff.mpr ⟨r, hr, hk⟩))
  obtain ⟨r', hr', hp'⟩ := mem_pending_iff.mp hc
  exact ⟨c, r', n, hr', hp', by simp only [step, State.nextTurn, h, ht]⟩

theorem step_quiet (h : s.readyMoves = []) (hp : ∀ c r, s.Has c r → r.pend = false) : step s = .next s := by
  have none : s.pending = [] := List.eq_nil_iff_forall_not_mem.mpr fun c hc => by
    obtain ⟨r, hr, hpend⟩ := mem_pending_iff.mp hc
    exact absurd (hpend.symm.trans (hp c r hr)) (by decide)
  simp only [step, State.nextTurn, h, State.engineTurn, none]

end

/-- Settles O7: words at the port are ready where they stand. -/
theorem stepRunsPortOperation : Obligations.StepRunsPortOperation := by
  intro s ws left rest i h hd
  obtain ⟨held, ready⟩ := ready_first rfl h
  rw [step_port_ok ready hd, held, List.nil_append]

/-- Settles O8: REQ and SERVICE are ready where they stand, RESET when no words wait. -/
theorem stepRunsAgentMove : Obligations.StepRunsAgentMove := by
  refine fun s rest => ⟨fun e h => ?_, fun c xs h => ?_, fun hrx h => ?_⟩
  · obtain ⟨held, ready⟩ := ready_first rfl h
    rw [step_req ready, held, List.nil_append]
  · obtain ⟨held, ready⟩ := ready_first rfl h
    rw [step_service ready, held, List.nil_append]
  · exact step_reset ((if_pos hrx).trans h)

/-- Settles O55: the RESETs in front are held, the first other move is ready, and only RESETs leave nothing ready. -/
theorem resetWaitsForTransaction : Obligations.ResetWaitsForTransaction := by
  intro s held rest hrx hheld
  have ready : ∀ m, m.isReset = false → s.inputs = held ++ m :: rest →
      s.readyMoves = m :: rest ∧ s.heldResets = held :=
    fun m hm h => (ready_after_resets hrx hheld hm h).symm
  refine ⟨fun ws i left h hd => ?_, fun ws op left h hd => ?_, fun ws h hd => ?_, fun x h => ?_, fun e h => ?_,
    fun c xs h => ?_, fun h hp => step_quiet (ready_none (.inr ⟨hrx, h ▸ hheld⟩)) hp⟩ <;>
    obtain ⟨hready, hres⟩ := ready _ rfl h
  · rw [step_port_ok hready hd, hres]
  · rw [step_port_malformed hready hd, hres]
  · rw [step_port_short hready hd, hres]
  · rw [step_host hready, hres]
  · rw [step_req hready, hres]
  · rw [step_service hready, hres]

/-- The words of the transaction that decodes to an instruction, among the words of its table number. -/
theorem take_transactionLength_of_decode {ws rest : List Word} {i : Instr} (h : decode .listing ws = .ok (i, rest)) :
    ws.take (transactionLength (ws.getD 0 0)) = encode i := by
  obtain ⟨w, tl, op, rfl, hl, hs, rfl, rfl⟩ := decode_eq_ok_iff.mp h
  rw [encode_instrOfRow hs hl]
  have pos : transactionLength w = transactionLength w - 1 + 1 := by
    rw [transactionLength_of_selectRow hs]
    split <;> rfl
  rw [List.getD_cons_zero, pos, List.take_succ_cons, Nat.add_sub_cancel]

/-- Settles O9: the move placed is the agent's own, or the words of a port operation, which decode to it. -/
theorem placedInstructionRuns : Obligations.PlacedInstructionRuns := by
  intro s nbits w i h
  obtain ⟨rest, hd⟩ : ∃ rest, decode .listing (tableWords nbits w) = .ok (i, rest) := by
    unfold decodeTableWord at h
    split at h
    · rename_i j rest hd
      cases h
      exact ⟨rest, hd⟩
    · cases h
  obtain ⟨hwf, -, -⟩ := encodeInvertsDecode _ _ _ _ hd
  have placed : (s.withFetchWord nbits w).inputs = Input.ofListed (some i) (encode i) :: s.inputs := by
    simp only [State.withFetchWord, h, take_transactionLength_of_decode hd]
  obtain ⟨req, service, reset⟩ := stepRunsAgentMove (s.withFetchWord nbits w) s.inputs
  by_cases hport : i.isPortOp = true
  · have move : Input.ofListed (some i) (encode i) = .port (encode i) := by
      cases i with
      | req | service | reset => cases hport
      | _ => rfl
    have decodes : decode .port ((s.withFetchWord nbits w).rx ++ encode i) = .ok (i, []) := by
      simpa [State.withFetchWord] using (decodeInvertsEncode i [] hwf).2 hport
    exact stepRunsPortOperation _ _ _ _ _ (move ▸ placed) decodes
  · cases i with
    | req e => exact req e placed
    | service c => rw [service c [] placed, List.append_nil]; rfl
    | reset => exact reset rfl placed
    | _ => exact absurd rfl hport

/-- Settles O10: the decoder refuses the transaction and hands back the words after it. -/
theorem malformedCommandRaises : Obligations.MalformedCommandRaises := by
  intro s w ws rest hrx h hl hm
  obtain ⟨held, ready⟩ := ready_first rfl h
  have refused : decode .port (s.rx ++ w :: ws) =
      .error (.malformed (bits w 31 28) (ws.drop (transactionLength w - 1))) := by
    rw [hrx, List.nil_append, decode_cons_eq_malformed_iff hl]
    exact ⟨selectRow_port_eq_none_iff.mpr hm, rfl, rfl⟩
  refine ⟨if ws.drop (transactionLength w - 1) = [] then rest else .port (ws.drop (transactionLength w - 1)) :: rest, ?_,
    fun hnil => if_pos hnil, fun hne => if_neg hne⟩
  rw [step_port_malformed ready refused, held, List.nil_append, hrx]

/-- Settles O11: incomplete words wait, and the next words are decoded after them as if they had come in one piece. -/
theorem transactionMayComeInPieces : Obligations.TransactionMayComeInPieces := by
  intro s a rest hd h
  obtain ⟨held, ready⟩ := ready_first rfl h
  refine ⟨by rw [step_port_short ready hd, held, List.nil_append], ?_⟩
  rintro b rest' rfl
  obtain ⟨held₂, ready₂⟩ := ready_first (s := { s with rx := s.rx ++ a, inputs := .port b :: rest' }) (m := .port b) rfl rfl
  obtain ⟨held₁, ready₁⟩ := ready_first (s := { s with inputs := .port (a ++ b) :: rest' }) (m := .port (a ++ b)) rfl rfl
  have whole : decode .port (s.rx ++ (a ++ b)) = decode .port (s.rx ++ a ++ b) := by rw [List.append_assoc]
  cases hd' : decode .port (s.rx ++ a ++ b) with
  | ok p => rw [step_port_ok ready₂ hd', step_port_ok ready₁ (whole.trans hd'), held₁, held₂]
  | error e =>
    cases e with
    | short => rw [step_port_short ready₂ hd', step_port_short ready₁ (whole.trans hd'), held₁, held₂, List.append_assoc]
    | malformed op left =>
      rw [step_port_malformed ready₂ hd', step_port_malformed ready₁ (whole.trans hd'), held₁, held₂]

/-- Settles O12: no move is ready, so the turn is the engine's. -/
theorem engineTakesItsTurn : Obligations.EngineTakesItsTurn := by
  intro s h
  have ready := ready_none h
  exact ⟨step_engine ready, step_quiet ready⟩

/-! Host accesses between steps. -/

/-- Settles O13: each byte is read back from its address, and no other address is written. -/
theorem hostStoreWritesItsBytes : Obligations.HostStoreWritesItsBytes := by
  intro s a bs rest hwf h hl
  obtain ⟨held, ready⟩ := ready_first rfl h
  refine ⟨State.hostStore { s with inputs := rest } a bs, by rw [step_host ready, held]; rfl, fun k hk => ?_,
    fun x hx => read_writeBytes_other s.mem a bs x hx, rfl, rfl, rfl, rfl, rfl, rfl, rfl, rfl, rfl, rfl⟩
  exact (read_writeBytes_at hwf a bs hl k hk).trans (List.getD_eq_getElem _ _ hk).symm

/-- Settles O56: the bytes recorded are those that stand at the addresses of the load. -/
theorem hostLoadReturnsMemory : Obligations.HostLoadReturnsMemory := by
  intro s a n rest h
  obtain ⟨held, ready⟩ := ready_first rfl h
  refine ⟨s.mem.readBytes a n, by rw [step_host ready, held, List.nil_append]; rfl, readBytes_length _ a n, fun k hk => ?_⟩
  exact getD_readBytes s.mem a hk

end Sys2Proof.Machine
end

section
/-! PROOF. The steps of the whole machine on memory, the port and the records (spec/20_memory.md sections 1 and 7;
spec/30_encoding.md section 2; spec/00_scope.md section 5). -/

namespace Sys2Proof.Machine

/-! Memory stays canonical. -/

theorem execService_wf {s t : State} {c : Nat} (hwf : Memory.wf s.mem = true) (h : execService c s = .next t) :
    Memory.wf t.mem = true := by
  have rest : ∀ u : State, Memory.wf u.mem = true → Memory.wf u.hostRest.mem = true := fun u hu => landInside_wf hu _ _
  rcases execService_next h with ⟨-, rfl⟩ | ⟨r, -, ⟨x, hx, rfl⟩ | ⟨u, hu, rfl⟩⟩
  · exact rest s hwf
  · have moved := moveMinorLoop_wf c r.desc s hwf
    rw [hx] at moved
    refine rest _ ?_
    split <;> exact moved
  · have moved := moveMinorLoop_wf c r.desc s hwf
    rw [hu] at moved
    exact rest _ moved

/-- Settles O45: only SERVICE and the host write memory, and both keep its form. -/
theorem stepKeepsMemoryCanonical : Obligations.StepKeepsMemoryCanonical := by
  intro s t hwf h
  obtain ⟨u, hb, hu⟩ := step_next h
  rw [← hb.mem] at hwf
  obtain ⟨i, hi⟩ | rfl | ⟨x, rfl⟩ | rfl := hu
  · by_cases hc : ∃ c, i = .service c
    · obtain ⟨c, rfl⟩ := hc
      exact execService_wf hwf hi
    · rw [(exec_effect (fun c hic => hc ⟨c, hic⟩) hi).1.mem]
      exact hwf
  · exact hwf
  · exact hostAccess_wf hwf x
  · exact hwf

/-! Whose accesses a SERVICE adds. -/

/-- The event is no element access of another channel than `c`. -/
abbrev Event.NoneBut (c : Nat) (e : Event) : Prop := ∀ k, k ≠ c → e.accessOf k = false

theorem Event.NoAccess.noneBut {e : Event} (h : e.NoAccess) (c : Nat) : e.NoneBut c := by
  cases e with
  | read | write => cases h
  | _ => exact fun _ _ => rfl

theorem moveMinorLoop_adds (c : Nat) (d : Descriptor) (s : State) :
    (moveMinorLoop c d s).Ends (fun x => State.Adds (Event.NoneBut c) s x.s) (State.Adds (Event.NoneBut c) s) := by
  have access : ∀ (x : Transfer) (u : State) (e : Event), State.Adds (Event.NoneBut c) s x.s →
      u.history = (x.s.hostBefore x.idx).history ++ [e] → e.NoneBut c → State.Adds (Event.NoneBut c) s u :=
    fun x u e hx hu he =>
    (hx.trans ((hostBefore_adds x.s x.idx).mono fun _ h => h.noneBut c)).trans (.of_history_snoc hu he)
  have own : ∀ k, k ≠ c → (c == k) = false := fun k hk => beq_false_of_ne hk.symm
  refine moveElements_ends (P := fun x => State.Adds (Event.NoneBut c) s x.s) (fun x hx _ => ?_) (fun x hx _ => ?_) _ _
    (.of_history_eq rfl)
  · rcases readSource_spec c d x with ⟨-, e⟩ | ⟨-, e⟩ <;> rw [e] <;> exact access x _ _ hx rfl own
  · rcases writeDest_spec c d x with ⟨-, e⟩ | ⟨-, e⟩ <;> rw [e] <;> exact access x _ _ hx rfl own

theorem execService_addsOwn {s t : State} {c : Nat} (h : execService c s = .next t) :
    State.Adds (Event.NoneBut c) s t :=
  execService_adds (fun _ he => he.noneBut c) (fun r _ => moveMinorLoop_adds c r.desc s) h

/-- Settles O53: a channel that is not enabled has no latched request, so its SERVICE makes no access, and that of another
channel makes its own only. -/
theorem disabledChannelMakesNoAccess : Obligations.DisabledChannelMakesNoAccess := by
  intro s t c r hs hr hen h
  have none : ∀ e : Event, e.NoAccess → e.accessOf c = false := fun e he =>
    he.noneBut (c + 1) c (Nat.succ_ne_self c).symm
  refine step_adds none (fun u k hb hu => ?_) h
  by_cases hk : k = c
  · subst hk
    refine execService_adds none (fun r' hdue => ?_) hu
    obtain ⟨hr', pend, -⟩ := hdue
    rw [State.Has, State.chan?, hb.chans] at hr'
    obtain rfl : r = r' := Option.some.inj (hr.symm.trans hr')
    obtain ⟨enabled, -⟩ := (hs.2 r hr.mem).1.running_of_pend pend
    exact absurd (enabled.symm.trans hen) (by decide)
  · exact (execService_addsOwn hu).mono fun e he => he c (Ne.symm hk)

/-! What only grows. -/

theorem execService_irqs_prefix {s t : State} {c : Nat} (h : execService c s = .next t) : s.irqs <+: t.irqs := by
  rcases execService_irqs h with same | ⟨-, -, -, -, -, -, more⟩
  · exact same ▸ List.prefix_refl _
  · exact more ▸ List.prefix_append _ _

theorem State.Adds.history_prefix {p : Event → Prop} {s t : State} (h : State.Adds p s t) : s.history <+: t.history := by
  obtain ⟨es, hes, -⟩ := h
  exact hes ▸ List.prefix_append _ _

/-- Settles O47: no instruction shortens a record, and the other steps answer or record one more. -/
theorem stepKeepsParameters : Obligations.StepKeepsParameters := by
  intro s t h
  obtain ⟨u, hb, hu⟩ := step_next h
  rw [← hb.cfg, ← hb.chans, ← hb.history, ← hb.portOut, ← hb.irqs]
  obtain ⟨i, hi⟩ | rfl | ⟨x, rfl⟩ | rfl := hu
  · refine ⟨(exec_sameInputs hi).1, (exec_evolves hi).1, ?_⟩
    by_cases hc : ∃ c, i = .service c
    · obtain ⟨c, rfl⟩ := hc
      obtain ⟨-, -, out⟩ := execService_env hi
      exact ⟨(execService_addsOwn hi).history_prefix, out ▸ List.prefix_refl _, execService_irqs_prefix hi⟩
    · obtain ⟨off, -⟩ := exec_effect (fun c hic => hc ⟨c, hic⟩) hi
      exact ⟨off.history.history_prefix, off.portOut, off.irqs ▸ List.prefix_refl _⟩
  · exact ⟨rfl, rfl, List.prefix_refl _, List.prefix_append _ _, List.prefix_refl _⟩
  · refine ⟨u.hostAccess_cfg x, congrArg _ (u.hostAccess_chans x), (hostAccess_adds u x).history_prefix, ?_, ?_⟩
    · rw [u.hostAccess_portOut x]
    · rw [u.hostAccess_irqs x]
  · exact ⟨rfl, rfl, List.prefix_refl _, List.prefix_refl _, List.prefix_refl _⟩

/-! What waits at the port and inside a step. -/

/-- What waits in a state between two turns: words short of a transaction, and no host access inside a step. -/
abbrev State.WaitsFrom (s t : State) : Prop := (s.PortWaits → t.PortWaits) ∧ (s.inside = [] → t.inside = [])

/-- The turn happens from a state in which no transaction is complete; host accesses wait inside a SERVICE only. -/
def Turn.Waits (s : State) : Turn → Prop
  | .run i t => (s.PortWaits → t.PortWaits) ∧ ((∃ c, i = .service c) ∨ t.inside = s.inside)
  | .malformed t => s.WaitsFrom t
  | .host _ t => s.WaitsFrom t
  | .waiting t => s.WaitsFrom t
  | .quiet => True

/-- Words that the decoder finds short are fewer than their command word calls for (R92). -/
theorem portWaits_of_short {ws : List Word} (h : decode .port ws = .error .short) :
    ws = [] ∨ ws.length < transactionLength (ws.getD 0 0) := by
  cases ws with
  | nil => exact .inl rfl
  | cons w ws =>
    refine .inr (show ws.length + 1 < transactionLength w from ?_)
    by_contra hl
    cases hs : selectRow .port w <;> simp [decode, hl, hs] at h

theorem nextTurn_waits (s : State) : s.nextTurn.Waits s := by
  unfold State.nextTurn
  split
  case h_1 => trivial
  case h_2 =>
    split
    case h_1 => exact ⟨fun _ => .inl rfl, .inr rfl⟩
    case h_2 => exact ⟨fun _ => .inl rfl, id⟩
    case h_3 short => exact ⟨fun _ => portWaits_of_short short, id⟩
  case h_3 => exact ⟨id, id⟩
  case h_4 => exact ⟨id, .inr rfl⟩
  case h_5 => exact ⟨id, .inl ⟨_, rfl⟩⟩
  case h_6 => exact ⟨id, .inr rfl⟩

/-- An instruction keeps the words that wait, and afterwards no host access waits that did not wait before. -/
theorem exec_waits {s t : State} {i : Instr} (h : exec i s = .next t) :
    (s.PortWaits → t.PortWaits) ∧ (t.inside = s.inside ∨ t.inside = []) := by
  obtain ⟨-, -, hrx⟩ := exec_sameInputs h
  refine ⟨by rw [State.PortWaits, State.PortWaits, hrx]; exact id, ?_⟩
  by_cases hc : ∃ c, i = .service c
  · obtain ⟨c, rfl⟩ := hc
    exact .inr (execService_env h).2.1
  · exact .inl (exec_effect (fun c hic => hc ⟨c, hic⟩) h).1.env.2

/-- Settles O46: a step keeps the words received only while the decoder finds them short, and only a SERVICE has host
accesses inside, which are over when it is. -/
theorem stepKeepsPortWaiting : Obligations.StepKeepsPortWaiting := by
  intro s t h
  have hw := nextTurn_waits s
  unfold step at h
  split at h
  case h_1 i u hu =>
    rw [hu] at hw
    obtain ⟨port, inside⟩ := hw
    refine ⟨fun hp => (exec_waits h).1 (port hp), fun hin => ?_⟩
    obtain ⟨c, rfl⟩ | same := inside
    · exact (execService_env h).2.1
    · rcases (exec_waits h).2 with ht | ht
      · rw [ht, same, hin]
      · exact ht
  case h_2 u hu => rw [hu] at hw; exact (raise_next _ _ _).mp h ▸ hw
  case h_3 x u hu =>
    rw [hu] at hw
    cases h
    cases x <;> exact hw
  case h_4 u hu => rw [hu] at hw; cases h; exact hw
  case h_5 =>
    split at h
    · rename_i c u hu
      have waits : s.WaitsFrom u := by
        unfold State.engineTurn at hu
        split at hu <;> cases hu <;> exact ⟨id, id⟩
      exact ⟨fun hp => (exec_waits h).1 (waits.1 hp), fun _ => (execService_env h).2.1⟩
    · cases h; exact ⟨id, id⟩

/-! Reset. -/

/-- Settles O42: every register set after RESET is `Channel.afterReset` of some draw. -/
theorem resetQuietensEveryChannel : Obligations.ResetQuietensEveryChannel := by
  intro s
  refine ⟨_, rfl, resetChans_length _ _, fun c r hr => ?_, rfl, rfl, ⟨rfl, rfl, rfl, rfl⟩, rfl, rfl⟩
  obtain ⟨n, rfl⟩ := mem_resetChans hr.mem
  exact ⟨rfl, rfl, rfl, rfl, rfl, rfl⟩

/-- Settles O43: the state is a literal, and each invariant is evaluated on it. -/
theorem resetStateIsLegal : Obligations.ResetStateIsLegal := by
  unfold Obligations.ResetStateIsLegal
  have legal : ∀ r ∈ State.reset.chans, r.Legal State.reset.cfg.nEv := by decide
  have fresh : ∀ r ∈ State.reset.chans, r.Fresh := by decide
  exact ⟨by decide, ⟨by decide, fun r hr => ⟨legal r hr, fresh r hr⟩⟩, by decide, by decide, rfl, rfl⟩

/-! Operations that have no step. -/

/-- Settles O16: each of the seven opens with the range check. -/
theorem channelRangeComesFirst : Obligations.ChannelRangeComesFirst := by
  intro s i ch hi h
  have refused : ∀ op, onChannel ch s op = s.says 0x20100000#32 := fun op => onChannel_none h op
  cases i with
  | req | service | reset => cases hi
  | wrdesc | arm | disarm | status | bind | stop | rddesc => cases hi; exact refused _

/-- Settles O33: the request is latched, so the refusal of `link_en` is reached. -/
theorem linkedServiceIsRefused : Obligations.LinkedServiceIsRefused := by
  intro s c r hr hp hl
  have hr' : s.chan? c = some r := hr
  simp [exec, execService, hr', hp, hl]

/-- What host accesses that take effect inside a step change. -/
theorem landInside_fields (due : InsideAccess → Bool) (xs : List InsideAccess) (s : State) :
    landInside due xs s =
      { s with
        mem := (landInside due xs s).mem, races := (landInside due xs s).races
        history := (landInside due xs s).history, inside := (landInside due xs s).inside } := by
  induction xs generalizing s with
  | nil => rfl
  | cons x xs ih =>
    rw [landInside]
    split
    · rw [ih]
      cases x.access <;> rfl
    · rfl

/-- Settles O32: with no latched request only what the host does inside the step happens. -/
theorem serviceNeedsRequest : Obligations.ServiceNeedsRequest := by
  intro s c h
  have rests : execService c s = .next s.hostRest := by
    unfold execService
    cases hr : s.chan? c with
    | none => rfl
    | some r => exact if_pos (h r hr)
  obtain ⟨es, history, mem, host, -⟩ := landInside_events (fun _ => true) s.inside s
  refine ⟨_, es, rests, ?_, host, mem, State.hostRest_none⟩
  rw [← State.hostRest_inside s, ← history]
  exact landInside_fields _ _ _

/-! The re-arm protocol. -/

/-- Settles O30: neither Done nor Error is Idle; DISARM leads to Idle and leaves `valid`, which is 0 in both (R41). -/
theorem rearmNeedsDisarmAndReprogram : Obligations.RearmNeedsDisarmAndReprogram := by
  intro s ch r g hs hr hst
  obtain ⟨-, -, -, done, error, -⟩ := (hs.2 r hr.mem).1
  have invalid : r.valid = false := hst.elim (fun h => (done h).1) fun h => (error h).2.2
  have idle : r.st ≠ .idle := by rcases hst with h | h <;> rw [h] <;> decide
  have active : r.st ≠ .active := by rcases hst with h | h <;> rw [h] <;> decide
  refine ⟨execWrdesc_not_idle hr idle, execArm_not_idle hr idle, _, execDisarm_not_active hr active, ?_⟩
  exact execArm_no_descriptor (State.acceptOrdered_changes hr r.disarmed (.disarm ch)).1 rfl invalid

end Sys2Proof.Machine
end

section
/-! PROOF. The descriptor image: what an accepted WRDESC installs and what RDDESC shows (spec/40_descriptor_port.md
sections 1 and 2; spec/30_encoding.md R94, R95). -/

namespace Sys2Proof

/-! Fields of a word by its bits. -/

theorem bits_congr {w w' : Word} {hi lo : Nat} (h : ∀ k, k < hi - lo + 1 → w.getLsbD (lo + k) = w'.getLsbD (lo + k)) :
    bits w hi lo = bits w' hi lo := by
  rw [bits_eq_extractLsb' w' hi lo]
  exact bits_eq_toNat fun k hk => by rw [BitVec.getLsbD_extractLsb', decide_eq_true hk, Bool.true_and, h k hk]

theorem bits_eq_zero {w : Word} {hi lo : Nat} (h : ∀ k, k < hi - lo + 1 → w.getLsbD (lo + k) = false) :
    bits w hi lo = 0 :=
  bits_eq_toNat (v := 0#(hi - lo + 1)) fun k hk => by rw [h k hk, BitVec.getLsbD_zero]

/-- A one-bit field is the bit. -/
theorem bits_single_beq_one (w : Word) (i : Nat) : (bits w i i == 1) = w.getLsbD i := by
  rw [bits, Nat.sub_self, BitVec.getLsbD, Nat.testBit_eq_decide_div_mod_eq]
  rfl

theorem ElemSize.bytes_eq_two_pow (e : ElemSize) : e.bytes = 2 ^ e.code := by cases e <;> rfl

theorem ElemSize.ofCode_code (e : ElemSize) : ElemSize.ofCode e.code = e := by cases e <;> rfl

/-- The image bits an accepted WRDESC ignores, W8 and W11[15:8], no check asks either (R95, R120). -/
theorem Image.firstError_congr {g : Image} {c8 csr : Word}
    (h : ∀ hi lo, lo ≤ hi → hi < 8 ∨ 16 ≤ lo → bits csr hi lo = bits g.w11 hi lo) :
    ({ g with w8 := c8, w11 := csr } : Image).firstError = g.firstError := by
  have reserved : ({ g with w8 := c8, w11 := csr } : Image).chkReserved = g.chkReserved := by
    simp only [chkReserved, ssizeCode, dsizeCode, h 7 4 (by decide) (by decide), h 31 16 (by decide) (by decide)]
  have offset : ({ g with w8 := c8, w11 := csr } : Image).chkOffset = g.chkOffset := by
    simp only [chkOffset, es, ssizeCode, h 3 3 (by decide) (by decide)]
  unfold firstError
  rw [reserved, offset]
  rfl

namespace Machine

theorem Descriptor.ofImage_congr {g : Image} {c8 csr : Word}
    (h : ∀ hi lo, lo ≤ hi → hi < 8 ∨ 16 ≤ lo → bits csr hi lo = bits g.w11 hi lo) :
    Descriptor.ofImage { g with w8 := c8, w11 := csr } = Descriptor.ofImage g := by
  simp only [ofImage, Image.ssizeCode, Image.dsizeCode, h 0 0 (by decide) (by decide),
    h 1 1 (by decide) (by decide), h 2 2 (by decide) (by decide), h 3 3 (by decide) (by decide)]

/-! W4 as RDDESC shows it (R94). -/

theorem Descriptor.attrWord_fields (d : Descriptor) :
    bits d.attrWord 1 0 = d.ssize.code ∧ bits d.attrWord 7 2 = 0 ∧ bits d.attrWord 9 8 = d.dsize.code
      ∧ bits d.attrWord 31 10 = 0 := by
  unfold attrWord
  cases d.ssize <;> cases d.dsize <;> decide

theorem Descriptor.attrWord_sizes (d : Descriptor) :
    2 ^ bits d.attrWord 1 0 = d.ssize.bytes ∧ 2 ^ bits d.attrWord 9 8 = d.dsize.bytes := by
  obtain ⟨ssize, -, dsize, -⟩ := d.attrWord_fields
  rw [ssize, dsize, ElemSize.bytes_eq_two_pow, ElemSize.bytes_eq_two_pow]
  exact ⟨rfl, rfl⟩

/-! W11 as RDDESC shows it (R95). -/

theorem Descriptor.getLsbD_controlFlags (d : Descriptor) (j : Nat) :
    d.controlFlags.getLsbD j
      = ((d.autoDisable && j = 0) || (d.intMajor && j = 1) || (d.linkEn && j = 2) || (d.mloe && j = 3)) := by
  simp only [controlFlags, BitVec.getLsbD_or, getLsbD_flagAt, Nat.reduceLT]

theorem Channel.getLsbD_statusViews (r : Channel) (j : Nat) :
    r.statusViews.getLsbD j
      = ((r.st == .active && j = 8) || (r.st == .done && j = 9) || (r.st == .error && j = 10) || (r.enable && j = 11)
        || (r.valid && j = 12) || (r.pend && j = 13)) := by
  simp only [statusViews, activeView, doneView, errorView, BitVec.getLsbD_or, getLsbD_flagAt, Nat.reduceLT]

/-- The word has no bit above the four control flags. -/
def FlagsOnly (w : Word) : Prop := ∀ j, 4 ≤ j → w.getLsbD j = false

theorem Descriptor.flagsOnly_controlFlags (d : Descriptor) : FlagsOnly d.controlFlags := by
  intro j hj
  simp [d.getLsbD_controlFlags, show j ≠ 0 by omega, show j ≠ 1 by omega, show j ≠ 2 by omega, show j ≠ 3 by omega]

theorem flagsOnly_and (w : Word) : FlagsOnly (w &&& 0x0000000F#32) := by
  intro j hj
  have mask : (0x0000000F#32).getLsbD j = false :=
    Nat.testBit_lt_two_pow (Nat.lt_of_lt_of_le (by decide : 15 < 2 ^ 4) (Nat.pow_le_pow_right (by decide) hj))
  rw [BitVec.getLsbD_and, mask, Bool.and_false]

section
variable {low : Word} (h : FlagsOnly low) (r : Channel)
include h

/-- Whatever the flags, the reserved bits of W11 are 0 and the views stand in their bits. -/
theorem FlagsOnly.views :
    bits (low ||| r.statusViews) 7 4 = 0
      ∧ (low ||| r.statusViews).getLsbD 8 = (r.st == .active) ∧ (low ||| r.statusViews).getLsbD 9 = (r.st == .done)
      ∧ (low ||| r.statusViews).getLsbD 10 = (r.st == .error) ∧ (low ||| r.statusViews).getLsbD 11 = r.enable
      ∧ (low ||| r.statusViews).getLsbD 12 = r.valid ∧ (low ||| r.statusViews).getLsbD 13 = r.pend
      ∧ bits (low ||| r.statusViews) 31 14 = 0 := by
  have above : ∀ j, 4 ≤ j → (low ||| r.statusViews).getLsbD j = r.statusViews.getLsbD j := fun j hj => by
    rw [BitVec.getLsbD_or, h j hj, Bool.false_or]
  have reserved : ∀ j, 4 ≤ j → j < 8 ∨ 14 ≤ j → (low ||| r.statusViews).getLsbD j = false := fun j hj hr => by
    rw [above j hj, r.getLsbD_statusViews]
    simp [show j ≠ 8 by omega, show j ≠ 9 by omega, show j ≠ 10 by omega, show j ≠ 11 by omega, show j ≠ 12 by omega,
      show j ≠ 13 by omega]
  refine ⟨bits_eq_zero fun k hk => reserved _ (by omega) (by omega), ?_, ?_, ?_, ?_, ?_, ?_,
    bits_eq_zero fun k hk => reserved _ (by omega) (by omega)⟩
  all_goals rw [above _ (by decide), r.getLsbD_statusViews]; simp

omit h in
theorem Channel.getLsbD_csr_low {j : Nat} (hj : j < 4) :
    (low ||| r.statusViews).getLsbD j = low.getLsbD j := by
  rw [BitVec.getLsbD_or, r.getLsbD_statusViews]
  simp [show j ≠ 8 by omega, show j ≠ 9 by omega, show j ≠ 10 by omega, show j ≠ 11 by omega, show j ≠ 12 by omega,
      show j ≠ 13 by omega]

end

theorem Channel.csr_flags (r : Channel) :
    (r.desc.controlFlags ||| r.statusViews).getLsbD 0 = r.desc.autoDisable
      ∧ (r.desc.controlFlags ||| r.statusViews).getLsbD 1 = r.desc.intMajor
      ∧ (r.desc.controlFlags ||| r.statusViews).getLsbD 2 = r.desc.linkEn
      ∧ (r.desc.controlFlags ||| r.statusViews).getLsbD 3 = r.desc.mloe := by
  refine ⟨?_, ?_, ?_, ?_⟩
  all_goals rw [r.getLsbD_csr_low (by decide), r.desc.getLsbD_controlFlags]; simp

/-! The image read back (R95). -/

/-- The registers the image of a channel is written to are those it was read from, with the count loaded again. -/
theorem Channel.ofImage_image (r : Channel) : Descriptor.ofImage r.image = { r.desc with citer := r.desc.biter } := by
  obtain ⟨ssize, -, dsize, -⟩ := r.desc.attrWord_fields
  obtain ⟨autoDisable, intMajor, linkEn, mloe⟩ := r.csr_flags
  simp only [Descriptor.ofImage, Channel.image, Image.ssizeCode, Image.dsizeCode, ssize, dsize, ElemSize.ofCode_code,
    bits_single_beq_one, autoDisable, intMajor, linkEn, mloe]

/-- The image of a checked descriptor whose extent fits passes every check. -/
theorem Channel.image_acceptable {r : Channel} (hd : r.desc.Checked)
    (extent : r.desc.nbytes.toNat * r.desc.biter.toNat = r.desc.bufbytes.toNat) : r.image.Acceptable := by
  obtain ⟨nbytes, biter, ssize, dsize, soff, doff, slast, mloff, saddr, daddr⟩ := hd
  obtain ⟨codeS, low, codeD, high⟩ := r.desc.attrWord_fields
  obtain ⟨sizeS, sizeD⟩ := r.desc.attrWord_sizes
  obtain ⟨reserved, -, -, -, -, -, -, unused⟩ := FlagsOnly.views r.desc.flagsOnly_controlFlags r
  obtain ⟨-, -, -, flag⟩ := r.csr_flags
  have top : bits (r.desc.controlFlags ||| r.statusViews) 31 16 = 0 := by
    simp only [bits] at unused ⊢
    omega
  have offset : bits (r.desc.controlFlags ||| r.statusViews) 3 3 = 0 ∨ r.desc.ssize.bytes ∣ r.desc.mloff.toNat := by
    rw [← bits_single_beq_one, beq_eq_decide] at flag
    cases hm : r.desc.mloe with
    | true => exact .inr (mloff hm)
    | false =>
      have bound : bits (r.desc.controlFlags ||| r.statusViews) 3 3 < 2 := Nat.mod_lt _ (by decide)
      rw [hm, decide_eq_false_iff_not] at flag
      exact .inl (by omega)
  refine ⟨⟨low, high, codeS ▸ ?_, codeD ▸ ?_, reserved, top⟩, ⟨nbytes, biter⟩, ⟨sizeS ▸ ssize, sizeD ▸ dsize⟩,
    ⟨sizeS ▸ soff, sizeD ▸ doff⟩, ⟨sizeS ▸ slast, sizeS ▸ offset⟩, ⟨sizeS ▸ saddr, sizeD ▸ daddr⟩, extent⟩
  · cases r.desc.ssize <;> decide
  · cases r.desc.dsize <;> decide

/-! The operations. -/

section
variable {s : State} {ch : Nat} {r : Channel} {g : Image}

theorem execWrdesc_accepted (h : s.Has ch r) (hst : r.st = .idle) (hg : g.Acceptable) :
    execWrdesc ch g s = .next ((s.setChan ch (r.programmed g)).answer (.ok 0)) := by
  rw [execWrdesc, onChannel_has h, if_neg (· hst), firstError_eq_none_iff.mpr hg]

theorem execRddesc_has (h : s.Has ch r) :
    execRddesc ch s = .next (((s.answer (.ok 0)).putWords (r.shownImage s.draws).words).drew r.shownDraws) := by
  rw [execRddesc, onChannel_has h]

/-- RDDESC of specified registers returns the image, without a draw (R130). -/
theorem execRddesc_specified (h : s.Has ch r) (hc : r.contents = .specified) :
    execRddesc ch s = .next { s with portOut := s.portOut ++ 0x00000000#32 :: r.image.words } := by
  rw [execRddesc_has h, Channel.shownImage, Channel.shownDraws, hc]
  simp [State.answer, State.putWords, State.drew, Answer.word]

end

/-- Settles O15: an accepted ARM publishes. -/
theorem armPublishesHostStores : Obligations.ArmPublishesHostStores := by
  intro s ch r h hst hvalid
  obtain ⟨-, -, arm⟩ := armFollowsItsRule s ch r h
  obtain ⟨t, ht, -, -, -, mem, -, -, -, -, -, reads⟩ := arm hst hvalid
  exact ⟨t, ht, mem, reads⟩

/-- Settles O18: one register set is written, from the fields of the image. -/
theorem wrdescInstallsDescriptor : Obligations.WrdescInstallsDescriptor := by
  intro s ch r g h hst hg
  obtain ⟨form, -⟩ := id hg
  refine ⟨_, Descriptor.ofImage g, execWrdesc_accepted h hst hg, chan?_setChan_same h, rfl, rfl, rfl, rfl,
    bytes_ssize_of_formOk form, bytes_dsize_of_formOk form, rfl, rfl, rfl, rfl, rfl, rfl, bits_single_beq_one _ _,
    bits_single_beq_one _ _, bits_single_beq_one _ _, bits_single_beq_one _ _, sameChannelsBut_setChan s ch _,
    ⟨⟨rfl, rfl, rfl⟩, rfl⟩, ⟨rfl, rfl, rfl, rfl⟩, rfl, rfl, rfl⟩

/-- Settles O19: the checks and the registers read only fields in which the images agree. -/
theorem ignoredImageBitsDoNotMatter : Obligations.IgnoredImageBitsDoNotMatter := by
  intro s ch g c8 csr h
  have fields : ∀ hi lo, lo ≤ hi → hi < 8 ∨ 16 ≤ lo → bits csr hi lo = bits g.w11 hi lo := by
    refine fun hi lo _ outside => bits_congr fun k hk => ?_
    by_cases hj : lo + k < 32
    · have mask : (0xFFFF00FF#32).getLsbD (lo + k) = true := by
        have all : ∀ j, j < 32 → j < 8 ∨ 16 ≤ j → (0xFFFF00FF#32).getLsbD j = true := by decide
        exact all _ hj (by omega)
      simpa [mask] using congrArg (·.getLsbD (lo + k)) h
    · rw [csr.getLsbD_of_ge _ (not_lt.mp hj), g.w11.getLsbD_of_ge _ (not_lt.mp hj)]
  simp only [exec, execWrdesc, Channel.programmed, Image.firstError_congr fields, Descriptor.ofImage_congr fields]

/-- Settles O20: the image read passes the checks, and its registers are those it was read from. -/
theorem readImageWritesBack : Obligations.ReadImageWritesBack := by
  intro s ch r h hst hc hd extent
  refine ⟨_, _, r.image, execRddesc_specified h hc, rfl,
    execWrdesc_accepted (r := r) h hst (Channel.image_acceptable hd extent), ?_⟩
  have written : r.programmed r.image = { r with desc := { r.desc with citer := r.desc.biter }, valid := true } := by
    rw [Channel.programmed, r.ofImage_image, ← hc]
  rw [← written]
  exact chan?_setChan_same h

/-- Settles O21: the words are those of the channel's image, whose W4 and W11 are read bit by bit. -/
theorem rddescReturnsImage : Obligations.RddescReturnsImage := by
  intro s ch r h hc
  obtain ⟨-, low, -, high⟩ := r.desc.attrWord_fields
  obtain ⟨ssize, dsize⟩ := r.desc.attrWord_sizes
  obtain ⟨autoDisable, intMajor, linkEn, mloe⟩ := r.csr_flags
  exact ⟨r.desc.attrWord, r.desc.controlFlags ||| r.statusViews, execRddesc_specified h hc, ssize, low, dsize, high,
    autoDisable, intMajor, linkEn, mloe, FlagsOnly.views r.desc.flagsOnly_controlFlags r⟩

/-- Settles O22: W4 and W11 are masked draws with the views, or, after an entry to Error, those of the image. -/
theorem rddescShowsWhatIsSpecified : Obligations.RddescShowsWhatIsSpecified := by
  intro s ch r h hc
  have drawn : s.draws < s.draws + r.shownDraws := by simp [Channel.shownDraws, hc]
  refine ⟨_, r.shownImage s.draws, execRddesc_has h, by simp [Answer.word], ?_⟩
  cases hw : r.contents with
  | specified => exact absurd hw hc
  | workingUnspecified =>
    simp only [Channel.shownImage, hw]
    obtain ⟨-, low, -, high⟩ := r.desc.attrWord_fields
    obtain ⟨ssize, dsize⟩ := r.desc.attrWord_sizes
    obtain ⟨reserved, active, done, error, enable, valid, pend, unused⟩ := FlagsOnly.views r.desc.flagsOnly_controlFlags r
    exact ⟨low, high, reserved, unused, active, done, error, enable, valid, pend,
      fun _ => ⟨rfl, rfl, rfl, rfl, rfl, rfl, rfl, ssize, dsize, r.csr_flags⟩, rfl, ⟨⟨rfl, rfl, rfl⟩, rfl⟩,
      ⟨rfl, rfl, rfl, rfl⟩, rfl, drawn⟩
  | unspecified =>
    simp only [Channel.shownImage, hw]
    have masked : ∀ w : Word, bits (w &&& 0x00000303#32) 7 2 = 0 ∧ bits (w &&& 0x00000303#32) 31 10 = 0 := fun w => by
      have mask : ∀ j, j < 32 → 2 ≤ j ∧ j < 8 ∨ 10 ≤ j → (0x00000303#32).getLsbD j = false := by decide
      refine ⟨bits_eq_zero fun k hk => ?_, bits_eq_zero fun k hk => ?_⟩
      all_goals rw [BitVec.getLsbD_and, mask _ (by omega) (by omega), Bool.and_false]
    obtain ⟨reserved, active, done, error, enable, valid, pend, unused⟩ :=
      FlagsOnly.views (flagsOnly_and (Config.freeWord (s.draws + 11))) r
    exact ⟨(masked _).1, (masked _).2, reserved, unused, active, done, error, enable, valid, pend, nofun, rfl,
      ⟨⟨rfl, rfl, rfl⟩, rfl⟩, ⟨rfl, rfl, rfl, rfl⟩, rfl, drawn⟩

end Machine
end Sys2Proof
end

section
/-! PROOF. What a read that races with host stores returns (spec/20_memory.md R69, R79). -/

namespace Sys2Proof.Machine

/-! Each channel is listed once. -/

theorem channelsFrom_nodup (p : Channel → Bool) (k : Nat) (rs : List Channel) : (channelsFrom p k rs).Nodup := by
  induction rs generalizing k with
  | nil => exact List.nodup_nil
  | cons x rs ih =>
    rw [channelsFrom]
    split
    · refine List.nodup_cons.mpr ⟨fun hk => ?_, ih (k + 1)⟩
      obtain ⟨j, -, hj, -⟩ := mem_channelsFrom.mp hk
      omega
    · exact ih (k + 1)

theorem filter_channelsFrom {s : State} {c : Nat} {r : Channel} {p : Channel → Bool} (h : s.Has c r) (hp : p r = true) :
    (channelsFrom p 0 s.chans).filter (· == c) = [c] := by
  have listed : c ∈ channelsFrom p 0 s.chans := mem_channelsFrom.mpr ⟨c, r, (Nat.zero_add c).symm, h, hp⟩
  rw [List.filter_beq, List.count_eq_one_of_mem (channelsFrom_nodup p 0 s.chans) listed, List.replicate_one]

/-! The bytes a store put away. -/

/-- What a host store made while channel `c` is enabled keeps of the memory before it. -/
def State.undo (s : State) (c : Nat) (a : Word) (bs : List Byte) : RacingStore :=
  { ch := c, old := (elementAddrs a bs.length).map fun x => (x, s.mem.read x) }

section
variable {s : State} {c : Nat}

theorem lookup_undo (a : Word) (bs : List Byte) (x : Nat) :
    (s.undo c a bs).old.lookup x = if x ∈ elementAddrs a bs.length then some (s.mem.read x) else none := by
  unfold State.undo
  induction elementAddrs a bs.length with
  | nil => rfl
  | cons y ys ih =>
    by_cases hxy : x = y
    · simp [hxy]
    · simp [List.lookup_cons, beq_false_of_ne hxy, ih, hxy]

/-- Undoing a store gives every byte back. -/
theorem undo_hostStore (a : Word) (bs : List Byte) (x : Nat) :
    ((s.undo c a bs).old.lookup x).getD ((s.hostStore a bs).mem.read x) = s.mem.read x := by
  rw [lookup_undo]
  split
  · rfl
  · rename_i outside
    exact read_writeBytes_other s.mem a bs x outside

theorem read_of_not_touches {a b : Word} {bs : List Byte} {n x : Nat}
    (h : (s.undo c a bs).touches (elementAddrs b n) = false) (hx : x ∈ elementAddrs b n) :
    (s.hostStore a bs).mem.read x = s.mem.read x := by
  have none : ((s.undo c a bs).old.lookup x).isSome = false := Bool.eq_false_iff.mpr fun hl =>
    Bool.eq_false_iff.mp h (List.any_eq_true.mpr ⟨x, hx, hl⟩)
  have back := undo_hostStore (s := s) (c := c) a bs x
  rwa [Option.not_isSome_iff_eq_none.mp (Bool.eq_false_iff.mp none)] at back

/-- A host store joins the stores that race with the reads of an enabled channel whose bytes it touches, as the newest. -/
theorem racing_hostStore {r : Channel} (h : s.Has c r) (hen : r.enable = true) (a b : Word) (bs : List Byte) (n : Nat) :
    (s.hostStore a bs).racing c b n =
      (if (s.undo c a bs).touches (elementAddrs b n) then [s.undo c a bs] else []) ++ s.racing c b n := by
  have newest : ((channelsFrom (fun r => r.enable) 0 s.chans).map fun k => s.undo k a bs).filter
      (fun r => r.ch == c && r.touches (elementAddrs b n))
        = if (s.undo c a bs).touches (elementAddrs b n) then [s.undo c a bs] else [] := by
    have same : ∀ k, (s.undo k a bs).touches (elementAddrs b n) = (s.undo c a bs).touches (elementAddrs b n) := fun _ => rfl
    rw [List.filter_map]
    simp only [Function.comp_def, same]
    cases (s.undo c a bs).touches (elementAddrs b n)
    · simp
    · have one := filter_channelsFrom (p := fun r => r.enable) h hen
      simp only [Bool.and_true, State.undo] at one ⊢
      rw [one]
      rfl
  unfold State.racing
  rw [← newest, ← List.filter_append]
  rfl

theorem hostStores_chans (stores : List (Word × List Byte)) (s : State) : (hostStores stores s).chans = s.chans := by
  induction stores generalizing s with
  | nil => rfl
  | cons p stores ih => exact (ih _).trans (State.hostStore_chans s p.1 p.2)

/-- Memory before the newest `k` of the stores that race with a read of the bytes, there. -/
def State.rolledBack (s : State) (c : Nat) (b : Word) (n k x : Nat) : Byte :=
  byteBefore ((s.racing c b n).take k) x (s.mem.read x)

/-- Rolling back any number of racing stores gives the bytes that stood there together after some of all stores. -/
theorem rolledBack_hostStores {r : Channel} (h : s.Has c r) (hen : r.enable = true) (hc : ∀ x ∈ s.races, x.ch ≠ c)
    (b : Word) (n : Nat) (stores : List (Word × List Byte)) (k : Nat) :
    ∃ i, i ≤ stores.length ∧ ∀ x ∈ elementAddrs b n,
      (hostStores stores s).rolledBack c b n k x = (hostStores (stores.take i) s).mem.read x := by
  induction stores using List.reverseRecOn generalizing k with
  | nil =>
    refine ⟨0, le_refl _, fun x _ => ?_⟩
    rw [State.rolledBack, show (hostStores [] s).racing c b n = [] from racing_none hc b n, List.take_nil]
    rfl
  | append_singleton stores p ih =>
    have hlast : hostStores (stores ++ [p]) s = (hostStores stores s).hostStore p.1 p.2 := by simp [hostStores]
    have has : (hostStores stores s).Has c r := by rwa [State.Has, State.chan?, hostStores_chans]
    have earlier : ∀ k', (∀ x ∈ elementAddrs b n,
        ((hostStores stores s).hostStore p.1 p.2).rolledBack c b n k x = (hostStores stores s).rolledBack c b n k' x) →
        ∃ i, i ≤ (stores ++ [p]).length ∧ ∀ x ∈ elementAddrs b n,
          (hostStores (stores ++ [p]) s).rolledBack c b n k x = (hostStores ((stores ++ [p]).take i) s).mem.read x := by
      intro k' hk'
      obtain ⟨i, hi, hx⟩ := ih k'
      refine ⟨i, by rw [List.length_append]; omega, fun x hmem => ?_⟩
      rw [hlast, hk' x hmem, hx x hmem, List.take_append_of_le_length hi]
    have racing := racing_hostStore has hen p.1 b p.2 n
    cases ht : ((hostStores stores s).undo c p.1 p.2).touches (elementAddrs b n) with
    | false =>
      rw [ht] at racing
      refine earlier k fun x hx => ?_
      rw [State.rolledBack, racing, read_of_not_touches ht hx]
      rfl
    | true =>
      rw [ht] at racing
      cases k with
      | zero =>
        refine ⟨(stores ++ [p]).length, le_refl _, fun x _ => ?_⟩
        rw [List.take_length]
        rfl
      | succ k =>
        refine earlier k fun x _ => ?_
        rw [State.rolledBack, racing, if_pos rfl, List.singleton_append, List.take_succ_cons, byteBefore, List.foldl_cons,
          undo_hostStore]
        rfl

/-- A read returns memory's bytes with some number of the stores that race with it rolled back. -/
theorem readElement_eq_rolledBack (s : State) (c : Nat) (b : Word) (n : Nat) :
    ∃ k, s.readElement c b n = (elementAddrs b n).map (s.rolledBack c b n k) := by
  cases hr : s.racing c b n with
  | nil =>
    refine ⟨0, (readElement_calm hr).trans (List.map_congr_left fun x _ => ?_)⟩
    rw [State.rolledBack, List.take_zero]
    rfl
  | cons x xs =>
    refine ⟨Config.freeNat s.draws % (xs.length + 2), ?_⟩
    simp only [State.readElement, hr]
    exact List.map_congr_left fun z _ => by rw [State.rolledBack, hr]

end

/-- Settles O14: rolling back racing stores, from the newest, leads to a memory that stood after some of them; after one
store that is the memory before it or after it. -/
theorem racingReadIsOldOrNew : Obligations.RacingReadIsOldOrNew := by
  intro s c r a h hen hc
  have some_moment : ∀ (stores : List (Word × List Byte)) (n : Nat), ∃ i, i ≤ stores.length
      ∧ (hostStores stores s).readElement c a n = (hostStores (stores.take i) s).mem.readBytes a n := by
    intro stores n
    obtain ⟨k, hk⟩ := readElement_eq_rolledBack (hostStores stores s) c a n
    obtain ⟨i, hi, hx⟩ := rolledBack_hostStores h hen hc a n stores k
    exact ⟨i, hi, hk.trans (List.map_congr_left hx)⟩
  refine ⟨fun bs hwf hl => ?_, some_moment⟩
  obtain ⟨i, hi, hread⟩ := some_moment [(a, bs)] bs.length
  match i, hi with
  | 0, _ => exact .inr hread
  | 1, _ =>
    refine .inl (hread.trans (List.ext_getElem (readBytes_length _ a _) fun j h₁ h₂ => ?_))
    rw [← List.getD_eq_getElem _ 0 h₁, getD_readBytes _ a h₂]
    exact read_writeBytes_at hwf a bs (hl.trans (by decide)) j h₂

end Sys2Proof.Machine
end

section
/-! PROOF. The derived descriptor of the channel-multiplex layout (spec/43_descriptor_derivation.md R194). -/

namespace Sys2Proof.Machine

/-- A multiple of an element size stays one in 32 bits, also when it is negative. -/
theorem ElemSize.dvd_toNat_ofInt (e : ElemSize) {z : Int} (h : (e.bytes : Int) ∣ z) :
    e.bytes ∣ (BitVec.ofInt 32 z).toNat := by
  have wraps : (e.bytes : Int) ∣ ((2 ^ 32 : Nat) : Int) := Int.natCast_dvd_natCast.mpr (ElemSize.bytes_dvd e)
  rw [BitVec.toNat_ofInt, ← Int.natCast_dvd_natCast, Int.toNat_of_nonneg (Int.emod_nonneg _ (by decide))]
  exact (EuclideanDomain.dvd_mod_iff wraps).mpr h

/-- Words are equal whose numbers agree modulo 2^32. -/
theorem ofNat_eq_ofInt {n : Nat} {z : Int} (h : (n : Int) ≡ z [ZMOD 2 ^ 32]) : BitVec.ofNat 32 n = BitVec.ofInt 32 z := by
  apply BitVec.eq_of_toNat_eq
  rw [BitVec.toNat_ofNat, BitVec.toNat_ofInt]
  simp only [Int.ModEq] at h
  omega

/-- What the premises on a layout say of its numbers: every product of them fits 32 bits. -/
structure Layout.Fits (y : Layout) : Prop where
  count : 1 ≤ y.count
  words : 1 ≤ y.words
  pitch : y.size.bytes ∣ y.pitch
  buffer : y.words * y.size.bytes ≤ y.pitch
  space : y.count * y.pitch < 2 ^ 32

namespace Layout.Fits
variable {y : Layout} (h : y.Fits) (last : Bool)
include h

theorem pitch_lt : y.pitch < 2 ^ 32 := (Nat.le_mul_of_pos_left _ h.count).trans_lt h.space

theorem toNat_soff : (deriveDescriptor last y).soff.toNat = y.pitch := by
  rw [deriveDescriptor, BitVec.toNat_ofNat, Nat.mod_eq_of_lt h.pitch_lt]

theorem toNat_biter : (deriveDescriptor last y).biter.toNat = y.words := by
  have : y.words ≤ y.words * y.size.bytes := Nat.le_mul_of_pos_right _ (ElemSize.bytes_pos _)
  rw [deriveDescriptor, BitVec.toNat_ofNat, Nat.mod_eq_of_lt ((this.trans h.buffer).trans_lt h.pitch_lt)]

theorem toNat_nbytes : (deriveDescriptor last y).nbytes.toNat = y.count * y.size.bytes := by
  have element : y.size.bytes ≤ y.pitch := (Nat.le_mul_of_pos_left _ h.words).trans h.buffer
  rw [deriveDescriptor, BitVec.toNat_ofNat, Nat.mod_eq_of_lt ((Nat.mul_le_mul_left _ element).trans_lt h.space)]

theorem toNat_bufbytes : (deriveDescriptor last y).bufbytes.toNat = y.count * y.words * y.size.bytes := by
  rw [deriveDescriptor, BitVec.toNat_ofNat, Nat.mod_eq_of_lt]
  rw [Nat.mul_assoc]
  exact (Nat.mul_le_mul_left _ h.buffer).trans_lt h.space

/-- `ns` is the number of buffers. -/
theorem reads_eq : (deriveDescriptor last y).reads = y.count := by
  rw [Descriptor.reads, h.toNat_nbytes]
  exact Nat.mul_div_cancel _ (ElemSize.bytes_pos _)

theorem checked (hbase : y.size.bytes ∣ y.base.toNat) (hfifo : y.size.bytes ∣ y.fifo.toNat) :
    (deriveDescriptor last y).Checked := by
  have nbytes : y.size.bytes ∣ (deriveDescriptor last y).nbytes.toNat := h.toNat_nbytes last ▸ Nat.dvd_mul_left _ _
  have size : (y.size.bytes : Int) ∣ y.size.bytes := dvd_refl _
  have pitch : (y.size.bytes : Int) ∣ y.pitch := Int.natCast_dvd_natCast.mpr h.pitch
  refine ⟨fun h0 => ?_, fun h0 => ?_, nbytes, nbytes, h.toNat_soff last ▸ h.pitch, dvd_zero _, ?_, fun _ => ?_, hbase,
    hfifo⟩
  · have := h.toNat_nbytes last
    have pos : 0 < y.count * y.size.bytes := Nat.mul_pos h.count (ElemSize.bytes_pos _)
    rw [h0] at this
    exact absurd this.symm pos.ne'
  · have := h.toNat_biter last
    rw [h0] at this
    exact absurd this.symm (Nat.pos_of_ne_zero (Nat.one_le_iff_ne_zero.mp h.words)).ne'
  · cases last
    · exact ElemSize.dvd_toNat_ofInt _ (dvd_neg.mpr ((pitch.mul_left _).add (size.mul_left _)))
    · exact ElemSize.dvd_toNat_ofInt _ (dvd_neg.mpr (size.mul_left _))
  · exact ElemSize.dvd_toNat_ofInt _ (size.sub (pitch.mul_left _))

/-- The displacement of a major loop: the columns of one buffer, and before the last offset those of all (R190, R194). -/
theorem slast_eq : (deriveDescriptor last y).slast = (deriveDescriptor last y).restoreAdjust last := by
  have offset : ((deriveDescriptor last y).mloff.toNat : Int) ≡ y.size.bytes - y.count * y.pitch [ZMOD 2 ^ 32] := by
    rw [deriveDescriptor, BitVec.toNat_ofInt, Int.toNat_of_nonneg (Int.emod_nonneg _ (by decide))]
    exact Int.mod_modEq _ _
  have moves : ((y.words * y.count * y.pitch : Nat) : Int) ≡ y.words * y.count * y.pitch [ZMOD 2 ^ 32] := by
    push_cast
    exact Int.ModEq.refl _
  rw [Descriptor.restoreAdjust, Descriptor.netDisplacement, h.toNat_biter, h.reads_eq, h.toNat_soff]
  cases last with
  | true =>
    have net := moves.add (offset.mul_left y.words)
    have count : (deriveDescriptor true y).offsetCount true = y.words := h.toNat_biter true
    rw [count, ofNat_eq_ofInt (z := y.words * y.size.bytes), ← BitVec.ofInt_neg]
    · rfl
    · push_cast
      exact net.trans (by ring_nf; rfl)
  | false =>
    have net := moves.add (offset.mul_left (y.words - 1))
    have count : (deriveDescriptor false y).offsetCount false = y.words - 1 := congrArg (· - 1) (h.toNat_biter false)
    rw [count, ofNat_eq_ofInt (z := y.count * y.pitch + (y.words - 1) * y.size.bytes), ← BitVec.ofInt_neg]
    · rfl
    · push_cast [h.words]
      exact net.trans (by ring_nf; rfl)

end Layout.Fits

/-- Settles O41: every number of the layout fits 32 bits, so the table of R194 is the round-trip law's adjustment. -/
theorem multiplexLayoutRestores : Obligations.MultiplexLayoutRestores := by
  intro y last count words pitch buffer space hbase hfifo
  have h : y.Fits := ⟨count, words, pitch, buffer, space⟩
  refine ⟨h.checked last hbase hfifo, ?_, h.slast_eq last, h.reads_eq last, fun m _ => ?_⟩
  · rw [h.toNat_nbytes, h.toNat_biter, h.toNat_bufbytes, Nat.mul_right_comm]
  · rw [Descriptor.srcAt, h.toNat_soff]
    rfl

end Sys2Proof.Machine
end

section
/-! SUPPORT. The events of a SERVICE step, whatever its descriptor, what races, falls inside it or fails: what each leaves
for the reads after it, and where the accesses of the host fall (spec/20_memory.md R69, R72, R73). -/

namespace Sys2Proof.Machine

/-- How many of the events are element accesses. -/
abbrev accessCount (es : List Event) : Nat := (es.filter Event.isAccess).length

/-- How many of the events are accesses of the host. -/
abbrev hostCount (es : List Event) : Nat := (es.filter Event.isHost).length

/-! Kinds of events. -/

theorem Event.isHost_of_isAccess {e : Event} (h : e.isAccess = true) : e.isHost = false := by
  cases e with
  | read | write => rfl
  | _ => cases h

theorem HostAccess.isHost_event (x : HostAccess) (m : Memory) : (x.event m).isHost = true := by cases x <;> rfl

/-- Nothing but an access of the host. -/
abbrev HostOnly (es : List Event) : Prop := ∀ e ∈ es, Event.isHost e = true

theorem hostOnly_singleton (x : HostAccess) (m : Memory) : HostOnly [x.event m] := fun _ he =>
  List.mem_singleton.mp he ▸ x.isHost_event m

section
variable {es : List Event} (h : HostOnly es)
include h

theorem HostOnly.filter_isAccess : es.filter Event.isAccess = [] :=
  List.filter_eq_nil_iff.mpr fun e he => by simp [Event.noAccess_of_isHost (h e he)]

theorem HostOnly.filter_isHost : es.filter Event.isHost = es := List.filter_eq_self.mpr h

theorem HostOnly.bytesWritten : es.flatMap Event.bytesWritten = [] := by
  refine List.flatMap_eq_nil_iff.mpr fun e he => ?_
  have host := h e he
  cases e with
  | write => cases host
  | _ => rfl

theorem HostOnly.bytesBrought (s : State) : bytesBrought es s = [] := by
  induction es generalizing s with
  | nil => rfl
  | cons e es ih =>
    rw [Machine.bytesBrought, ih fun x hx => h x (List.mem_cons_of_mem e hx), List.append_nil]
    have host := h e List.mem_cons_self
    cases e with
    | read => cases host
    | _ => rfl

theorem HostOnly.not_failed : ∀ e ∈ es, e.failed = false := by
  intro e he
  have host := h e he
  cases e with
  | read | write => cases host
  | _ => rfl

end

/-! What later reads find. -/

/-- Reads find the same in both states, and so they do after the same events. -/
structure SameSight (s t : State) : Prop where
  mem : t.mem = s.mem
  races : t.races = s.races
  draws : t.draws = s.draws
  chans : t.chans = s.chans

section
variable {s t : State}

theorem SameSight.refl (s : State) : SameSight s s := ⟨rfl, rfl, rfl, rfl⟩

theorem SameSight.trans {u : State} (h : SameSight s t) (h' : SameSight t u) : SameSight s u :=
  ⟨h'.mem.trans h.mem, h'.races.trans h.races, h'.draws.trans h.draws, h'.chans.trans h.chans⟩

theorem SameSight.racing (h : SameSight s t) (c : Nat) (a : Word) (n : Nat) : t.racing c a n = s.racing c a n := by
  rw [State.racing, State.racing, h.races]

theorem SameSight.readElement (h : SameSight s t) (c : Nat) (a : Word) (n : Nat) :
    t.readElement c a n = s.readElement c a n := by
  unfold State.readElement
  rw [h.racing, h.mem, h.draws]

theorem SameSight.applied (h : SameSight s t) (e : Event) : SameSight (e.applied s) (e.applied t) := by
  cases e with
  | read c i a n ok =>
    cases ok with
    | false => exact h
    | true =>
      refine ⟨h.mem, h.races, ?_, h.chans⟩
      simp only [Event.applied, State.drew_draws, State.readDraws, h.racing, h.draws]
  | write c i a n bs ok =>
    cases ok with
    | false => exact h
    | true =>
      refine ⟨?_, ?_, h.draws, h.chans⟩
      · simp only [Event.applied, State.engineStore_mem, h.mem]
      · simp only [Event.applied, State.engineStore_races, h.races]
  | hostStore a bs =>
    refine ⟨?_, ?_, h.draws, h.chans⟩
    · simp only [Event.applied, State.hostStore_mem, h.mem]
    · simp only [Event.applied, State.hostStore, h.races, h.chans, h.mem]
  | _ => exact h

/-- An access of the host leaves what its event says. -/
theorem SameSight.hostAccess (s : State) (x : HostAccess) : SameSight ((x.event s.mem).applied s) (s.hostAccess x) := by
  cases x with
  | store a bs => exact .refl _
  | load a n => exact ⟨rfl, rfl, rfl, rfl⟩

theorem mem_applied (e : Event) (s : State) : (e.applied s).mem = e.after s.mem := by
  cases e with
  | read c i a n ok => cases ok <;> rfl
  | write c i a n bs ok => cases ok <;> rfl
  | _ => rfl

theorem mem_foldl_applied (es : List Event) (s : State) :
    (es.foldl (fun t e => e.applied t) s).mem = replay es s.mem := by
  induction es generalizing s with
  | nil => rfl
  | cons e es ih => rw [List.foldl_cons, ih, mem_applied, replay]

end

/-- The events `es` lead from `s` to `t`, as far as memory, its reads, the history and the count of accesses go, and no
register, input or answer changes. -/
structure State.Runs (s : State) (es : List Event) (t : State) : Prop where
  history : t.history = s.history ++ es
  same : SameButMemory s t
  accesses : t.accesses = s.accesses + accessCount es
  kinds : ∀ e ∈ es, e.isAccess = true ∨ e.isHost = true
  sees : SameSight (es.foldl (fun u e => e.applied u) s) t

section
variable {s t : State} {es : List Event}

theorem State.Runs.refl (s : State) : s.Runs [] s :=
  ⟨(List.append_nil _).symm, .refl s, rfl, by simp, .refl s⟩

theorem State.Runs.mem (h : s.Runs es t) : t.mem = replay es s.mem := h.sees.mem.trans (mem_foldl_applied es s)

/-- Which host accesses wait makes no difference. -/
theorem State.Runs.withInside (h : s.Runs es t) (xs : List InsideAccess) : s.Runs es { t with inside := xs } :=
  ⟨h.history, ⟨h.same.chans, h.same.cfg, h.same.inputs, h.same.rx, h.same.portOut, h.same.irqs⟩, h.accesses, h.kinds,
    ⟨h.sees.mem, h.sees.races, h.sees.draws, h.sees.chans⟩⟩

/-- One more event, of an element access or of the host. -/
theorem State.Runs.snoc (h : s.Runs es t) {u : State} {e : Event} (history : u.history = t.history ++ [e])
    (same : SameButMemory t u) (accesses : u.accesses = t.accesses + accessCount [e])
    (kind : e.isAccess = true ∨ e.isHost = true) (sees : SameSight (e.applied t) u) : s.Runs (es ++ [e]) u where
  history := by rw [history, h.history, List.append_assoc]
  same := ⟨same.chans.trans h.same.chans, same.cfg.trans h.same.cfg, same.inputs.trans h.same.inputs,
    same.rx.trans h.same.rx, same.portOut.trans h.same.portOut, same.irqs.trans h.same.irqs⟩
  accesses := by rw [accesses, h.accesses, Nat.add_assoc, accessCount, accessCount, accessCount, List.filter_append,
    List.length_append]
  kinds x hx := (List.mem_append.mp hx).elim (h.kinds x) fun hx => List.mem_singleton.mp hx ▸ kind
  sees := by
    rw [List.foldl_append]
    exact (h.sees.applied e).trans sees

theorem State.Runs.hostAccess (h : s.Runs es t) (x : HostAccess) : s.Runs (es ++ [x.event t.mem]) (t.hostAccess x) := by
  have host := x.isHost_event t.mem
  refine h.snoc (hostAccess_event t x).1 ?_ ?_ (.inr host) (.hostAccess t x)
  · exact ⟨by simp, by simp, by simp, by simp, by simp, by simp⟩
  · rw [State.hostAccess_accesses, accessCount, (hostOnly_singleton x t.mem).filter_isAccess]
    rfl

end

/-! The accesses of the host that take effect, one after the other. -/

/-- The host accesses of a list take effect in order. -/
def State.landAll (s : State) (xs : List InsideAccess) : State := xs.foldl (fun t x => t.hostAccess x.access) s

/-- The events that they are when memory holds `m` before them. -/
def hostEvents : List InsideAccess → Memory → List Event
  | [], _ => []
  | x :: xs, m => x.access.event m :: hostEvents xs ((x.access.event m).after m)

theorem landInside_eq (due : InsideAccess → Bool) (xs : List InsideAccess) (s : State) :
    landInside due xs s = { s.landAll (xs.takeWhile due) with inside := xs.dropWhile due } := by
  induction xs generalizing s with
  | nil => rfl
  | cons x xs ih =>
    rw [landInside]
    by_cases hx : due x = true
    · rw [if_pos hx, ih, List.takeWhile_cons_of_pos hx, List.dropWhile_cons_of_pos hx]
      rfl
    · rw [if_neg hx, List.takeWhile_cons_of_neg hx, List.dropWhile_cons_of_neg hx]
      rfl

/-- Before access `m` those take effect that stand in front of the first that is not due. -/
theorem hostBefore_eq (s : State) (m : Nat) : ∃ ys zs, s.inside = ys ++ zs ∧ (∀ y ∈ ys, y.after ≤ m)
    ∧ (∀ z, zs[0]? = some z → m < z.after) ∧ s.hostBefore m = { s.landAll ys with inside := zs } := by
  refine ⟨_, _, List.takeWhile_append_dropWhile.symm, fun y hy => ?_, fun z hz => ?_, landInside_eq _ s.inside s⟩
  · exact of_decide_eq_true (List.mem_takeWhile_imp (p := fun x : InsideAccess => decide (x.after ≤ m)) hy)
  · have notDue := List.head?_dropWhile_not (fun x : InsideAccess => decide (x.after ≤ m)) s.inside
    rw [List.head?_eq_getElem?, hz] at notDue
    exact Nat.lt_of_not_le (of_decide_eq_false notDue)

/-- After the last access all that still wait take effect. -/
theorem hostRest_eq (s : State) : s.hostRest = { s.landAll s.inside with inside := [] } := by
  rw [State.hostRest, landInside_eq, List.takeWhile_eq_self_iff.mpr fun _ _ => rfl,
    List.dropWhile_eq_nil_iff.mpr fun _ _ => rfl]

theorem hostEvents_hostOnly (xs : List InsideAccess) (m : Memory) : HostOnly (hostEvents xs m) := by
  induction xs generalizing m with
  | nil => exact fun _ he => nomatch he
  | cons x xs ih =>
    intro e he
    rcases List.mem_cons.mp he with rfl | he
    · exact x.access.isHost_event m
    · exact ih _ e he

theorem length_hostEvents (xs : List InsideAccess) (m : Memory) : (hostEvents xs m).length = xs.length := by
  induction xs generalizing m with
  | nil => rfl
  | cons x xs ih => exact congrArg (· + 1) (ih _)

theorem landAll_records (xs : List InsideAccess) (s : State) :
    (s.landAll xs).history = s.history ++ hostEvents xs s.mem
      ∧ (s.landAll xs).mem = replay (hostEvents xs s.mem) s.mem := by
  induction xs generalizing s with
  | nil => exact ⟨(List.append_nil _).symm, rfl⟩
  | cons x xs ih =>
    obtain ⟨history, mem⟩ := ih (s.hostAccess x.access)
    obtain ⟨event, after⟩ := hostAccess_event s x.access
    rw [event, after] at history
    rw [after] at mem
    exact ⟨by rw [State.landAll, List.foldl_cons, ← State.landAll, history, hostEvents, List.append_assoc]; rfl, mem⟩

theorem State.Runs.landAll {s t : State} {es : List Event} (h : s.Runs es t) (xs : List InsideAccess) :
    s.Runs (es ++ hostEvents xs t.mem) (t.landAll xs) := by
  induction xs generalizing es t with
  | nil => rwa [hostEvents, List.append_nil]
  | cons x xs ih =>
    have next := ih (h.hostAccess x.access)
    rwa [(hostAccess_event t x.access).2, List.append_assoc] at next

/-! Where each of them falls. -/

/-- No earlier access of the list makes access `i` wait. -/
abbrev NotDelayed (xs : List InsideAccess) (i : Nat) (x : InsideAccess) : Prop :=
  ∀ j y, j < i → xs[j]? = some y → y.after ≤ x.after

/-- Of the host accesses that waited in `s`, as many as the events show took effect, each as the event it was at its point
of the order; the number of element accesses before one that nothing made wait is as `Q` says. -/
def State.Landed (s : State) (Q : InsideAccess → Nat → Prop) (es : List Event) : Prop :=
  ∀ i x, s.inside[i]? = some x → i < hostCount es →
    ∃ before later, es = before ++ x.access.event (replay before s.mem) :: later ∧ hostCount before = i
      ∧ (NotDelayed s.inside i x → Q x (accessCount before))

section
variable {s : State} {Q Q' : InsideAccess → Nat → Prop} {es fs : List Event}

theorem State.Landed.nil (s : State) : s.Landed Q [] := fun _ _ _ h => nomatch h

/-- Later events that are no host accesses leave the earlier ones where they are. -/
theorem State.Landed.append (h : s.Landed Q es) (hf : fs.filter Event.isHost = []) : s.Landed Q (es ++ fs) := by
  intro i x hx hi
  rw [hostCount, List.filter_append, hf, List.append_nil] at hi
  obtain ⟨before, later, rfl, place⟩ := h i x hx hi
  exact ⟨before, later ++ fs, by simp, place⟩

theorem State.Landed.mono (h : s.Landed Q es) (hq : ∀ x before, before <+: es → Q x (accessCount before) →
    Q' x (accessCount before)) : s.Landed Q' es := by
  intro i x hx hi
  obtain ⟨before, later, hes, hb, place⟩ := h i x hx hi
  exact ⟨before, later, hes, hb, fun hn => hq x before ⟨_, hes.symm⟩ (place hn)⟩

/-- The next host accesses take effect where the events have led. -/
theorem State.Landed.hostEvents (h : s.Landed Q es) {ys zs : List InsideAccess}
    (waits : s.inside.drop (hostCount es) = ys ++ zs)
    (hq : ∀ i x, s.inside[i]? = some x → x ∈ ys → hostCount es ≤ i → NotDelayed s.inside i x → Q x (accessCount es)) :
    s.Landed Q (es ++ Machine.hostEvents ys (replay es s.mem)) := by
  induction ys generalizing es with
  | nil => rwa [Machine.hostEvents, List.append_nil]
  | cons y ys ih =>
    have host := hostOnly_singleton y.access (replay es s.mem)
    have first : s.inside[hostCount es]? = some y := by
      rw [← Nat.add_zero (hostCount es), ← List.getElem?_drop, waits]
      rfl
    have more : hostCount (es ++ [y.access.event (replay es s.mem)]) = hostCount es + 1 := by
      rw [hostCount, List.filter_append, host.filter_isHost, List.length_append]
      rfl
    have landed : s.Landed Q (es ++ [y.access.event (replay es s.mem)]) := by
      intro i x hx hi
      rw [more] at hi
      rcases Nat.lt_succ_iff_lt_or_eq.mp hi with hi | rfl
      · obtain ⟨before, later, hes, place⟩ := h i x hx hi
        exact ⟨before, later ++ [y.access.event (replay es s.mem)], by rw [hes]; simp, place⟩
      · obtain rfl : y = x := Option.some.inj (first.symm.trans hx)
        exact ⟨es, [], rfl, rfl, hq _ y hx List.mem_cons_self (le_refl _)⟩
    have next := ih landed (by rw [more, ← List.drop_drop, waits]; rfl) fun i x hx hy hi hn => by
      rw [accessCount, List.filter_append, host.filter_isAccess, List.append_nil]
      exact hq i x hx (List.mem_cons_of_mem y hy) (by omega) hn
    rwa [List.append_assoc, replay_append] at next

end

/-- During the iteration: the host accesses that the events do not show wait still, those that took effect did so after as
many element accesses as they name if nothing made them wait, and of those that wait none is due before access `m`. -/
structure State.Interleaves (s : State) (es : List Event) (m : Nat) (t : State) : Prop where
  few : hostCount es ≤ s.inside.length
  inside : t.inside = s.inside.drop (hostCount es)
  landed : s.Landed (fun x n => n = x.after) es
  waiting : ∀ i x, s.inside[i]? = some x → hostCount es ≤ i → NotDelayed s.inside i x → m ≤ x.after

section
variable {s t : State} {es : List Event} {m : Nat}

theorem State.Interleaves.start (s : State) : s.Interleaves [] 0 s :=
  ⟨Nat.zero_le _, rfl, .nil s, fun _ _ _ _ _ => Nat.zero_le _⟩

/-- An element access is no access of the host. -/
theorem State.Interleaves.access (h : s.Interleaves es m t) {u : State} {e : Event} (he : e.isAccess = true)
    (hu : u.inside = t.inside) : s.Interleaves (es ++ [e]) m u := by
  have none : [e].filter Event.isHost = [] := by simp [Event.isHost_of_isAccess he]
  have same : hostCount (es ++ [e]) = hostCount es := by rw [hostCount, List.filter_append, none, List.append_nil]
  exact ⟨by rw [same]; exact h.few, by rw [hu, h.inside, same], h.landed.append none, by rw [same]; exact h.waiting⟩

/-- Before element access `m` the host accesses that are due take effect, up to the first that is not. -/
theorem State.Interleaves.hostBefore (h : s.Interleaves es m t) (runs : s.Runs es t) (count : accessCount es = m) :
    ∃ hs, HostOnly hs ∧ s.Runs (es ++ hs) (t.hostBefore m) ∧ s.Interleaves (es ++ hs) (m + 1) (t.hostBefore m) := by
  obtain ⟨ys, zs, split, due, notDue, hland⟩ := hostBefore_eq t m
  have waits : s.inside.drop (hostCount es) = ys ++ zs := h.inside ▸ split
  have only := hostEvents_hostOnly ys t.mem
  have number : hostCount (es ++ hostEvents ys t.mem) = hostCount es + ys.length := by
    rw [hostCount, List.filter_append, only.filter_isHost, List.length_append, length_hostEvents]
  have later : s.inside.drop (hostCount es + ys.length) = zs := by rw [← List.drop_drop, waits, List.drop_left]
  have remaining : ∀ k, zs[k]? = s.inside[hostCount es + ys.length + k]? := fun k => by rw [← later, List.getElem?_drop]
  rw [hland]
  refine ⟨hostEvents ys t.mem, only, (runs.landAll ys).withInside zs, ?_, by rw [number, later], ?_, fun i x hx hi hn => ?_⟩
  · have length := congrArg List.length waits
    rw [List.length_drop, List.length_append] at length
    have few := h.few
    omega
  · rw [runs.mem]
    refine h.landed.hostEvents waits fun i x hx hy hi hn => ?_
    exact count.trans (le_antisymm (h.waiting i x hx hi hn) (due x hy))
  · rw [number] at hi
    obtain ⟨k, rfl⟩ := Nat.exists_eq_add_of_le hi
    cases k with
    | zero => exact notDue x ((remaining 0).trans hx)
    | succ k =>
      have bound : k + 1 < zs.length := (List.getElem?_eq_some_iff.mp ((remaining (k + 1)).trans hx)).1
      have first : zs[0]? = some zs[0] := List.getElem?_eq_getElem (by omega)
      exact Nat.lt_of_lt_of_le (notDue _ first) (hn _ _ (by omega) ((remaining 0).symm.trans first))

end
end Sys2Proof.Machine
end

section
/-! SUPPORT. How far an iteration has come, whether or not its accesses fail: each access belongs at its place, and the
bytes of the writes are the first that the reads brought (spec/42_transfer_engine.md R162, R164 to R168, R175). -/

namespace Sys2Proof.Machine

/-- The event is the read or the write that belongs at place `i` of the iteration that starts in `s` (R165 to R167), and it
fails exactly when the platform says so at its time (R10). -/
def Descriptor.Belongs (d : Descriptor) (c : Nat) (s : State) (i : Nat) (e : Event) : Prop :=
  (∃ j, i = d.readIndex j
      ∧ e = .read c i (d.srcAt j) d.ssize.bytes (!faultAt s.cfg (s.accesses + i) (d.srcAt j) d.ssize.bytes .read))
    ∨ ∃ k bs, k < d.writes ∧ i = d.writeIndex k ∧ bs.length = d.dsize.bytes
      ∧ e = .write c i (d.dstAt k) d.dsize.bytes bs
          (!faultAt s.cfg (s.accesses + i) (d.dstAt k) d.dsize.bytes .write)

/-- Every element access among the events belongs at its place. -/
def Descriptor.Placed (d : Descriptor) (c : Nat) (s : State) (es : List Event) : Prop :=
  ∀ i e, (es.filter Event.isAccess)[i]? = some e → d.Belongs c s i e

section
variable {c i : Nat} {d : Descriptor} {s : State} {es hs : List Event} {e : Event}

theorem Descriptor.Placed.hosts (h : d.Placed c s es) (hh : HostOnly hs) : d.Placed c s (es ++ hs) := by
  rwa [Placed, List.filter_append, hh.filter_isAccess, List.append_nil]

theorem Descriptor.Placed.access (h : d.Placed c s es) (he : e.isAccess = true) (hb : d.Belongs c s (accessCount es) e) :
    d.Placed c s (es ++ [e]) := by
  intro i x hx
  have one : [e].filter Event.isAccess = [e] := by simp [he]
  rw [List.filter_append, one] at hx
  rcases Nat.lt_trichotomy i (accessCount es) with hi | rfl | hi
  · rw [List.getElem?_append_left hi] at hx
    exact h i x hx
  · rw [List.getElem?_concat_length] at hx
    exact Option.some.inj hx ▸ hb
  · rw [List.getElem?_append_right hi.le, List.getElem?_eq_none (Nat.sub_pos_of_lt hi)] at hx
    cases hx

end

/-- The registers the iteration carries after `j` reads and `k` writes. -/
structure Transfer.At (d : Descriptor) (j k : Nat) (x : Transfer) : Prop where
  src : x.src = d.srcAt j
  dst : x.dst = d.dstAt k
  idx : x.idx = j + k
  queue : k * d.dsize.bytes + x.queue.length = j * d.ssize.bytes
  /-- a read is made only while the queue does not hold the bytes of the next write (R165) -/
  ahead : j * d.ssize.bytes < (k + 1) * d.dsize.bytes + d.ssize.bytes
  within : d.Checked → j * d.ssize.bytes ≤ d.nbytes.toNat

/-- What `j` reads and `k` writes that went through have left in the events, `q` being the byte queue. -/
structure Descriptor.Log (d : Descriptor) (c : Nat) (s : State) (j k : Nat) (q : List Byte) (es : List Event) : Prop where
  count : accessCount es = j + k
  placed : d.Placed c s es
  through : ∀ e ∈ es, e.failed = false
  bytes : es.flatMap Event.bytesWritten ++ q = bytesBrought es s
  brought : (bytesBrought es s).length = j * d.ssize.bytes

/-- What an iteration that failed has left in the events: the failing access is the last of the engine's. -/
structure Descriptor.FailedLog (d : Descriptor) (c : Nat) (s : State) (es : List Event) : Prop where
  placed : d.Placed c s es
  last : ∃ done e, es.filter Event.isAccess = done ++ [e] ∧ e.failed = true ∧ ∀ x ∈ done, x.failed = false
  bytes : es.flatMap Event.bytesWritten <+: bytesBrought es s
  bound : d.Checked → accessCount es ≤ d.reads + d.writes

section
variable {c j k : Nat} {d : Descriptor} {s : State} {q : List Byte} {es hs : List Event} {e : Event}

theorem accessCount_hosts (hh : HostOnly hs) : accessCount (es ++ hs) = accessCount es := by
  rw [accessCount, List.filter_append, hh.filter_isAccess, List.append_nil]

theorem accessCount_access (he : e.isAccess = true) : accessCount (es ++ [e]) = accessCount es + 1 := by
  simp [accessCount, he]

theorem bytesBrought_hosts (hh : HostOnly hs) : bytesBrought (es ++ hs) s = bytesBrought es s := by
  rw [bytesBrought_append, hh.bytesBrought, List.append_nil]

theorem bytesWritten_hosts (hh : HostOnly hs) :
    (es ++ hs).flatMap Event.bytesWritten = es.flatMap Event.bytesWritten := by
  rw [List.flatMap_append, hh.bytesWritten, List.append_nil]

theorem Descriptor.Log.hosts (h : d.Log c s j k q es) (hh : HostOnly hs) : d.Log c s j k q (es ++ hs) where
  count := (accessCount_hosts hh).trans h.count
  placed := h.placed.hosts hh
  through e he := (List.mem_append.mp he).elim (h.through e) (hh.not_failed e)
  bytes := by rw [bytesBrought_hosts hh, bytesWritten_hosts hh, h.bytes]
  brought := by rw [bytesBrought_hosts hh, h.brought]

theorem Descriptor.FailedLog.hosts (h : d.FailedLog c s es) (hh : HostOnly hs) : d.FailedLog c s (es ++ hs) where
  placed := h.placed.hosts hh
  last := by
    rw [List.filter_append, hh.filter_isAccess, List.append_nil]
    exact h.last
  bytes := by rw [bytesBrought_hosts hh, bytesWritten_hosts hh]; exact h.bytes
  bound hd := (accessCount_hosts hh).trans_le (h.bound hd)

/-- One more access fails: it brings nothing, and what it was to write are the first bytes of the queue. -/
theorem Descriptor.Log.fail (h : d.Log c s j k q es) (he : e.isAccess = true) (hf : e.failed = true)
    (hb : d.Belongs c s (j + k) e) (hq : e.bytesWritten <+: q) (bound : d.Checked → j + k + 1 ≤ d.reads + d.writes) :
    d.FailedLog c s (es ++ [e]) where
  placed := h.placed.access he (h.count ▸ hb)
  last := ⟨es.filter Event.isAccess, e, by simp [he], hf, fun x hx => h.through x (List.mem_filter.mp hx).1⟩
  bytes := by
    have nothing : ∀ u, bytesBrought [e] u = [] := fun u => by
      cases e with
      | read c i a n ok => cases ok <;> [rfl; cases hf]
      | _ => rfl
    rw [bytesBrought_append, nothing, List.append_nil, ← h.bytes, List.flatMap_append]
    exact List.prefix_append_right_inj _ |>.mpr (by simpa using hq)
  bound hd := by rw [accessCount_access he, h.count]; exact bound hd

end

/-- The iteration that began in `s` stands at `x` after the events `es`: `j` reads and `k` writes went through. -/
structure Transfer.Sofar (c : Nat) (d : Descriptor) (s : State) (j k : Nat) (es : List Event) (x : Transfer) : Prop where
  runs : s.Runs es x.s
  hosts : s.Interleaves es (j + k) x.s
  stands : x.At d j k
  log : d.Log c s j k x.queue es

/-- The iteration that began in `s` failed with an access, and left `t` after the events `es`. -/
structure State.Broken (c : Nat) (d : Descriptor) (s : State) (es : List Event) (t : State) : Prop where
  runs : s.Runs es t
  hosts : s.Interleaves es (accessCount es) t
  log : d.FailedLog c s es

section
variable {c j k : Nat} {d : Descriptor} {s : State} {es : List Event} {x : Transfer}

theorem Transfer.Sofar.start (c : Nat) (d : Descriptor) (s : State) :
    Transfer.Sofar c d s 0 0 [] { s := s, src := d.saddr, dst := d.daddr, queue := [], idx := 0 } where
  runs := .refl s
  hosts := .start s
  stands := ⟨d.srcAt_zero.symm, d.dstAt_zero.symm, rfl, by simp, by have := ElemSize.bytes_pos d.ssize; omega, by simp⟩
  log := ⟨rfl, fun _ _ h => by simp at h, by simp, rfl, by simp [bytesBrought]⟩

/-- Before its next access the iteration stands where it stood, and the host accesses that are due have taken effect. -/
theorem Transfer.Sofar.hostBefore (h : x.Sofar c d s j k es) :
    ∃ es', s.Runs es' (x.s.hostBefore x.idx) ∧ s.Interleaves es' (j + k + 1) (x.s.hostBefore x.idx)
      ∧ d.Log c s j k x.queue es' := by
  obtain ⟨hs, only, runs, hosts⟩ := h.hosts.hostBefore h.runs h.log.count
  rw [h.stands.idx]
  exact ⟨es ++ hs, runs, hosts, h.log.hosts only⟩

/-- The fault predicate is asked at the time that the place of the access says. -/
theorem Transfer.Sofar.accessFault (h : x.Sofar c d s j k es) (a : Word) (n : Nat) (kind : AccessKind) :
    x.s.accessFault a n kind = faultAt s.cfg (s.accesses + (j + k)) a n kind := by
  rw [State.accessFault, h.runs.same.cfg, h.runs.accesses, h.log.count]

/-- While the queue is short, the next read belongs where it is made. -/
theorem Transfer.At.read_place (h : x.At d j k) (hq : x.queue.length < d.dsize.bytes) :
    j * d.ssize.bytes < (k + 1) * d.dsize.bytes ∧ d.readIndex j = j + k := by
  have queue := h.queue
  have short : j * d.ssize.bytes < (k + 1) * d.dsize.bytes := by rw [Nat.succ_mul]; omega
  exact ⟨short, Descriptor.readIndex_eq_add (by omega) short⟩

/-- While the queue is full, the next write belongs where it is made. -/
theorem Transfer.At.write_place (h : x.At d j k) (hq : d.dsize.bytes ≤ x.queue.length) : d.writeIndex k = j + k := by
  have queue := h.queue
  exact Descriptor.writeIndex_eq_add (by rw [Nat.succ_mul]; omega) h.ahead

/-- A read that a write still calls for is one of the `ns` reads. -/
theorem Transfer.At.read_lt (h : x.At d j k) (hd : d.Checked) (hk : k < d.writes) (hq : x.queue.length < d.dsize.bytes) :
    j < d.reads := by
  refine lt_of_mul_lt_mul_right ?_ (Nat.zero_le d.ssize.bytes)
  calc j * d.ssize.bytes < (k + 1) * d.dsize.bytes := (h.read_place hq).1
    _ ≤ d.writes * d.dsize.bytes := Nat.mul_le_mul_right _ hk
    _ = d.reads * d.ssize.bytes := by rw [hd.writes_mul, hd.reads_mul]

theorem Transfer.At.reads_le (h : x.At d j k) (hd : d.Checked) : j ≤ d.reads :=
  Nat.le_of_mul_le_mul_right (hd.reads_mul ▸ h.within hd) (ElemSize.bytes_pos d.ssize)

/-- When all writes are made, all reads are, and the queue is empty. -/
theorem Transfer.At.all_reads (h : x.At d j d.writes) (hd : d.Checked) : j = d.reads ∧ x.queue = [] := by
  have queue := h.queue
  have within := h.within hd
  rw [hd.writes_mul] at queue
  refine ⟨Nat.eq_of_mul_eq_mul_right (ElemSize.bytes_pos d.ssize) (by rw [hd.reads_mul]; omega), ?_⟩
  exact List.eq_nil_of_length_eq_zero (by omega)

/-- The next source read. -/
theorem readSource_sofar (h : x.Sofar c d s j k es) (hk : k < d.writes) (hq : x.queue.length < d.dsize.bytes) :
    (readSource c d x).Ends (fun y => ∃ es', y.Sofar c d s (j + 1) k es') fun t => ∃ es', s.Broken c d es' t := by
  obtain ⟨es', runs, hosts, log⟩ := h.hostBefore
  obtain ⟨short, place⟩ := h.stands.read_place hq
  obtain ⟨hsrc, hdst, hidx, queue, ahead, within⟩ := h.stands
  have belongs : d.Belongs c s (j + k)
      (.read c x.idx x.src d.ssize.bytes (!x.s.accessFault x.src d.ssize.bytes .read)) := by
    rw [h.accessFault, hidx, hsrc]
    exact .inl ⟨j, place.symm, rfl⟩
  rcases readSource_spec c d x with ⟨fault, e⟩ | ⟨fault, e⟩ <;> rw [e] <;> rw [fault] at belongs
  · have bound : d.Checked → j + k + 1 ≤ d.reads + d.writes := fun hd => by
      have := h.stands.read_lt hd hk hq
      omega
    have count := (accessCount_access (es := es') (e := .read c x.idx x.src d.ssize.bytes false) rfl).trans
      (congrArg (· + 1) log.count)
    refine ⟨es' ++ [_], runs.snoc rfl ⟨rfl, rfl, rfl, rfl, rfl, rfl⟩ rfl (.inl rfl) ⟨rfl, rfl, rfl, rfl⟩, ?_,
      log.fail rfl rfl belongs (List.nil_prefix) bound⟩
    rw [count]
    exact hosts.access rfl rfl
  · have bytes : bytesBrought (es' ++ [.read c x.idx x.src d.ssize.bytes true]) s
        = bytesBrought es' s ++ (x.s.hostBefore x.idx).readElement c x.src d.ssize.bytes := by
      rw [bytesBrought_append, runs.sees.readElement]
      exact congrArg _ (List.append_nil _)
    refine ⟨es' ++ [.read c x.idx x.src d.ssize.bytes true],
      runs.snoc rfl ⟨rfl, rfl, rfl, rfl, rfl, rfl⟩ rfl (.inl rfl) ⟨rfl, rfl, rfl, rfl⟩, ?_, ?_, ?_⟩
    · rw [Nat.add_right_comm]
      exact hosts.access rfl rfl
    · refine ⟨by rw [hsrc, d.srcAt_succ], hdst, by simp only [hidx]; omega, ?_, ?_, fun hd => ?_⟩
      · rw [List.length_append, readElement_length, Nat.succ_mul]
        omega
      · rw [Nat.succ_mul j]
        omega
      · exact hd.reads_mul ▸ Nat.mul_le_mul_right _ (h.stands.read_lt hd hk hq)
    · refine ⟨?_, log.placed.access rfl (log.count ▸ belongs), ?_, ?_, ?_⟩
      · rw [accessCount_access rfl, log.count]; omega
      · exact fun e he => (List.mem_append.mp he).elim (log.through e) fun he => List.mem_singleton.mp he ▸ rfl
      · rw [bytes, ← log.bytes, List.flatMap_append, List.append_assoc]
        simp [Event.bytesWritten]
      · rw [bytes, List.length_append, log.brought, readElement_length, Nat.succ_mul]

/-- The next destination write. -/
theorem writeDest_sofar (h : x.Sofar c d s j k es) (hk : k < d.writes) (hq : d.dsize.bytes ≤ x.queue.length) :
    (writeDest c d x).Ends (fun y => ∃ es', y.Sofar c d s j (k + 1) es') fun t => ∃ es', s.Broken c d es' t := by
  obtain ⟨es', runs, hosts, log⟩ := h.hostBefore
  have place := h.stands.write_place hq
  obtain ⟨hsrc, hdst, hidx, queue, ahead, within⟩ := h.stands
  have belongs : d.Belongs c s (j + k) (.write c x.idx x.dst d.dsize.bytes (x.queue.take d.dsize.bytes)
      (!x.s.accessFault x.dst d.dsize.bytes .write)) := by
    rw [h.accessFault, hidx, hdst]
    exact .inr ⟨k, _, hk, place.symm, List.length_take_of_le hq, rfl⟩
  rcases writeDest_spec c d x with ⟨fault, e⟩ | ⟨fault, e⟩ <;> rw [e] <;> rw [fault] at belongs
  · have bound : d.Checked → j + k + 1 ≤ d.reads + d.writes := fun hd => by
      have := h.stands.reads_le hd
      omega
    have count := (accessCount_access (es := es')
      (e := .write c x.idx x.dst d.dsize.bytes (x.queue.take d.dsize.bytes) false) rfl).trans
      (congrArg (· + 1) log.count)
    refine ⟨es' ++ [_], runs.snoc rfl ⟨rfl, rfl, rfl, rfl, rfl, rfl⟩ rfl (.inl rfl) ⟨rfl, rfl, rfl, rfl⟩, ?_,
      log.fail rfl rfl belongs (List.take_prefix _ _) bound⟩
    rw [count]
    exact hosts.access rfl rfl
  · refine ⟨es' ++ [.write c x.idx x.dst d.dsize.bytes (x.queue.take d.dsize.bytes) true],
      runs.snoc rfl ⟨rfl, rfl, rfl, rfl, rfl, rfl⟩ rfl (.inl rfl) ⟨rfl, rfl, rfl, rfl⟩, ?_, ?_, ?_⟩
    · exact hosts.access rfl rfl
    · refine ⟨hsrc, by rw [hdst, d.dstAt_succ], by simp only [hidx]; omega, ?_, ?_, within⟩
      · rw [List.length_drop, Nat.succ_mul]
        omega
      · rw [Nat.succ_mul (k + 1)]
        omega
    · have bytes : bytesBrought (es' ++ [.write c x.idx x.dst d.dsize.bytes (x.queue.take d.dsize.bytes) true]) s
          = bytesBrought es' s := by
        rw [bytesBrought_append]
        exact List.append_nil _
      refine ⟨?_, log.placed.access rfl (log.count ▸ belongs), ?_, ?_, bytes ▸ log.brought⟩
      · rw [accessCount_access rfl, log.count]; omega
      · exact fun e he => (List.mem_append.mp he).elim (log.through e) fun he => List.mem_singleton.mp he ▸ rfl
      · rw [bytes, ← log.bytes, List.flatMap_append, List.append_assoc]
        simp [Event.bytesWritten]

/-- The iteration went through with all its writes made, or it failed. -/
theorem moveMinorLoop_sofar (c : Nat) (d : Descriptor) (s : State) :
    (moveMinorLoop c d s).Ends (fun x => ∃ j es, x.Sofar c d s j d.writes es) fun t => ∃ es, s.Broken c d es t := by
  have ends : (moveMinorLoop c d s).Ends (fun x => ∃ j k es, k + 0 = d.writes ∧ x.Sofar c d s j k es)
      fun t => ∃ es, s.Broken c d es t := by
    refine moveElements_ends_counting (P := fun n x => ∃ j k es, k + n = d.writes ∧ x.Sofar c d s j k es)
      (fun n x hx hq => ?_) (fun n x hx hq => ?_) _ _ ⟨0, 0, [], Nat.zero_add _, .start c d s⟩
    · obtain ⟨j, k, es, hn, h⟩ := hx
      exact (readSource_sofar h (by omega) hq).mono (fun y ⟨es', hy⟩ => ⟨j + 1, k, es', hn, hy⟩) fun _ h => h
    · obtain ⟨j, k, es, hn, h⟩ := hx
      exact (writeDest_sofar h (by omega) hq).mono (fun y ⟨es', hy⟩ => ⟨j, k + 1, es', by omega, hy⟩) fun _ h => h
  refine ends.mono (fun x hx => ?_) fun _ h => h
  obtain ⟨j, k, es, rfl, h⟩ := hx
  exact ⟨j, es, h⟩

end
end Sys2Proof.Machine
end

section
/-! PROOF. The events of a whole SERVICE step: what it adds to the history and what memory is after it, where the accesses
of the host fall, and what a fault leaves (spec/42_transfer_engine.md R175; spec/60_exceptions.md R206; spec/20_memory.md
R69, R73). -/

namespace Sys2Proof.Machine

/-- The events `es` are all that a SERVICE step from `s` to `t` adds to the history, memory is what they make of it, and
every access of the host that waited fell where it belongs. -/
structure State.Serviced (s : State) (es : List Event) (t : State) : Prop where
  history : t.history = s.history ++ es
  mem : t.mem = replay es s.mem
  accesses : t.accesses = s.accesses + accessCount es
  kinds : ∀ e ∈ es, e.isAccess = true ∨ e.isHost = true
  hosts : hostCount es = s.inside.length
  landed : s.Landed (fun x n => n = min x.after (accessCount es)) es

theorem replay_ordering {es : List Event} (h : ∀ e ∈ es, e.Ordering) (m : Memory) : replay es m = m := by
  induction es generalizing m with
  | nil => rfl
  | cons e es ih =>
    have none : e.after m = m := by
      obtain ⟨access, host⟩ := h e List.mem_cons_self
      cases e with
      | write => cases access
      | hostStore => cases host
      | _ => rfl
    rw [replay, none, ih fun x hx => h x (List.mem_cons_of_mem e hx)]

section
variable {s t u : State} {es : List Event}

/-- After the last access of the iteration the host accesses that wait still take effect, whatever registers are written
before. -/
theorem State.Serviced.of_runs (runs : s.Runs es u) (hosts : s.Interleaves es (accessCount es) u)
    (history : t.history = u.history) (mem : t.mem = u.mem) (accesses : t.accesses = u.accesses)
    (inside : t.inside = u.inside) : ∃ hs, HostOnly hs ∧ s.Serviced (es ++ hs) t.hostRest := by
  have only := hostEvents_hostOnly t.inside t.mem
  obtain ⟨records, replayed⟩ := landAll_records t.inside t
  have waits : s.inside.drop (hostCount es) = t.inside := (inside.trans hosts.inside).symm
  have reached : t.mem = replay es s.mem := mem.trans runs.mem
  have number : hostCount (es ++ hostEvents t.inside t.mem) = hostCount es + t.inside.length := by
    rw [hostCount, List.filter_append, only.filter_isHost, List.length_append, length_hostEvents]
  refine ⟨hostEvents t.inside t.mem, only, ?_, ?_, ?_, ?_, ?_, ?_⟩
  · rw [hostRest_eq, ← List.append_assoc, ← runs.history, ← history]
    exact records
  · rw [hostRest_eq, replay_append, ← reached]
    exact replayed
  · rw [State.hostRest_accesses, accesses, runs.accesses, accessCount_hosts only]
  · exact fun e he => (List.mem_append.mp he).elim (runs.kinds e) fun he => .inr (only e he)
  · have few := hosts.few
    rw [number, inside, hosts.inside, List.length_drop]
    omega
  · rw [accessCount_hosts only, reached]
    refine State.Landed.hostEvents (zs := []) (hosts.landed.mono fun x before hb place => ?_)
      (by rw [waits, List.append_nil]) fun i x hx _ hi hn => ?_
    · rw [place, min_eq_left]
      exact place ▸ (hb.filter Event.isAccess).length_le
    · exact (min_eq_right (hosts.waiting i x hx hi hn)).symm

end

/-- SERVICE of a due channel: the accesses of the iteration went through and the registers are `Channel.iterated`, or one
failed and the channel entered Error. -/
theorem execService_serviced {s : State} {c : Nat} {r : Channel} (hdue : s.Due c r) :
    ∃ t es, execService c s = .next t ∧ s.Serviced es t ∧ t.cfg = s.cfg
      ∧ ((∃ (j : Nat) (x : Transfer), x.At r.desc j r.desc.writes ∧ r.desc.Log c s j r.desc.writes x.queue es
            ∧ t.chans = s.chans.set c (r.iterated s.cfg x.src x.dst))
        ∨ (r.desc.FailedLog c s es ∧ t.irqs = s.irqs ∧ ∃ n, t.chans = s.chans.set c (r.failed n))) := by
  have ends := moveMinorLoop_sofar c r.desc s
  cases hm : moveMinorLoop c r.desc s with
  | ok x =>
    rw [hm] at ends
    obtain ⟨j, es, h⟩ := ends
    obtain ⟨hs, only, serviced⟩ := State.Serviced.of_runs (t := iterate c r s) h.runs (h.log.count ▸ h.hosts)
      (by rw [iterate_ok hm]) (by rw [iterate_ok hm]) (by rw [iterate_ok hm]) (by rw [iterate_ok hm])
    refine ⟨_, _, execService_due hdue, serviced, ?_, .inl ⟨j, x, h.stands, h.log.hosts only, ?_⟩⟩
    · rw [State.hostRest_cfg, iterate_ok hm, h.runs.same.cfg]
    · rw [State.hostRest_chans, iterate_ok hm, h.runs.same.chans]
  | failed u =>
    rw [hm] at ends
    obtain ⟨es, h⟩ := ends
    have enters : iterate c r s = u.enterError c r := by rw [iterate, hm]
    obtain ⟨hs, only, serviced⟩ := State.Serviced.of_runs (t := u.enterError c r) h.runs h.hosts rfl rfl rfl rfl
    refine ⟨_, _, (execService_due hdue).trans (congrArg _ (congrArg _ enters)), serviced, ?_,
      .inr ⟨h.log.hosts only, ?_, u.draws, ?_⟩⟩
    · rw [State.hostRest_cfg, State.enterError_cfg, h.runs.same.cfg]
    · rw [State.hostRest_irqs, State.enterError_irqs, h.runs.same.irqs]
    · rw [State.hostRest_chans, State.enterError_chans, h.runs.same.chans]

theorem Channel.iterated_st_ne_error (r : Channel) (cfg : Config) (src dst : Word) :
    (r.iterated cfg src dst).st ≠ .error := by
  change (if r.desc.lastIteration then ChState.done else .active) ≠ .error
  split <;> decide

/-- Settles O57: each access of the host is one event, placed as it took effect. -/
theorem hostAccessesFallInsideIteration : Obligations.HostAccessesFallInsideIteration := by
  intro s c r hdue
  obtain ⟨t, es, ht, h, -⟩ := execService_serviced hdue
  refine ⟨t, es, ht, h.history, h.kinds, h.hosts, fun i x hx => h.landed i x hx ?_⟩
  exact h.hosts.symm ▸ (List.getElem?_eq_some_iff.mp hx).1

/-- Settles O59: the bytes written and those left in the queue are those brought, and a full iteration leaves none. -/
theorem serviceWritesWhatItReads : Obligations.ServiceWritesWhatItReads := by
  intro s c r hdue
  obtain ⟨t, es, ht, h, -, ⟨j, x, stands, log, chans⟩ | ⟨log, -, n, chans⟩⟩ := execService_serviced hdue
  · refine ⟨t, _, es, ht, hdue.1.of_chans_eq_set chans, h.history, ⟨x.queue, log.bytes⟩, fun hd _ => ?_⟩
    obtain ⟨rfl, empty⟩ := stands.all_reads hd
    have bytes := log.bytes
    rw [empty, List.append_nil] at bytes
    exact ⟨bytes, log.brought.trans hd.reads_mul⟩
  · exact ⟨t, _, es, ht, hdue.1.of_chans_eq_set chans, h.history, log.bytes, fun _ hne => absurd rfl hne⟩

/-- Settles O39: an iteration that goes through has no failed access, and one that fails ends with it and enters Error. -/
theorem faultLeavesErrorState : Obligations.FaultLeavesErrorState := by
  intro s c r hdue
  obtain ⟨t, es, ht, h, -, ⟨j, x, stands, log, chans⟩ | ⟨log, irqs, n, chans⟩⟩ := execService_serviced hdue
  · have running := r.iterated_st_ne_error s.cfg x.src x.dst
    refine ⟨t, _, es, ht, hdue.1.of_chans_eq_set chans, h.history, h.mem, ⟨?_, fun herr => absurd herr running⟩,
      log.placed, h.accesses, fun hd => ?_, fun herr => absurd herr running⟩
    · rintro ⟨e, he, failed⟩
      exact absurd (failed.symm.trans (log.through e he)) (by decide)
    · obtain ⟨rfl, -⟩ := stands.all_reads hd
      exact ⟨log.count.le, fun _ => log.count⟩
  · obtain ⟨done, e, hlast, failed, earlier⟩ := log.last
    have he : e ∈ es := (List.mem_filter.mp (hlast ▸ List.mem_append_right done (List.mem_singleton_self e))).1
    exact ⟨t, _, es, ht, hdue.1.of_chans_eq_set chans, h.history, h.mem, ⟨fun _ => rfl, fun _ => ⟨e, he, failed⟩⟩,
      log.placed, h.accesses, fun hd => ⟨log.bound hd, fun hne => absurd rfl hne⟩,
      fun _ => ⟨⟨n, rfl⟩, irqs, .of_chans_eq_set chans, done, e, hlast, failed, earlier⟩⟩

/-- Settles O58: ordering events do not touch memory, and the events of a SERVICE and of the host are what changed it. -/
theorem stepKeepsMemoryHistory : Obligations.StepKeepsMemoryHistory := by
  intro s t m hm h
  obtain ⟨u, hb, hu⟩ := step_next h
  rw [← hb.mem, ← hb.history] at hm
  suffices ∃ es, t.history = u.history ++ es ∧ t.mem = replay es u.mem by
    obtain ⟨es, history, mem⟩ := this
    rw [mem, history, replay_append, hm]
  obtain ⟨i, hi⟩ | rfl | ⟨x, rfl⟩ | rfl := hu
  · by_cases hc : ∃ c, i = .service c
    · obtain ⟨c, rfl⟩ := hc
      rcases execService_next hi with ⟨-, rfl⟩ | ⟨r, hdue, -⟩
      · obtain ⟨es, history, mem, -⟩ := landInside_events (fun _ => true) u.inside u
        exact ⟨es, history, mem⟩
      · obtain ⟨t', es, ht, serviced, -⟩ := execService_serviced hdue
        obtain rfl : t' = t := Host.Outcome.next.inj (ht.symm.trans hi)
        exact ⟨es, serviced.history, serviced.mem⟩
    · obtain ⟨off, -⟩ := exec_effect (fun c hic => hc ⟨c, hic⟩) hi
      obtain ⟨es, history, ordering⟩ := off.history
      exact ⟨es, history, off.mem.trans (replay_ordering ordering u.mem).symm⟩
  · exact ⟨[], (List.append_nil _).symm, rfl⟩
  · obtain ⟨event, after⟩ := hostAccess_event u x
    exact ⟨[_], event, after⟩
  · exact ⟨[], (List.append_nil _).symm, rfl⟩

end Sys2Proof.Machine
end

section
/-! PROOF. What a SERVICE step leaves in memory and in the registers: its frame, the entry to Error at the first access,
and the bytes it moves (spec/42_transfer_engine.md section 2). -/

namespace Sys2Proof.Machine

/-- The byte at `a` reads in `t` as in `s`, and no host access has joined those that wait. -/
structure State.Keeps (s : State) (a : Nat) (t : State) : Prop where
  inside : t.inside ⊆ s.inside
  mem : t.mem.read a = s.mem.read a

/-- No host access that waits stores to `a`. -/
abbrev State.HostSpares (s : State) (a : Nat) : Prop := ∀ x ∈ s.inside, a ∉ x.access.storeAddrs

section
variable {s t : State} {a : Nat}

theorem State.Keeps.refl (s : State) (a : Nat) : s.Keeps a s := ⟨List.Subset.refl _, rfl⟩

theorem read_hostAccess {x : HostAccess} (h : a ∉ x.storeAddrs) (s : State) :
    (s.hostAccess x).mem.read a = s.mem.read a := by
  cases x with
  | store b bs => exact read_writeBytes_other s.mem b bs a h
  | load b n => rfl

theorem State.Keeps.landInside (h : s.Keeps a t) (hs : s.HostSpares a) (due : InsideAccess → Bool) :
    s.Keeps a (landInside due t.inside t) :=
  landInside_mem_inv (P := s.Keeps a) due t.inside
    (fun x hx u hu => ⟨by rw [State.hostAccess_inside]; exact hu.inside,
      (read_hostAccess (hs x (h.inside hx)) u).trans hu.mem⟩)
    (fun _ hys _ hu => ⟨fun _ hy => h.inside (hys hy), hu.mem⟩) t h

theorem State.Keeps.hostBefore (h : s.Keeps a t) (hs : s.HostSpares a) (i : Nat) : s.Keeps a (t.hostBefore i) :=
  h.landInside hs _

theorem State.Keeps.hostRest (h : s.Keeps a t) (hs : s.HostSpares a) : s.Keeps a t.hostRest := h.landInside hs _

/-- The accesses of an iteration leave a byte alone that is in no destination element and that the host spares. -/
theorem moveMinorLoop_keeps (c : Nat) (d : Descriptor) (hs : s.HostSpares a)
    (ha : ∀ k, k < d.writes → a ∉ elementAddrs (d.dstAt k) d.dsize.bytes) :
    (moveMinorLoop c d s).Ends (fun x => s.Keeps a x.s) (s.Keeps a) := by
  have ends : (moveMinorLoop c d s).Ends (fun x => ∃ k, k + 0 = d.writes ∧ x.dst = d.dstAt k ∧ s.Keeps a x.s)
      (s.Keeps a) := by
    refine moveElements_ends_counting (P := fun n x => ∃ k, k + n = d.writes ∧ x.dst = d.dstAt k ∧ s.Keeps a x.s)
      ?_ ?_ _ _ ⟨0, Nat.zero_add _, d.dstAt_zero.symm, .refl s a⟩
    · rintro n x ⟨k, hk, hdst, keeps⟩ -
      have keeps := keeps.hostBefore hs x.idx
      rcases readSource_spec c d x with ⟨-, e⟩ | ⟨-, e⟩ <;> rw [e]
      · exact ⟨keeps.inside, keeps.mem⟩
      · exact ⟨k, hk, hdst, keeps.inside, keeps.mem⟩
    · rintro n x ⟨k, hk, hdst, keeps⟩ full
      have keeps := keeps.hostBefore hs x.idx
      rcases writeDest_spec c d x with ⟨-, e⟩ | ⟨-, e⟩ <;> rw [e]
      · exact ⟨keeps.inside, keeps.mem⟩
      · refine ⟨k + 1, by omega, by rw [hdst, d.dstAt_succ], keeps.inside, ?_⟩
        refine (read_writeBytes_other _ _ _ a ?_).trans keeps.mem
        rw [List.length_take_of_le full, hdst]
        exact ha k (by omega)
  exact ends.mono (fun x ⟨_, _, _, keeps⟩ => keeps) fun _ h => h

theorem execService_read {c : Nat} {r : Channel} (hdue : s.Due c r) (h : execService c s = .next t) (hs : s.HostSpares a)
    (ha : ∀ k, k < r.desc.writes → a ∉ elementAddrs (r.desc.dstAt k) r.desc.dsize.bytes) :
    t.mem.read a = s.mem.read a := by
  obtain rfl : (iterate c r s).hostRest = t := Host.Outcome.next.inj ((execService_due hdue).symm.trans h)
  have moved := moveMinorLoop_keeps c r.desc hs ha
  refine (State.Keeps.hostRest (s := s) ?_ hs).mem
  cases hm : moveMinorLoop c r.desc s with
  | ok x =>
    rw [hm] at moved
    rw [iterate_ok hm]
    exact ⟨moved.inside, moved.mem⟩
  | failed u =>
    rw [hm] at moved
    rw [iterate, hm]
    exact ⟨moved.inside, moved.mem⟩

end

/-- Settles O37: the register set is that of an iteration or of a failed one, and each byte outside is left alone by every
access. -/
theorem serviceFrame : Obligations.ServiceFrame := by
  intro s c r hdue
  obtain ⟨t, es, ht, -, -, ends⟩ := execService_serviced hdue
  obtain ⟨inputs, inside, out⟩ := execService_env ht
  have frame := fun a ha hs => execService_read (a := a) hdue ht hs ha
  obtain ⟨j, x, -, -, chans⟩ | ⟨-, -, n, chans⟩ := ends
  · exact ⟨t, _, ht, hdue.1.of_chans_eq_set chans, rfl, rfl, rfl, .of_chans_eq_set chans, inputs, inside, out, frame⟩
  · exact ⟨t, _, ht, hdue.1.of_chans_eq_set chans, rfl, rfl, rfl, .of_chans_eq_set chans, inputs, inside, out, frame⟩

/-! The first access fails. -/

/-- The first access of a checked descriptor is its first source read; when that fails nothing else is done. -/
theorem moveMinorLoop_first_fault {s : State} (c : Nat) {d : Descriptor} (hd : d.Checked)
    (hf : s.accessFault d.saddr d.ssize.bytes .read = true) :
    moveMinorLoop c d s = .failed ((s.hostBefore 0).accessed (.read c 0 d.saddr d.ssize.bytes false)) := by
  have size := ElemSize.bytes_pos d.dsize
  rcases readSource_spec c d { s := s, src := d.saddr, dst := d.daddr, queue := [], idx := 0 } with ⟨-, e⟩ | ⟨goes, -⟩
  · have empty : ¬ d.dsize.bytes ≤ ([] : List Byte).length := Nat.not_le_of_lt size
    obtain ⟨writes, hw⟩ := Nat.exists_eq_succ_of_ne_zero hd.writes_pos.ne'
    obtain ⟨rounds, hr⟩ := Nat.exists_eq_succ_of_ne_zero size.ne'
    rw [moveMinorLoop, hw, moveElements, show fillQueue c d d.dsize.bytes _ = _ from congrArg (fillQueue c d · _) hr,
      fillQueue, if_neg empty, e]
    rfl
  · exact absurd (goes.symm.trans hf) (by decide)

/-- Settles O38: the failing read is the only access, and the host's own stores are all that memory shows. -/
theorem firstAccessFaultEntersError : Obligations.FirstAccessFaultEntersError := by
  intro s c r hdue hd hf
  have fails := moveMinorLoop_first_fault c hd hf
  generalize hu : (s.hostBefore 0).accessed (.read c 0 r.desc.saddr r.desc.ssize.bytes false) = u at fails
  have enters : iterate c r s = u.enterError c r := by rw [iterate, fails]
  have ht : execService c s = .next (u.enterError c r).hostRest := enters ▸ execService_due hdue
  obtain ⟨inputs, inside, out⟩ := execService_env ht
  have chans : (u.enterError c r).hostRest.chans = s.chans.set c (r.failed s.draws) := by
    rw [State.hostRest_chans, State.enterError_chans, ← hu]
    simp
  have irqs : (u.enterError c r).hostRest.irqs = s.irqs := by
    rw [State.hostRest_irqs, State.enterError_irqs, ← hu]
    simp
  have accesses : (u.enterError c r).hostRest.accesses = s.accesses + 1 := by
    rw [State.hostRest_accesses, State.enterError_accesses, ← hu]
    simp
  have logs : State.Logs [.read c 0 r.desc.saddr r.desc.ssize.bytes false] s (u.enterError c r).hostRest := by
    have first : State.Logs [.read c 0 r.desc.saddr r.desc.ssize.bytes false] s u :=
      State.Logs.access (.of_history_eq rfl) 0 rfl (hu ▸ rfl)
    exact State.Logs.trans_noAccess (t := u.enterError c r) first (hostRest_adds _)
  obtain ⟨es, history, only⟩ := logs
  refine ⟨_, es, ht, hdue.1.of_chans_eq_set chans, irqs, out, .of_chans_eq_set chans, inputs, inside, accesses, history,
    only, fun a ha => ?_, fun none => ?_⟩
  · have before := (State.Keeps.refl s a).hostBefore ha 0
    have keeps : s.Keeps a (u.enterError c r) := by
      rw [← hu]
      exact ⟨before.inside, before.mem⟩
    exact (keeps.hostRest ha).mem
  · rw [State.hostBefore_none none] at hu
    rw [State.hostRest_none (hu ▸ none), ← hu]
    rfl

/-! The bytes that arrive. -/

/-- Of the bytes of the first `k` writes, those that none of them overwrote stand where they were written. -/
structure Transfer.Delivered (d : Descriptor) (k : Nat) (bs : List Byte) (x : Transfer) : Prop where
  wf : Memory.wf x.s.mem = true
  bytes : ∀ i, i < k * d.dsize.bytes → (∀ j, i < j → j < k * d.dsize.bytes → d.dstByte j ≠ d.dstByte i) →
    x.s.mem.read (d.dstByte i) = bs.getD i 0

section
variable {c j k : Nat} {d : Descriptor} {s : State} {bs : List Byte} {x y : Transfer}

/-- The host accesses that wait store to no destination byte of the iteration. -/
theorem State.Undisturbed.spares_dst (hu : s.Undisturbed c d) {t : State} (hi : t.inside ⊆ s.inside) {i : Nat}
    (hn : i < d.nbytes.toNat) : t.HostSpares (d.dstByte i) :=
  fun z hz ha => (hu.host z (hi hz) _ ha i hn).2 rfl

theorem Transfer.Delivered.hostBefore (h : x.Delivered d k bs) (hu : s.Undisturbed c d) (hi : x.s.inside ⊆ s.inside)
    (hk : k * d.dsize.bytes ≤ d.nbytes.toNat) (n : Nat) :
    Memory.wf (x.s.hostBefore n).mem = true
      ∧ ∀ i, i < k * d.dsize.bytes → (∀ j, i < j → j < k * d.dsize.bytes → d.dstByte j ≠ d.dstByte i) →
          (x.s.hostBefore n).mem.read (d.dstByte i) = bs.getD i 0 := by
  refine ⟨landInside_wf h.wf _ _, fun i hik hlast => ?_⟩
  rw [((State.Keeps.refl x.s _).hostBefore (hu.spares_dst hi (hik.trans_le hk)) n).mem]
  exact h.bytes i hik hlast

/-- A read changes no byte, and the bytes it brings come after those of the writes made. -/
theorem Transfer.Delivered.read (h : x.Delivered d k bs) (hu : s.Undisturbed c d) (hi : x.s.inside ⊆ s.inside)
    (hk : k * d.dsize.bytes ≤ d.nbytes.toNat) (hl : k * d.dsize.bytes ≤ bs.length) (more : List Byte)
    (hy : y.s.mem = (x.s.hostBefore x.idx).mem) : y.Delivered d k (bs ++ more) := by
  obtain ⟨wf, bytes⟩ := h.hostBefore hu hi hk x.idx
  refine ⟨hy ▸ wf, fun i hik hlast => ?_⟩
  rw [hy, bytes i hik hlast, List.getD_append _ _ _ _ (hik.trans_le hl)]

/-- A write puts the next bytes at their addresses, and leaves those that it does not overwrite. -/
theorem Transfer.Delivered.write (h : x.Delivered d k bs) (hu : s.Undisturbed c d) (hi : x.s.inside ⊆ s.inside)
    (hk : k * d.dsize.bytes ≤ d.nbytes.toNat) {out : List Byte} (hout : out.length = d.dsize.bytes)
    (hb : ∀ m, m < d.dsize.bytes → out.getD m 0 = bs.getD (k * d.dsize.bytes + m) 0)
    (hy : y.s.mem = (x.s.hostBefore x.idx).mem.writeBytes (d.dstAt k) out) : y.Delivered d (k + 1) bs := by
  obtain ⟨wf, bytes⟩ := h.hostBefore hu hi hk x.idx
  refine ⟨hy ▸ writeBytes_wf wf _ _, fun i hik hlast => ?_⟩
  rw [Nat.succ_mul] at hik hlast
  rw [hy]
  rcases lt_or_ge i (k * d.dsize.bytes) with hlt | hge
  · rw [read_writeBytes_other, bytes i hlt fun j hij hj => hlast j hij (by omega)]
    rw [hout, mem_elementAddrs]
    rintro ⟨m, hm, he⟩
    rw [← Descriptor.dstByte_of_lt hm] at he
    exact hlast (k * d.dsize.bytes + m) (by omega) (by omega) he.symm
  · obtain ⟨m, rfl⟩ := Nat.exists_eq_add_of_le hge
    have hm : m < d.dsize.bytes := by omega
    have short : out.length ≤ 2 ^ 32 := hout ▸ (ElemSize.bytes_le d.dsize).trans (by decide)
    rw [Descriptor.dstByte_of_lt hm, read_writeBytes_at wf _ _ short m (hout ▸ hm), ← hb m hm,
      List.getD_eq_getElem _ _ (hout ▸ hm)]

/-- An undisturbed iteration of a canonical memory stands at `x` with `n` writes still to make. -/
def Transfer.Delivering (c : Nat) (d : Descriptor) (s : State) (n : Nat) (x : Transfer) : Prop :=
  ∃ j k bs, k + n = d.writes ∧ x.Reached c d s j k bs ∧ x.Faithful c d s bs ∧ x.Delivered d k bs

theorem Descriptor.Checked.writes_le (hd : d.Checked) (hk : k ≤ d.writes) : k * d.dsize.bytes ≤ d.nbytes.toNat :=
  hd.writes_mul ▸ Nat.mul_le_mul_right _ hk

/-- No access fails and nothing disturbs the bytes of the iteration: every byte arrives. -/
theorem moveMinorLoop_delivered (c : Nat) (hd : d.Checked) (hf : s.NoAccessFails d) (hu : s.Undisturbed c d)
    (hwf : Memory.wf s.mem = true) :
    ∃ x bs, moveMinorLoop c d s = .ok x ∧ x.Reached c d s d.reads d.writes bs ∧ x.Faithful c d s bs
      ∧ x.Delivered d d.writes bs := by
  have ends : (moveMinorLoop c d s).Ends (Transfer.Delivering c d s 0) fun _ => False := by
    refine moveElements_ends_counting (fun n x hx hq => ?_) (fun n x hx hq => ?_) _ _
      ⟨0, 0, [], Nat.zero_add _, .start c d s, ⟨hu.sourceIntact, by simp⟩, hwf, by simp⟩
    · obtain ⟨j, k, bs, hn, reached, faithful, delivered⟩ := hx
      refine (readSource_reached reached hd hf (by omega) hq).mono (fun y hy => ?_) fun _ h => h
      obtain ⟨hreached, hy⟩ := hy
      have brought : k * d.dsize.bytes ≤ bs.length := reached.brought ▸ reached.taken
      exact ⟨j + 1, k, _, hn, hreached,
        readSource_faithful faithful hu hd (reached.read_place hd (by omega) hq).1 reached.brought hy,
        delivered.read hu faithful.intact.inside (hd.writes_le (by omega)) brought _ (by rw [hy]; rfl)⟩
    · obtain ⟨j, k, bs, hn, reached, faithful, delivered⟩ := hx
      refine (writeDest_reached reached hf (by omega) hq).mono (fun y hy => ?_) fun _ h => h
      obtain ⟨hreached, hy⟩ := hy
      have length : (x.queue.take d.dsize.bytes).length = d.dsize.bytes := List.length_take_of_le hq
      refine ⟨j, k + 1, bs, by omega, hreached, writeDest_faithful faithful hu hd (by omega) length hy,
        delivered.write hu faithful.intact.inside (hd.writes_le (by omega)) length (fun m hm => ?_) (by rw [hy]; rfl)⟩
      rw [reached.queue, List.getD_eq_getElem?_getD, List.getElem?_take_of_lt hm, List.getElem?_drop,
        ← List.getD_eq_getElem?_getD]
  cases hm : moveMinorLoop c d s with
  | failed u => rw [hm] at ends; exact ends.elim
  | ok x =>
    rw [hm] at ends
    obtain ⟨j, k, bs, rfl, reached, faithful, delivered⟩ := ends
    obtain rfl := reached.all_reads hd
    exact ⟨x, bs, rfl, reached, faithful, delivered⟩

end

/-- Settles O36: the last write of a destination byte brings the byte that stood at its source address, and after it only
the host stores, which keeps off. -/
theorem serviceMovesBytes : Obligations.ServiceMovesBytes := by
  intro s c r hdue hd hf hwf races apart host
  have hu : s.Undisturbed c r.desc := ⟨races, apart, host⟩
  obtain ⟨x, bs, hx, reached, faithful, delivered⟩ := moveMinorLoop_delivered c hd hf hu hwf
  refine ⟨_, execService_due hdue, fun i hi hlast => ?_⟩
  have spares : (iterate c r s).HostSpares (r.desc.dstByte i) := by
    rw [iterate_ok hx]
    exact hu.spares_dst (t := x.s) faithful.intact.inside hi
  rw [((State.Keeps.refl _ _).hostRest spares).mem, iterate_ok hx]
  have brought : bs.length = r.desc.nbytes.toNat := reached.brought.trans hd.reads_mul
  rw [← faithful.bytes i (brought ▸ hi)]
  exact delivered.bytes i (hd.writes_mul ▸ hi) fun j hij hj => hlast j hij (hd.writes_mul ▸ hj)

end Sys2Proof.Machine
end

section
/-! PROOF. A major loop of several SERVICE steps (spec/43_descriptor_derivation.md). -/

namespace Sys2Proof.Machine

/-! The addresses an iteration ends at stay aligned. -/

section
variable {d : Descriptor}

theorem Descriptor.Checked.dvd_srcAt (hd : d.Checked) (j : Nat) : d.ssize.bytes ∣ (d.srcAt j).toNat := by
  obtain ⟨-, -, -, -, hsoff, -, -, -, hsaddr, -⟩ := hd
  induction j with
  | zero => rwa [d.srcAt_zero]
  | succ j ih => exact d.srcAt_succ j ▸ ElemSize.dvd_toNat_add _ ih hsoff

theorem Descriptor.Checked.dvd_dstAt (hd : d.Checked) (k : Nat) : d.dsize.bytes ∣ (d.dstAt k).toNat := by
  obtain ⟨-, -, -, -, -, hdoff, -, -, -, hdaddr⟩ := hd
  induction k with
  | zero => rwa [d.dstAt_zero]
  | succ k ih => exact d.dstAt_succ k ▸ ElemSize.dvd_toNat_add _ ih hdoff

end

/-! What the last iterations of a major loop add to the source address, taken one iteration at a time (R190). -/

/-- What `n` iterations that end a major loop add to `saddr` before `slast`: `NetDisplacement` with `n` for `biter`. -/
def Descriptor.displacement (d : Descriptor) (mloffOnLast : Bool) (n : Nat) : Word :=
  BitVec.ofNat 32 (n * d.reads * d.soff.toNat + (if d.mloe then (if mloffOnLast then n else n - 1) else 0) * d.mloff.toNat)

section
variable {d : Descriptor} {cfg : Config} {n : Nat}

theorem Descriptor.netDisplacement_eq (d : Descriptor) (last : Bool) :
    d.netDisplacement last = d.displacement last d.biter.toNat := rfl

/-- An iteration that is not the last adds its reads and the minor-loop offset (R170). -/
theorem Descriptor.nextSaddr_add_displacement (h : d.citer ≠ 1) :
    d.nextSaddr cfg (d.srcAt d.reads) + d.displacement cfg.mloffOnLast (n + 1)
      = d.saddr + d.displacement cfg.mloffOnLast (n + 2) := by
  have more : d.lastIteration = false := Bool.eq_false_iff.mpr (mt Descriptor.lastIteration_iff.mp h)
  cases hm : d.mloe <;> cases hl : cfg.mloffOnLast <;>
    simp [nextSaddr, offsetDue, displacement, srcAt, more, hm, hl, Nat.succ_mul, Nat.add_mul, BitVec.ofNat_add] <;> ac_rfl

/-- The last iteration adds the minor-loop offset where the parameter says so, and `slast` (R170, R172). -/
theorem Descriptor.nextSaddr_last (h : d.citer = 1) :
    d.nextSaddr cfg (d.srcAt d.reads) = d.saddr + d.displacement cfg.mloffOnLast 1 + d.slast := by
  have last : d.lastIteration = true := Descriptor.lastIteration_iff.mpr h
  cases hm : d.mloe <;> cases hl : cfg.mloffOnLast <;>
    simp [nextSaddr, offsetDue, displacement, srcAt, last, hm, hl, BitVec.ofNat_add, BitVec.add_assoc]

end

/-! One step of the run, and the run. -/

/-- The register set after a SERVICE step in which no access failed. -/
def Channel.serviced (r : Channel) (cfg : Config) : Channel :=
  r.iterated cfg (r.desc.srcAt r.desc.reads) (r.desc.dstAt r.desc.writes)

section
variable {s t : State} {c n : Nat} {r : Channel}

theorem serviceRun_succ (h : execService c (s.latch c) = .next t) : serviceRun c (n + 1) s = serviceRun c n t := by
  rw [serviceRun, h]

theorem State.latch_due (hr : s.Has c r) (hl : r.desc.linkEn = false) :
    (s.latch c).Due c { r with pend := true } := by
  have latch : s.latch c = s.setChan c { r with pend := true } := by rw [State.latch, hr]
  exact ⟨latch ▸ chan?_setChan_same hr, rfl, hl⟩

theorem State.latch_cfg (s : State) (c : Nat) : (s.latch c).cfg = s.cfg := by
  unfold State.latch
  split <;> rfl

theorem Channel.serviced_checked (cfg : Config) (hd : r.desc.Checked) : (r.serviced cfg).desc.Checked :=
  Channel.iterated_checked cfg hd (hd.dvd_srcAt _) (hd.dvd_dstAt _)

theorem Channel.serviced_dstAt (r : Channel) (cfg : Config) (k : Nat) :
    (r.serviced cfg).desc.dstAt k = r.desc.dstAt (r.desc.writes + k) := by
  simp [serviced, iterated, Descriptor.dstAt, Nat.add_mul, BitVec.ofNat_add, BitVec.add_assoc]

/-- A step of the run that leaves the channel out of Error has done its iteration. -/
theorem execService_latch_ok (hr : s.Has c r) (hd : r.desc.Checked) (hl : r.desc.linkEn = false)
    (hok : ∀ t r', execService c (s.latch c) = .next t → t.Has c r' → r'.st ≠ .error) :
    ∃ t, execService c (s.latch c) = .next t ∧ t.cfg = s.cfg ∧ t.Has c (r.serviced s.cfg) := by
  have hdue := State.latch_due hr hl
  obtain ⟨t, es, ht, -, cfg, ⟨j, x, stands, -, chans⟩ | ⟨-, -, n, chans⟩⟩ := execService_serviced hdue
  · obtain ⟨rfl, -⟩ := stands.all_reads hd
    rw [stands.src, stands.dst] at chans
    rw [s.latch_cfg] at cfg chans
    exact ⟨t, ht, cfg, hdue.1.of_chans_eq_set chans⟩
  · exact absurd rfl (hok t _ ht (hdue.1.of_chans_eq_set chans))

/-- The iterations that are left of a major loop, by induction on their number (R192). -/
theorem serviceRun_completes (hr : s.Has c r) (hd : r.desc.Checked) (hl : r.desc.linkEn = false)
    (hn : r.desc.citer.toNat = n + 1)
    (hok : ∀ m t r', m ≤ n + 1 → serviceRun c m s = some t → t.Has c r' → r'.st ≠ .error) :
    ∃ t r', serviceRun c (n + 1) s = some t ∧ t.Has c r' ∧ r'.st = .done ∧ r'.desc.citer = r.desc.biter
      ∧ r'.desc.saddr = r.desc.saddr + r.desc.displacement s.cfg.mloffOnLast (n + 1) + r.desc.slast
      ∧ r'.desc.daddr = r.desc.dstAt ((n + 1) * r.desc.writes) := by
  induction n generalizing s r with
  | zero =>
    obtain ⟨t, ht, -, hr'⟩ := execService_latch_ok hr hd hl fun t r' ht => hok 1 t r' (by omega) (serviceRun_succ ht)
    have one : r.desc.citer = 1 := BitVec.eq_of_toNat_eq hn
    have last : r.desc.lastIteration = true := Descriptor.lastIteration_iff.mpr one
    exact ⟨t, _, serviceRun_succ ht, hr', if_pos last, if_pos last, Descriptor.nextSaddr_last one,
      by rw [Nat.one_mul]; rfl⟩
  | succ n ih =>
    obtain ⟨t, ht, cfg, hr'⟩ := execService_latch_ok hr hd hl fun t r' ht => hok 1 t r' (by omega) (serviceRun_succ ht)
    have more : r.desc.citer ≠ 1 := fun one => by simp [one] at hn
    have left : (r.serviced s.cfg).desc.citer = r.desc.citer - 1 := if_neg (mt Descriptor.lastIteration_iff.mp more)
    have count : (r.serviced s.cfg).desc.citer.toNat = n + 1 := by
      rw [left, BitVec.toNat_sub_of_le (BitVec.le_def.mpr (by simp; omega)), hn]
      rfl
    obtain ⟨u, r', hu, hr', st, citer, saddr, daddr⟩ := ih hr' (r.serviced_checked s.cfg hd) hl count
      fun m u r' hm hu => hok (m + 1) u r' (by omega) ((serviceRun_succ ht).trans hu)
    refine ⟨u, r', (serviceRun_succ ht).trans hu, hr', st, citer, ?_, ?_⟩
    · rw [saddr, cfg, ← Descriptor.nextSaddr_add_displacement more]
      rfl
    · rw [daddr, Channel.serviced_dstAt, Nat.succ_mul (n + 1), Nat.add_comm]
      rfl

end

/-- Settles O40: the run completes from `citer = biter`, and what it adds is `NetDisplacement`. -/
theorem roundTripLaw : Obligations.RoundTripLaw := by
  intro s c r hr _ hd hl hc hok
  obtain ⟨-, biter, -⟩ := id hd
  obtain ⟨n, hn⟩ := Nat.exists_eq_succ_of_ne_zero fun none => biter (BitVec.eq_of_toNat_eq none)
  rw [hn] at hok
  obtain ⟨t, r', ht, hr', st, citer, saddr, daddr⟩ := serviceRun_completes hr hd hl (hc ▸ hn) hok
  rw [← Nat.succ_eq_add_one, ← hn] at ht saddr daddr
  rw [← r.desc.netDisplacement_eq] at saddr
  refine ⟨t, r', ht, hr', saddr, daddr, citer, st, ?_⟩
  rw [saddr, BitVec.add_assoc, Descriptor.restoreAdjust, add_eq_left]
  exact add_eq_zero_iff_eq_neg'

end Sys2Proof.Machine
end
